-- ==== Sys2Proof/Word.lean ====
section
/-! DEFINITION. The word types of the block: every datum is a u8, a u16, a bool or a sequence of u8
(spec 41_framing.md rule R138; 00_scope.md rule R7). -/

namespace Sys2Proof

/-- A u8, the unit of every stream (00_scope.md rule R6, `BYTE`). -/
abbrev Byte := BitVec 8

/-- A u16: the checksum and the two-byte operands (30_encoding.md rule R75). -/
abbrev Half := BitVec 16

/-- A byte sequence (00_scope.md rule R8). -/
abbrev Bytes := List Byte

end Sys2Proof
end

