-- ==== Sys2Proof/Syntax/Operands.lean ====
section
/-! DEFINITION. The operand types of the instructions: the records of the command descriptors, the host
operations, the sequencer's phases and the sink's answers. -/

namespace Sys2Proof

/-- One window of Division: four u16 (40_commands.md rule R101). -/
structure Window where
  x : Half
  y : Half
  w : Half
  h : Half
  deriving DecidableEq, Repr, Inhabited

/-- Operands of ScrollingText (40_commands.md rule R102); `ft` is formatted text, copied as it stands. -/
structure ScrollingArgs where
  window : Byte
  effect : Byte
  alignment : Byte
  speed : Byte
  stayTime : Half
  ft : Bytes
  deriving DecidableEq, Repr, Inhabited

/-- Operands of Image (40_commands.md rule R103); `mode` is a constant and no operand (90_conflicts.md C3). -/
structure ImageArgs where
  window : Byte
  speed : Byte
  stayTime : Half
  format : Byte
  x : Half
  y : Half
  img : Bytes
  deriving DecidableEq, Repr, Inhabited

/-- Operands of StaticText (40_commands.md rule R104); `text` is a sequence of character codes (rule R107). -/
structure StaticArgs where
  window : Byte
  alignment : Byte
  x : Half
  y : Half
  width : Half
  height : Half
  fontSize : Byte
  red : Byte
  green : Byte
  blue : Byte
  text : List Nat
  deriving DecidableEq, Repr, Inhabited

/-- `format_flags` of Clock: the record of three booleans (40_commands.md rule R105), or the byte itself, which
"a host that passes the byte directly passes all 8 bits unchecked" (92_eei_decisions.md D23). -/
inductive FormatFlags where
  | flags (h24 year4 multiline : Bool)
  | direct (b : Byte)
  deriving DecidableEq, Repr, Inhabited

/-- `content_flags` of Clock: eight booleans (40_commands.md rule R105). -/
structure ContentFlags where
  year : Bool
  month : Bool
  day : Bool
  hour : Bool
  minute : Bool
  second : Bool
  week : Bool
  pointer : Bool
  deriving DecidableEq, Repr, Inhabited

/-- Operands of Clock (40_commands.md rule R105). -/
structure ClockArgs where
  window : Byte
  stayTime : Half
  calendar : Byte
  format : FormatFlags
  content : ContentFlags
  fontSize : Byte
  red : Byte
  green : Byte
  blue : Byte
  text : List Nat
  deriving DecidableEq, Repr, Inhabited

/-- The two-valued operand of Persistence (40_commands.md rule R108). -/
inductive SaveMode where
  | save
  | reset
  deriving DecidableEq, Repr, Inhabited

/-- A command descriptor: the closed set of 40_commands.md rule R100. It has no variant for opcodes 8 to 11
(rule R111). -/
inductive Command where
  | exit
  | division (windows : List Window)
  | scrollingText (a : ScrollingArgs)
  | image (a : ImageArgs)
  | staticText (a : StaticArgs)
  | clock (a : ClockArgs)
  | persistence (m : SaveMode)
  | raw (bytes : Bytes)
  deriving DecidableEq, Repr, Inhabited

/-- A host operation with its operands (30_encoding.md rule R81). -/
inductive HostOp where
  | beginQueue
  | enqueue (cmd : Command)
  | flush (unit : Byte) (conf : Bool)
  | send (unit : Byte) (conf : Bool) (cmd : Command)
  deriving DecidableEq, Repr, Inhabited

/-- The operands the host supplies beside the 2-bit code (30_encoding.md rule R81). -/
structure HostOperands where
  unit : Byte
  conf : Bool
  cmd : Command
  deriving DecidableEq, Repr, Inhabited

/-- The sequencer's phase (10_state.md rule R23); the code 7 is never taken and has no constructor. -/
inductive Phase where
  | idle
  | sof
  | hdr
  | pay
  | ckl
  | ckh
  | fin
  deriving DecidableEq, Repr, Inhabited

/-- The sink's answer to an offered byte (43_sequencer.md rule R170). -/
inductive Answer where
  | accept
  | stall
  | fail (e : Byte)
  deriving DecidableEq, Repr, Inhabited

end Sys2Proof
end

