-- ==== Sys2Proof/Syntax.lean ====
section
/-! DEFINITION. The instructions: one constructor for every row of spec/opcode_table.json. -/

namespace Sys2Proof

/-- Every row of the opcode table. The rows stand in six encoding spaces (the table's `unit` column) and, last, the
functions, which have no encoding. -/
inductive Instr where
  -- unit `payload`: the commands of 40_commands.md
  | division (windows : List Window)
  | scrollingText (a : ScrollingArgs)
  | image (a : ImageArgs)
  | staticText (a : StaticArgs)
  | clock (a : ClockArgs)
  | exit
  | save
  | reset
  | raw (bytes : Bytes)
  | reserved8 (tail : Bytes)
  | reserved9 (tail : Bytes)
  | reserved10 (tail : Bytes)
  | reserved11 (tail : Bytes)
  -- unit `formatted-text cell`
  | ftCell (color : BitVec 3) (size : BitVec 4) (char : BitVec 7)
  -- unit `body bytes`
  | header (unit : Byte) (conf : Bool) (lenLo lenHi index total : Byte)
  | checksumField (lo hi : Byte)
  -- unit `wire byte` and `wire byte pair`
  | sof
  | eof
  | escAA
  | escAE
  | escA5
  | literal (b : Byte)
  -- unit `host operation code`
  | beginQueue
  | enqueue (cmd : Command)
  | flush (unit : Byte) (conf : Bool)
  | send (unit : Byte) (conf : Bool) (cmd : Command)
  -- unit `(phase[2:0], esc)`; the operand is the sink's answer (43_sequencer.md rule R170)
  | stepSof (a : Answer)
  | stepHdr (a : Answer)
  | stepPay (a : Answer)
  | stepEsc2 (p : Phase) (a : Answer)
  | stepCkl (a : Answer)
  | stepCkh (a : Answer)
  | stepEnd (a : Answer)
  -- the functions of the function level
  | encodeCmd (cmd : Command)
  | formatText (text : List Nat) (color size : Byte)
  | asciiBytes (text : List Nat)
  | checkLen (bytes : Bytes)
  | rgbOfColor (c : Byte)
  | buildHeader (unit : Byte) (conf : Bool) (len : Half) (index total : Byte)
  | checksum (bytes : Bytes)
  | checksumBytes (bytes : Bytes)
  | escape (bytes : Bytes)
  | frame (body : Bytes)
  | makeFrame (unit : Byte) (conf : Bool) (payload : Bytes) (index total : Byte)
  | unescape (bytes : Bytes)
  | loadPacket (unit : Byte) (conf : Bool) (payload : Bytes) (index total : Byte)
  /-- `exec(op, (q, P))` of 42_queue_ops.md rule R159; `sink` says which frame is the first the sink answers with an
  error, and the error byte (`none`: every frame is answered `Ok`). -/
  | execSummary (op : HostOp) (q : Bool) (queue : List Bytes) (sink : Option (Nat × Byte))
  deriving DecidableEq, Repr, Inhabited

end Sys2Proof
end

