-- ==== Sys2Proof/Syntax/Inputs.lean ====
section
/-! DEFINITION. What reaches the block from outside: encoded words on their encoding space, the pins of the
transmit port, the host's issues. -/

namespace Sys2Proof

/-- The encoding space a word stands in (the `unit` column of the opcode table), with what the spec says stands
beside the word: a host operation's operands beside its code (30_encoding.md rule R81), the sink's answer beside the
sequencer's `(phase, esc)` (43_sequencer.md rule R170). A function has no encoding (mask 0): it is named, and its word is
empty. -/
inductive Channel where
  | payload
  | cell
  | header
  | checksum
  | wire
  | hostOp (o : HostOperands)
  | seqStep (a : Answer)
  | function (f : Instr)
  deriving DecidableEq, Repr, Inhabited

/-- The input pins of one clock edge (43_sequencer.md rule R183; 70_reset_and_hazards.md rule R240). -/
structure Pins where
  rst : Bool
  txReady : Bool
  txErr : Bool
  txErrinfo : Byte
  deriving DecidableEq, Repr, Inhabited

/-- One event from outside. Which agent moves next is part of the input: "Host steps and sequencer steps may interleave
in any order" (43_sequencer.md rule R170). -/
inductive Input where
  /-- A rising edge of `clk`: reset, or one sequencer step. -/
  | clock (p : Pins)
  /-- The host presents an operation at its port (42_queue_ops.md rule R150, *issued*). -/
  | issue (op : HostOp)
  /-- The block looks at the first operation waiting at the host port (rule R150, *accepted*; rule R157). -/
  | host
  /-- An encoded word is presented on its encoding space. -/
  | word (ch : Channel) (bs : Bytes)
  deriving DecidableEq, Repr, Inhabited

end Sys2Proof
end

