-- ==== Sys2Proof/Config.lean ====
section
/-! DEFINITION. What an implementation fixes (92_eei_decisions.md section 6) and the free values. None has a body, so no
proof can use a value of it. The parameters `F_CLK` and `HOSTIF` carry no number any rule depends on and have no
constant here. -/

namespace Sys2Proof.Config

/-- `QDEPTH - 1`. `QDEPTH` is OPEN, 1 to 256 (00_scope.md rule R6; decision D10). -/
opaque qdepthLessOne : Fin 256

/-- `QDEPTH`, the most payloads `pending` can hold: any number 1 to 256. -/
def qdepth : Nat := qdepthLessOne.val + 1

/-- `RGB_ON`, the byte of a colour component that is on: OPEN (40_commands.md rule R114; decision D21). -/
opaque rgbOn : Byte

/-- FREE VALUE. What `unescape` gives on a sequence that is no output of `escape`, which 41_framing.md rule R140 leaves
undefined. -/
opaque unescapeOutside : Bytes → Bytes

/-- FREE VALUE. The input that arrives when none is listed in the state: the sink's answers and the host's issues are
draws (60_exceptions.md rule R225; 10_state.md rule R31). The argument counts the draws. -/
opaque nextInput : Nat → Input

end Sys2Proof.Config
end

