-- ==== Sys2Proof/Decode.lean ====
section
/-! DEFINITION. The encodings of 30_encoding.md: byte order, field packing, the decoder of each encoding space (total,
rejecting by name), and after it the encoder. -/

namespace Sys2Proof

/-! ## Byte order and fields -/

/-- `v[7:0]`. -/
def lowByte (v : Half) : Byte := v.extractLsb' 0 8

/-- `v[15:8]`. -/
def highByte (v : Half) : Byte := v.extractLsb' 8 8

/-- Low byte first (00_scope.md rule R8). -/
def le16 (v : Half) : Bytes := [lowByte v, highByte v]

/-- High byte first (00_scope.md rule R8), used by Division alone (20_memory.md rule R41). -/
def be16 (v : Half) : Bytes := [highByte v, lowByte v]

/-- The u16 whose bytes are `hi` and `lo`. -/
def joinHalf (hi lo : Byte) : Half := hi ++ lo

/-- The three values a frame body never carries bare (00_scope.md rule R9). -/
def reserved (b : Byte) : Bool := b == 0xA5#8 || b == 0xAA#8 || b == 0xAE#8

/-- `(color << 4) XOR size`, on a width that holds `color << 4`; with the validated ranges the top bits are 0
(30_encoding.md rule R73). -/
def colourSizeByte (color size : Byte) : Byte :=
  (((color.setWidth 16) <<< 4) ^^^ (size.setWidth 16)).setWidth 8

/-- Weight of one flag bit. -/
def bitWeight (b : Bool) (weight : Nat) : Nat := if b then weight else 0

/-- `format_flags`: bit 1 is the negation of `year4`; bits 7:3 are 0 when the booleans are packed (30_encoding.md rule
R74), and as given when the host passes the byte (decision D23). -/
def formatByte : FormatFlags → Byte
  | .flags h24 year4 multiline =>
    BitVec.ofNat 8 (bitWeight h24 1 + bitWeight (!year4) 2 + bitWeight multiline 4)
  | .direct b => b

/-- `content_flags`, bit 0 to bit 7 (30_encoding.md rule R74). -/
def contentByte (c : ContentFlags) : Byte :=
  BitVec.ofNat 8 (bitWeight c.year 1 + bitWeight c.month 2 + bitWeight c.day 4 + bitWeight c.hour 8 +
    bitWeight c.minute 16 + bitWeight c.second 32 + bitWeight c.week 64 + bitWeight c.pointer 128)

/-- `phase` in 3 bits (10_state.md rule R23). -/
def phaseCode : Phase → BitVec 3
  | .idle => 0 | .sof => 1 | .hdr => 2 | .pay => 3 | .ckl => 4 | .ckh => 5 | .fin => 6

/-- The phase a 3-bit code names; 7 is never taken. -/
def phaseOfCode (n : Nat) : Option Phase :=
  match n with
  | 0 => some .idle | 1 => some .sof | 2 => some .hdr | 3 => some .pay
  | 4 => some .ckl | 5 => some .ckh | 6 => some .fin | _ => none

/-- The word `(phase[2:0], esc)` of the sequencer, in one byte. -/
def seqWord (p : Phase) (esc : Bool) : Byte := BitVec.ofNat 8 (2 * (phaseCode p).toNat + esc.toNat)

/-! ## What can be presented -/

/-- The phases a pair can stand in: `p` of STEP_ESC2 is one of HDR, PAY, CKL, CKH (43_sequencer.md rule R176). -/
def Phase.isBody : Phase → Bool
  | .hdr | .pay | .ckl | .ckh => true
  | .idle | .sof | .fin => false

/-- The descriptor can be given to the block: the count of Division is a u8, "more than 255 cannot be expressed"
(92_eei_decisions.md D25). -/
def Command.expressible : Command → Bool
  | .division ws => decide (ws.length ≤ 255)
  | .exit | .scrollingText _ | .image _ | .staticText _ | .clock _ | .persistence _ | .raw _ => true

def HostOp.expressible : HostOp → Bool
  | .enqueue c => c.expressible
  | .send _ _ c => c.expressible
  | .beginQueue | .flush _ _ => true

/-! ## The decoder -/

/-- Why a word is no instruction. -/
inductive DecodeError where
  /-- No formatted-text cell (rule R72). -/
  | notACell
  /-- No packet header (rule R62). -/
  | notAHeader
  /-- Not the two bytes of a checksum (rule R63). -/
  | notAChecksum
  /-- No wire symbol: an undefined pair, or a bare reserved byte that is no delimiter (rule R78). -/
  | notAWireSymbol
  /-- No 2-bit host operation code (rule R81). -/
  | notAHostCode
  /-- No sequencer step: `IDLE`, the code 7, or `esc` outside the body phases (43_sequencer.md rules R170, R176). -/
  | notAStep
  /-- The name does not stand for a function, or its word is not empty. -/
  | notAFunction
  deriving DecidableEq, Repr

/-- `n` windows of four big-endian u16, and nothing after them (30_encoding.md rule R65). -/
def parseWindows : Nat → Bytes → Option (List Window)
  | 0, [] => some []
  | 0, _ :: _ => none
  | n + 1, x1 :: x0 :: y1 :: y0 :: w1 :: w0 :: h1 :: h0 :: rest =>
    (parseWindows n rest).map
      (⟨joinHalf x1 x0, joinHalf y1 y0, joinHalf w1 w0, joinHalf h1 h0⟩ :: ·)
  | _ + 1, _ => none

/-- The bytes before a trailer of `n` zeros. -/
def beforeZeros (n : Nat) (bs : Bytes) : Option Bytes :=
  if bs.drop (bs.length - n) = List.replicate n 0x00#8 then some (bs.take (bs.length - n)) else none

/-- Character codes of plain text (30_encoding.md rules R68, R69): ASCII bytes before a one-zero trailer. -/
def parseText (bs : Bytes) : Option (List Nat) :=
  match beforeZeros 1 bs with
  | some t => if t.all (fun b => decide (b.toNat ≤ 127)) then some (t.map BitVec.toNat) else none
  | none => none

/-- The flag record a byte packs; bits 7:3 are 0 in a packed byte. -/
def parseFormat (b : Byte) : FormatFlags :=
  if b.toNat < 8 then .flags (b.getLsbD 0) (!b.getLsbD 1) (b.getLsbD 2) else .direct b

def parseContent (b : Byte) : ContentFlags :=
  ⟨b.getLsbD 0, b.getLsbD 1, b.getLsbD 2, b.getLsbD 3, b.getLsbD 4, b.getLsbD 5, b.getLsbD 6, b.getLsbD 7⟩

/-- Format DIV after the opcode. -/
def parseDivision : Bytes → Option Instr
  | count :: rest => (parseWindows count.toNat rest).map .division
  | [] => none

/-- Format SCR after the opcode. -/
def parseScrolling : Bytes → Option Instr
  | window :: effect :: alignment :: speed :: s0 :: s1 :: rest =>
    match beforeZeros 3 rest with
    | some ft =>
      if window.toNat ≤ 7 then
        some (.scrollingText ⟨window, effect, alignment, speed, joinHalf s1 s0, ft⟩)
      else none
    | none => none
  | _ => none

/-- Format IMG after the opcode. The window index is not in the payload (rule R67); it is read as 0. -/
def parseImage : Bytes → Option Instr
  | mode :: speed :: s0 :: s1 :: format :: x0 :: x1 :: y0 :: y1 :: img =>
    if mode = 0x00#8 then
      some (.image ⟨0, speed, joinHalf s1 s0, format, joinHalf x1 x0, joinHalf y1 y0, img⟩)
    else none
  | _ => none

/-- Format STA after the opcode. The window index is not in the payload (rule R68); it is read as 0. -/
def parseStatic : Bytes → Option Instr
  | mode :: alignment :: x0 :: x1 :: y0 :: y1 :: w0 :: w1 :: h0 :: h1 :: size :: r :: g :: b :: rest =>
    if mode = 0x01#8 then
      (parseText rest).map fun t =>
        .staticText ⟨0, alignment, joinHalf x1 x0, joinHalf y1 y0, joinHalf w1 w0, joinHalf h1 h0,
          size, r, g, b, t⟩
    else none
  | _ => none

/-- Format CLK after the opcode. The window index is not in the payload (rule R69); it is read as 0. -/
def parseClock : Bytes → Option Instr
  | s0 :: s1 :: calendar :: ff :: cf :: size :: r :: g :: b :: rest =>
    if size.toNat ≤ 7 then
      (parseText rest).map fun t =>
        .clock ⟨0, joinHalf s1 s0, calendar, parseFormat ff, parseContent cf, size, r, g, b, t⟩
    else none
  | _ => none

/-- Formats EXI and SAV after the opcode. -/
def parseExit : Bytes → Option Instr
  | [] => some .exit
  | _ :: _ => none

def parsePersistence (rest : Bytes) : Option Instr :=
  if rest = [0x00#8, 0x00#8, 0x00#8] then some .save
  else if rest = [0x01#8, 0x00#8, 0x00#8] then some .reset
  else none

/-- The command whose format the payload has, by its opcode (30_encoding.md rule R77). -/
def parseCommand (op : Byte) (rest : Bytes) : Option Instr :=
  match op.toNat with
  | 1 => parseDivision rest
  | 2 => parseScrolling rest
  | 3 => parseImage rest
  | 4 => parseStatic rest
  | 5 => parseClock rest
  | 6 => parseExit rest
  | 7 => parsePersistence rest
  | 8 => some (.reserved8 rest)
  | 9 => some (.reserved9 rest)
  | 10 => some (.reserved10 rest)
  | 11 => some (.reserved11 rest)
  | _ => none

/-- A payload of 0 to 65535 bytes: the command whose format it has, else a raw payload (30_encoding.md rules R64, R78). More bytes
have no payload format and are a raw payload too, which RAW answers with `PayloadTooLarge` (60_exceptions.md rule R206). -/
def decodePayload (bs : Bytes) : Except DecodeError Instr :=
  if bs.length ≤ 65535 then
    match bs with
    | op :: rest => .ok ((parseCommand op rest).getD (.raw bs))
    | [] => .ok (.raw [])
  else .ok (.raw bs)

/-- `0cccssss 00000000 0aaaaaaa` (30_encoding.md rule R72). -/
def decodeCell : Bytes → Except DecodeError Instr
  | [cs, z, ch] =>
    if cs.toNat < 128 ∧ z = 0x00#8 ∧ ch.toNat < 128 then
      .ok (.ftCell (cs.extractLsb' 4 3) (cs.extractLsb' 0 4) (ch.extractLsb' 0 7))
    else .error .notACell
  | _ => .error .notACell

/-- The nine bytes of 30_encoding.md rule R62. -/
def decodeHeader : Bytes → Except DecodeError Instr
  | [b0, b1, unit, b3, conf, lenLo, lenHi, index, total] =>
    if b0 = 0x68#8 ∧ b1 = 0x32#8 ∧ b3 = 0x7B#8 ∧ (conf = 0x00#8 ∨ conf = 0x01#8) then
      .ok (.header unit (conf == 0x01#8) lenLo lenHi index total)
    else .error .notAHeader
  | _ => .error .notAHeader

/-- Low byte, then high byte (30_encoding.md rule R63). -/
def decodeChecksum : Bytes → Except DecodeError Instr
  | [lo, hi] => .ok (.checksumField lo hi)
  | _ => .error .notAChecksum

/-- The wire symbols of 30_encoding.md rules R60 and R61. -/
def decodeWire : Bytes → Except DecodeError Instr
  | [b] =>
    if b = 0xA5#8 then .ok .sof
    else if b = 0xAE#8 then .ok .eof
    else if b = 0xAA#8 then .error .notAWireSymbol
    else .ok (.literal b)
  | [p, q] =>
    if p = 0xAA#8 ∧ q = 0x0A#8 then .ok .escAA
    else if p = 0xAA#8 ∧ q = 0x0E#8 then .ok .escAE
    else if p = 0xAA#8 ∧ q = 0x05#8 then .ok .escA5
    else .error .notAWireSymbol
  | _ => .error .notAWireSymbol

/-- The 2-bit code and the operands beside it (30_encoding.md rule R81). -/
def decodeHost (o : HostOperands) : Bytes → Except DecodeError Instr
  | [code] =>
    match code.toNat with
    | 0 => .ok .beginQueue
    | 1 => .ok (.enqueue o.cmd)
    | 2 => .ok (.flush o.unit o.conf)
    | 3 => .ok (.send o.unit o.conf o.cmd)
    | _ => .error .notAHostCode
  | _ => .error .notAHostCode

/-- The step of a phase with `esc = 0`; `IDLE` has none (43_sequencer.md rule R170). -/
def plainStep (p : Phase) (a : Answer) : Except DecodeError Instr :=
  match p with
  | .idle => .error .notAStep
  | .sof => .ok (.stepSof a)
  | .hdr => .ok (.stepHdr a)
  | .pay => .ok (.stepPay a)
  | .ckl => .ok (.stepCkl a)
  | .ckh => .ok (.stepCkh a)
  | .fin => .ok (.stepEnd a)

/-- The step of a phase with `esc = 1`, a body phase only (43_sequencer.md rule R176). -/
def pairStep (p : Phase) (a : Answer) : Except DecodeError Instr :=
  if p.isBody then .ok (.stepEsc2 p a) else .error .notAStep

/-- The word `(phase[2:0], esc)` selects the step (the opcode table's SEQSTEP rows). -/
def decodeSeq (a : Answer) : Bytes → Except DecodeError Instr
  | [code] =>
    match phaseOfCode (code.toNat / 2) with
    | some p => if code.toNat % 2 = 1 then pairStep p a else plainStep p a
    | none => .error .notAStep
  | _ => .error .notAStep

/-- The rows of the table's unit `none`. -/
def Instr.isFunction : Instr → Bool
  | .encodeCmd _ | .formatText _ _ _ | .asciiBytes _ | .checkLen _ | .rgbOfColor _ => true
  | .buildHeader _ _ _ _ _ | .checksum _ | .checksumBytes _ | .escape _ | .frame _ => true
  | .makeFrame _ _ _ _ _ | .unescape _ | .loadPacket _ _ _ _ _ | .execSummary _ _ _ _ => true
  | .division _ | .scrollingText _ | .image _ | .staticText _ | .clock _ | .exit | .save | .reset => false
  | .raw _ | .reserved8 _ | .reserved9 _ | .reserved10 _ | .reserved11 _ => false
  | .ftCell _ _ _ | .header _ _ _ _ _ _ | .checksumField _ _ => false
  | .sof | .eof | .escAA | .escAE | .escA5 | .literal _ => false
  | .beginQueue | .enqueue _ | .flush _ _ | .send _ _ _ => false
  | .stepSof _ | .stepHdr _ | .stepPay _ | .stepEsc2 _ _ | .stepCkl _ | .stepCkh _ | .stepEnd _ => false

/-- A function is named and has no encoding (the table's mask 0). -/
def decodeFunction (f : Instr) : Bytes → Except DecodeError Instr
  | [] => if f.isFunction then .ok f else .error .notAFunction
  | _ :: _ => .error .notAFunction

/-- The decoder: total on any bytes of any encoding space. -/
def decode (ch : Channel) (bs : Bytes) : Except DecodeError Instr :=
  match ch with
  | .payload => decodePayload bs
  | .cell => decodeCell bs
  | .header => decodeHeader bs
  | .checksum => decodeChecksum bs
  | .wire => decodeWire bs
  | .hostOp o => decodeHost o bs
  | .seqStep a => decodeSeq a bs
  | .function f => decodeFunction f bs

/-! ## The encoder -/

def windowBytes (w : Window) : Bytes := be16 w.x ++ be16 w.y ++ be16 w.w ++ be16 w.h

/-- Format DIV (30_encoding.md rule R65). -/
def layoutDivision (ws : List Window) : Bytes :=
  [0x01#8, BitVec.ofNat 8 ws.length] ++ ws.flatMap windowBytes

/-- Format SCR (rule R66). -/
def layoutScrolling (a : ScrollingArgs) : Bytes :=
  [0x02#8, a.window, a.effect, a.alignment, a.speed] ++ le16 a.stayTime ++ a.ft ++ [0x00#8, 0x00#8, 0x00#8]

/-- Format IMG (rule R67). -/
def layoutImage (a : ImageArgs) : Bytes :=
  [0x03#8, 0x00#8, a.speed] ++ le16 a.stayTime ++ [a.format] ++ le16 a.x ++ le16 a.y ++ a.img

/-- Format STA (rule R68), `t` the bytes of the text. -/
def layoutStatic (a : StaticArgs) (t : Bytes) : Bytes :=
  [0x04#8, 0x01#8, a.alignment] ++ le16 a.x ++ le16 a.y ++ le16 a.width ++ le16 a.height ++
    [a.fontSize, a.red, a.green, a.blue] ++ t ++ [0x00#8]

/-- Format CLK (rule R69), `t` the bytes of the text. -/
def layoutClock (a : ClockArgs) (t : Bytes) : Bytes :=
  [0x05#8] ++ le16 a.stayTime ++
    [a.calendar, formatByte a.format, contentByte a.content, a.fontSize, a.red, a.green, a.blue] ++ t ++ [0x00#8]

/-- Format EXI (rule R71). -/
def layoutExit : Bytes := [0x06#8]

/-- Format SAV (rule R70). -/
def layoutPersistence : SaveMode → Bytes
  | .save => [0x07#8, 0x00#8, 0x00#8, 0x00#8]
  | .reset => [0x07#8, 0x01#8, 0x00#8, 0x00#8]

/-- Format CELL (rule R72). -/
def layoutCell (colourSize character : Byte) : Bytes := [colourSize, 0x00#8, character]

/-- `true -> 0x01`, `false -> 0x00` (10_state.md rule R21; decision D6). -/
def confByte (c : Bool) : Byte := if c then 0x01#8 else 0x00#8

/-- Format HDR (rule R62). -/
def layoutHeader (unit : Byte) (conf : Bool) (lenLo lenHi index total : Byte) : Bytes :=
  [0x68#8, 0x32#8, unit, 0x7B#8, confByte conf, lenLo, lenHi, index, total]

/-- One byte per character. -/
def textBytes (t : List Nat) : Bytes := t.map (BitVec.ofNat 8)

/-- What stands beside a host operation's code where nothing gives its operands: unit 0x00, confirmation false, the command Exit.
DESIGN CHOICE (log entry 26): the code of 30_encoding.md rule R81 carries no operand. Used for the operands an operation does not
take, and by `tableWord`. -/
def noOperands : HostOperands := ⟨0x00#8, false, .exit⟩

/-- The encoding space and the word of an instruction. -/
def encode : Instr → Channel × Bytes
  | .division ws => (.payload, layoutDivision ws)
  | .scrollingText a => (.payload, layoutScrolling a)
  | .image a => (.payload, layoutImage a)
  | .staticText a => (.payload, layoutStatic a (textBytes a.text))
  | .clock a => (.payload, layoutClock a (textBytes a.text))
  | .exit => (.payload, layoutExit)
  | .save => (.payload, layoutPersistence .save)
  | .reset => (.payload, layoutPersistence .reset)
  | .raw bs => (.payload, bs)
  | .reserved8 t => (.payload, 0x08#8 :: t)
  | .reserved9 t => (.payload, 0x09#8 :: t)
  | .reserved10 t => (.payload, 0x0A#8 :: t)
  | .reserved11 t => (.payload, 0x0B#8 :: t)
  | .ftCell c s a => (.cell, layoutCell (colourSizeByte (c.setWidth 8) (s.setWidth 8)) (a.setWidth 8))
  | .header u c l h i t => (.header, layoutHeader u c l h i t)
  | .checksumField lo hi => (.checksum, [lo, hi])
  | .sof => (.wire, [0xA5#8])
  | .eof => (.wire, [0xAE#8])
  | .escAA => (.wire, [0xAA#8, 0x0A#8])
  | .escAE => (.wire, [0xAA#8, 0x0E#8])
  | .escA5 => (.wire, [0xAA#8, 0x05#8])
  | .literal b => (.wire, [b])
  | .beginQueue => (.hostOp noOperands, [0#8])
  | .enqueue c => (.hostOp ⟨0x00#8, false, c⟩, [1#8])
  | .flush u c => (.hostOp ⟨u, c, .exit⟩, [2#8])
  | .send u c cmd => (.hostOp ⟨u, c, cmd⟩, [3#8])
  | .stepSof a => (.seqStep a, [seqWord .sof false])
  | .stepHdr a => (.seqStep a, [seqWord .hdr false])
  | .stepPay a => (.seqStep a, [seqWord .pay false])
  | .stepEsc2 p a => (.seqStep a, [seqWord p true])
  | .stepCkl a => (.seqStep a, [seqWord .ckl false])
  | .stepCkh a => (.seqStep a, [seqWord .ckh false])
  | .stepEnd a => (.seqStep a, [seqWord .fin false])
  | .encodeCmd c => (.function (.encodeCmd c), [])
  | .formatText t c s => (.function (.formatText t c s), [])
  | .asciiBytes t => (.function (.asciiBytes t), [])
  | .checkLen bs => (.function (.checkLen bs), [])
  | .rgbOfColor c => (.function (.rgbOfColor c), [])
  | .buildHeader u c l i t => (.function (.buildHeader u c l i t), [])
  | .checksum bs => (.function (.checksum bs), [])
  | .checksumBytes bs => (.function (.checksumBytes bs), [])
  | .escape bs => (.function (.escape bs), [])
  | .frame bs => (.function (.frame bs), [])
  | .makeFrame u c p i t => (.function (.makeFrame u c p i t), [])
  | .unescape bs => (.function (.unescape bs), [])
  | .loadPacket u c p i t => (.function (.loadPacket u c p i t), [])
  | .execSummary op q p k => (.function (.execSummary op q p k), [])

/-- What an encoding keeps of an instruction: the window index of Image, StaticText and Clock is validated and not
encoded (decision D20), and a flag byte below 8 is the byte of three booleans. -/
def Instr.encoded : Instr → Instr
  | .image a => .image { a with window := 0 }
  | .staticText a => .staticText { a with window := 0 }
  | .clock a => .clock { a with window := 0, format := parseFormat (formatByte a.format) }
  | i => i

/-! ## Words as the opcode table numbers them -/

/-- The `n` bytes of a word, the first the most significant: the table sets a row's byte 0 in the high position. -/
def bytesOfWord : Nat → Nat → Bytes
  | 0, _ => []
  | n + 1, w => BitVec.ofNat 8 (w / 256 ^ n) :: bytesOfWord n w

/-- `bs` followed by zeros up to `n` bytes. -/
def padZeros (n : Nat) (bs : Bytes) : Bytes := bs ++ List.replicate (n - bs.length) 0x00#8

/-- The fixed part of a payload format, in bytes (30_encoding.md rules R65 to R71). -/
def fixedLength (bs : Bytes) : Nat :=
  match bs with
  | op :: _ =>
    match op.toNat with
    | 1 => 2 | 2 => 10 | 3 => 10 | 4 => 16 | 5 => 11 | 7 => 4 | _ => 1
  | [] => 0

/-- The encoding space a table word of one byte stands in: a delimiter, a payload opcode 0 to 11, else a byte that
stands for itself. -/
def oneByteWord (w : Nat) : Channel × Bytes :=
  let bs := bytesOfWord 1 w
  if w < 12 ∨ w = 0xAA then (.payload, padZeros (fixedLength bs) bs) else (.wire, bs)

/-- A table word of two bytes: an escape pair, a payload with a fixed second byte (Image, StaticText), else a checksum. -/
def twoByteWord (w : Nat) : Channel × Bytes :=
  let bs := bytesOfWord 2 w
  if w = 0xAA0A ∨ w = 0xAA0E ∨ w = 0xAA05 then (.wire, bs)
  else if w = 0x0300 ∨ w = 0x0401 then (.payload, padZeros (fixedLength bs) bs)
  else (.checksum, bs)

/-- The word of a table row, laid out on its encoding space. A width that is a whole number of bytes names a payload, a
cell, a header, a checksum or a wire symbol; the widths 2 and 4 name a host operation code and a sequencer step. DESIGN CHOICE: the table's bits carry no operand of a host
operation and no answer of the sink, and the word stands for `noOperands` beside the code (log entry 26) and the answer `accept`
beside the step (log entry 17). -/
def tableWord (nbits w : Nat) : Option (Channel × Bytes) :=
  match nbits with
  | 2 => some (.hostOp noOperands, bytesOfWord 1 w)
  | 4 => some (.seqStep .accept, bytesOfWord 1 w)
  | 8 => some (oneByteWord w)
  | 16 => some (twoByteWord w)
  | 24 => some (.cell, bytesOfWord 3 w)
  | 32 => some (.payload, bytesOfWord 4 w)
  | 72 => some (.header, bytesOfWord 9 w)
  | _ => none

/-- The instruction the decoder reads from a table word. -/
def decodeTableWord (nbits w : Nat) : Option Instr :=
  match tableWord nbits w with
  | some (ch, bs) =>
    match decode ch bs with
    | .ok i => some i
    | .error _ => none
  | none => none

end Sys2Proof
end

