-- ==== Sys2Proof/Machine/State.lean ====
section
/-! DEFINITION. The state of the block (10_state.md), with the observation logs, the inputs the outside has placed, and
the reasons a step can stop. Plain data throughout. -/

namespace Sys2Proof.Machine

/-- The error kinds (60_exceptions.md rule R200). -/
inductive ErrKind where
  | invalidWindow
  /-- Unreachable: `unit_id` is a u8 (rule R202). -/
  | invalidUnitId
  | invalidColor
  | invalidFontSize
  | encodingError
  | payloadTooLarge
  | queueMisuse
  | transport
  | queueOverflow
  deriving DecidableEq, Repr

/-- `Err(kind, info)`: the kind and the value recorded, where the last column of rule R200 names one. -/
structure ErrInfo where
  kind : ErrKind
  info : Option Nat
  deriving DecidableEq, Repr

/-- An entry of `RESP` (10_state.md rule R30). -/
inductive Response where
  | ok
  | err (e : ErrInfo)
  deriving DecidableEq, Repr

/-- `Ok(value) | Err(kind)`, the results of the function level (40_commands.md rule R100). -/
inductive Result (α : Type) where
  | ok (a : α)
  | err (e : ErrInfo)
  deriving DecidableEq, Repr

/-- The values the functions of the function level give. -/
inductive FnValue where
  | bytes (b : Bytes)
  | number (n : Half)
  | rgb (red green blue : Byte)
  /-- `((queue_enabled, pending), result, frames)` of 42_queue_ops.md rule R159. -/
  | summary (q : Bool) (pending : List Bytes) (r : Response) (frames : List Bytes)
  deriving DecidableEq, Repr

/-- The sequencer position `(phase, idx, esc)` (10_state.md rule R23). -/
structure Pc where
  phase : Phase
  idx : BitVec 17
  esc : Bool
  deriving DecidableEq, Repr

/-- A byte memory: address and byte pairs, addresses strictly rising. An address that is not listed holds no value
(nothing has been written there). -/
abbrev Memory := List Host.Cell

/-- The state. The first group is the block's own (10_state.md rules R20 to R28), then the observation logs (rule R30),
then what is waiting outside (42_queue_ops.md rule R157; 10_state.md rule R31), then the model's own field. -/
structure State where
  /-- `x[2]`, `UNIT`. `x[0]`, `x[1]` and `x[3]` are hardwired and hold no state (rule R20; `State.readX`). -/
  xUnit : Byte
  /-- `x[4]`, `CONF`. -/
  xConf : Byte
  /-- `x[5]`, `LENLO`. -/
  xLenLo : Byte
  /-- `x[6]`, `LENHI`. -/
  xLenHi : Byte
  /-- `x[7]`, `PIDX`. -/
  xPidx : Byte
  /-- `x[8]`, `PTOT`. -/
  xPtot : Byte
  /-- The checksum accumulator (rule R22). -/
  acc : Half
  /-- The sequencer position (rule R23); `BUSY`, `ESC` and `STATUS.PHASE` are views of it (rule R24). -/
  pc : Pc
  /-- `QEN`, the source's `queue_enabled` (rule R24). -/
  queueEnabled : Bool
  /-- `ERR.CODE` (rule R25). -/
  errCode : BitVec 4
  /-- `ERR.INFO` (rule R25). -/
  errInfo : Byte
  /-- The length of the payload in `PBUF` (rule R26). -/
  plen : BitVec 17
  /-- The payload buffer `PBUF`, addresses 0 to 65534 (rule R26). -/
  pbuf : Memory
  /-- The queue (rule R27). -/
  pending : List Bytes
  /-- The group being sent (rule R28). -/
  batch : List Bytes
  /-- The index of the packet being sent (rule R28). -/
  bpos : BitVec 9
  /-- `f_unit` (rule R28). -/
  fUnit : Byte
  /-- `f_conf` (rule R28). -/
  fConf : Bool
  /-- The wire log `W` (rule R30). -/
  wire : Bytes
  /-- The response log `RESP` (rule R30). -/
  resp : List Response
  /-- Operations issued and not yet accepted, first issued first (42_queue_ops.md rules R150, R157). -/
  port : List HostOp
  /-- What the outside has placed to arrive next (10_state.md rule R31). -/
  inputs : List Input
  /-- How many inputs were drawn because none was placed: the counter of the free value `Config.nextInput`. -/
  draws : Nat
  /-- The model's own: what the latest function-level evaluation gave. -/
  result : Option (Result FnValue)
  deriving DecidableEq, Repr

/-- Why the machine stops with a fault. None is raised in a state that meets the invariant `State.Inv`. -/
inductive Fault where
  /-- `MemRead` at an address at or above `plen`, or where nothing has been written: "An access at `addr >= plen` never
  happens" (20_memory.md rule R44). Raised by STEP_PAY, STEP_ESC2 and the wire symbols. Safe: the machine stops. -/
  | pbufRead
  /-- `MemWrite` outside addresses 0 to 65534 (20_memory.md rules R40, R45). Raised by what loads a packet: SEND, FLUSH,
  STEP_END. Safe: the machine stops. -/
  | pbufWrite
  /-- A position rule R23 of 10_state.md does not give: `idx` above 8 in `HDR`, or at or above `plen` in `PAY`. Raised by
  the sequencer steps. Safe: the machine stops. -/
  | position
  /-- `batch[bpos]` does not exist. Raised by STEP_END. Safe: the machine stops. -/
  | batchIndex
  deriving DecidableEq, Repr

/-- Why an instruction is refused. -/
inductive Refusal where
  /-- No meaning in the model; raised by no arm. Safe. -/
  | notModelled (mnemonic : String)
  /-- The word presented is no instruction of its encoding space: "never produced" (30_encoding.md rule R78; treatment `refuse` in
  93_implementation_defined.md U17). Raised by `step` on a presented word only, never on a clock edge or a host event. Safe. -/
  | undecodable (e : DecodeError)
  /-- A descriptor "cannot be expressed" (92_eei_decisions.md D25): Division with more than 255 windows. Raised by
  Division, `encode_cmd`, ENQUEUE, SEND and `exec`. Safe. -/
  | notExpressible
  /-- LITERAL of a reserved byte: "any byte other than 0xA5, 0xAA, 0xAE" (opcode table). Raised by LITERAL. Safe. -/
  | notALiteral
  /-- `make_frame` "requires len(payload) <= 65535" (41_framing.md rule R137), and the same "holds whenever" `load_packet`
  is performed (10_state.md rule R21). Raised by `make_frame` and `load_packet`. Safe. -/
  | outsideDomain
  /-- A sequencer step presented in another position than its own: another phase, or in a body phase another `esc`. "A sequencer
  step is the pair (offer, answer)" (43_sequencer.md rule R170), and the sequencer makes no such offer there. Raised by the STEP
  rows; the clock presents none. Safe. -/
  | stepNotEnabled
  /-- `load_packet` while a packet is in flight: "At the start of every packet, and at no other time" (43_sequencer.md rule
  R172). Raised by `load_packet`. Safe. -/
  | packetInFlight
  deriving DecidableEq, Repr

/-- `(IDLE, 0, 0)`. -/
abbrev Pc.idle : Pc := ⟨.idle, 0, false⟩

/-- The machine after power-on, which "is the same as reset" (70_reset_and_hazards.md rule R240): the values of
10_state.md rule R32, `PBUF` with nothing listed, both logs empty (rule R30), and nothing issued or placed. -/
def State.reset : State where
  xUnit := 0x00
  xConf := 0x00
  xLenLo := 0x00
  xLenHi := 0x00
  xPidx := 0x00
  xPtot := 0x00
  acc := 0x0000
  pc := Pc.idle
  queueEnabled := false
  errCode := 0
  errInfo := 0x00
  plen := 0
  pbuf := []
  pending := []
  batch := []
  bpos := 0
  fUnit := 0x00
  fConf := false
  wire := []
  resp := []
  port := []
  inputs := []
  draws := 0
  result := none

end Sys2Proof.Machine
end

