-- ==== Sys2Proof/Machine/Ops.lean ====
section
/-! DEFINITION. The named operations over registers, memory, logs and results: header registers, `PBUF`,
`load_packet`, `emit`, completion with a result, `raise`, the abort on a sink failure, and reset. -/

namespace Sys2Proof.Machine

/-- The outcome of an instruction. -/
abbrev Step := Host.Outcome State Fault Refusal

/-- Go on with `f` from a next state; a fault or a refusal stays. -/
def andThen (r : Step) (f : State → Step) : Step :=
  match r with
  | .next s => f s
  | .fault e => .fault e
  | .refused e => .refused e

/-! ## Header registers -/

/-- `x[i]`: registers 0, 1, 3 are hardwired; there is no register above 8 (10_state.md rule R20). -/
def State.readX (s : State) (i : Nat) : Option Byte :=
  match i with
  | 0 => some 0x68
  | 1 => some 0x32
  | 2 => some s.xUnit
  | 3 => some 0x7B
  | 4 => some s.xConf
  | 5 => some s.xLenLo
  | 6 => some s.xLenHi
  | 7 => some s.xPidx
  | 8 => some s.xPtot
  | _ => none

/-- `x[i] <- v`; "writes to the hardwired registers 0, 1, 3 are ignored" (00_scope.md rule R9). -/
def State.writeX (s : State) (i : Nat) (v : Byte) : State :=
  match i with
  | 2 => { s with xUnit := v }
  | 4 => { s with xConf := v }
  | 5 => { s with xLenLo := v }
  | 6 => { s with xLenHi := v }
  | 7 => { s with xPidx := v }
  | 8 => { s with xPtot := v }
  | _ => s

/-! ## The payload buffer -/

/-- `MAXPAY` (00_scope.md rule R6): addresses are 0 to `MAXPAY - 1`. -/
def maxPay : Nat := 65535

/-- The cells of `v` at addresses `a`, `a + 1`, …. -/
def Memory.cellsFrom (a : Nat) : Bytes → Memory
  | [] => []
  | b :: bs => (a, b) :: Memory.cellsFrom (a + 1) bs

/-- `MemWrite(a, len v, v)`: the block is written, "the rest of `PBUF` as it was" (20_memory.md rule R45). -/
def Memory.writeBlock (m : Memory) (a : Nat) (v : Bytes) : Memory :=
  m.filter (fun c => decide (c.1 < a)) ++ Memory.cellsFrom a v ++ m.filter (fun c => decide (a + v.length ≤ c.1))

/-- The byte listed at an address, if one is. -/
def Memory.read : Memory → Nat → Option Byte
  | [], _ => none
  | c :: m, a => if c.1 = a then some c.2 else Memory.read m a

/-- Addresses rise strictly from one cell to the next. -/
def Memory.rising : Memory → Bool
  | [] => true
  | [_] => true
  | c :: d :: m => decide (c.1 < d.1) && Memory.rising (d :: m)

/-- The canonical form: addresses of `PBUF`, strictly rising. No cell can hold what an unlisted address reads as, since
that is no value. -/
def Memory.wf (m : Memory) : Bool := m.all (fun c => decide (c.1 < maxPay)) && Memory.rising m

/-- `MemRead(a, 1)` (20_memory.md rule R44), for `a < plen` only. -/
def State.memRead (s : State) (a : Nat) : Option Byte :=
  if a < s.plen.toNat then s.pbuf.read a else none

/-- The payload held in `PBUF`, as far as it has been written. -/
def State.payload (s : State) : Bytes := (List.range s.plen.toNat).filterMap s.memRead

/-! ## Loading a packet -/

/-- The state after `load_packet` (10_state.md rule R21). -/
def State.withPacket (unit : Byte) (conf : Bool) (payload : Bytes) (index total : Byte) (s : State) : State :=
  let len := BitVec.ofNat 16 payload.length
  let x := (((((s.writeX 2 unit).writeX 4 (confByte conf)).writeX 5 (lowByte len)).writeX 6 (highByte len)).writeX 7
    index).writeX 8 total
  { x with plen := BitVec.ofNat 17 payload.length, pbuf := s.pbuf.writeBlock 0 payload }

/-- `load_packet` (rule R21). A payload that does not fit `PBUF` does not occur (60_exceptions.md rule R206) and faults. -/
def loadPacket (unit : Byte) (conf : Bool) (payload : Bytes) (index total : Byte) (s : State) : Step :=
  if payload.length ≤ maxPay then .next (s.withPacket unit conf payload index total) else .fault .pbufWrite

/-! ## Logs, registers and positions -/

/-- `emit(b)` (00_scope.md rule R9). -/
def State.emit (s : State) (b : Byte) : State := { s with wire := s.wire ++ [b] }

/-- `pc <- target`. -/
def State.setPc (s : State) (p : Pc) : State := { s with pc := p }

/-- `acc <- v`. -/
def State.setAcc (s : State) (v : Half) : State := { s with acc := v }

/-- `acc <- (acc + b) mod 65536` (10_state.md rule R22). -/
def State.addToAcc (s : State) (b : Byte) : State := s.setAcc (s.acc + b.setWidth 16)

/-- Record what a function-level evaluation gave. -/
def State.deliver (s : State) (r : Result FnValue) : State := { s with result := some r }

/-- `pending <- pending ++ [p]`. -/
def State.pushPending (s : State) (p : Bytes) : State := { s with pending := s.pending ++ [p] }

/-! ## Completion and errors -/

/-- The numeric codes of 60_exceptions.md rule R200. -/
def ErrKind.code : ErrKind → BitVec 4
  | .invalidWindow => 1
  | .invalidUnitId => 2
  | .invalidColor => 3
  | .invalidFontSize => 4
  | .encodingError => 5
  | .payloadTooLarge => 6
  | .queueMisuse => 7
  | .transport => 8
  | .queueOverflow => 9

/-- `ERR.CODE` of a result; 0 is no error. -/
def Response.code : Response → BitVec 4
  | .ok => 0
  | .err e => e.kind.code

/-- `ERR.INFO` of a result: the sink's byte for `TransportError`, else 0 (10_state.md rule R25). -/
def Response.infoByte : Response → Byte
  | .ok => 0
  | .err e =>
    match e.kind, e.info with
    | .transport, some n => BitVec.ofNat 8 n
    | _, _ => 0

/-- An operation completes: its result is appended to `RESP` and written to `ERR` (42_queue_ops.md rule R150). -/
def State.complete (s : State) (r : Response) : State :=
  { s with resp := s.resp ++ [r], errCode := r.code, errInfo := r.infoByte }

/-- `raise <Kind>(info)` for every kind but `TransportError`: the operation completes with the error and "Nothing else
changes" (60_exceptions.md rule R210). -/
def raise (e : ErrInfo) (s : State) : Step := .next (s.complete (.err e))

/-- `finish(result)` (43_sequencer.md rule R180). -/
def State.finish (s : State) (r : Response) : State :=
  ({ s with batch := [], bpos := 0, pc := Pc.idle } : State).complete r

/-- The error a sink failure raises, with the sink's byte (60_exceptions.md rule R208). -/
def transportError (e : Byte) : ErrInfo := ⟨.transport, some e.toNat⟩

/-- The abort on the sink's answer `fail(e)` (43_sequencer.md rule R181); `finish` clears `esc` with the position. -/
def State.abort (s : State) (e : Byte) : State := s.finish (.err (transportError e))

/-! ## Starting an operation, and reset -/

/-- `len(batch) - 1`, exact for a group of 1 to 256 packets (41_framing.md rule R138). -/
def totalLessOne (ps : List Bytes) : Byte := BitVec.ofNat 8 (ps.length - 1)

/-- A direct SEND or a FLUSH begins: the batch and its operands are taken, its first packet is loaded and the sequencer
stands at the start delimiter (42_queue_ops.md rules R151, R154). -/
def startOperation (first : Bytes) (rest : List Bytes) (unit : Byte) (conf : Bool) (s : State) : Step :=
  let ps := first :: rest
  andThen (loadPacket unit conf first 0 (totalLessOne ps)
      { s with batch := ps, bpos := 0, fUnit := unit, fConf := conf })
    (fun t => .next (t.setPc ⟨.sof, 0, false⟩))

/-- A rising edge with `rst = 1` (70_reset_and_hazards.md rule R240): the values of 10_state.md rule R32; `PBUF` keeps what
it held, the logs are not touched, an operation issued or accepted is forgotten. What the outside has placed, and what the
model records, stay. -/
def State.resetEdge (s : State) : State :=
  { State.reset with
    pbuf := s.pbuf, wire := s.wire, resp := s.resp, inputs := s.inputs, draws := s.draws, result := s.result }

end Sys2Proof.Machine
end

