-- ==== Sys2Proof/Machine/Operands.lean ====
section
/-! DEFINITION. The operand forms of the command encoder: text operands, formatted text, the length check and the colour
helper (40_commands.md rules R107, R109, R113, R114), with their errors. -/

namespace Sys2Proof.Machine

/-- Go on with the value of a result. -/
def Result.bind {α β : Type} (r : Result α) (f : α → Result β) : Result β :=
  match r with
  | .ok a => f a
  | .err e => .err e

/-- An error with the value recorded. -/
def errWith (k : ErrKind) (n : Nat) : ErrInfo := ⟨k, some n⟩

/-- `ascii_bytes(text)`: the first code above 127 is reported (rule R107). -/
def asciiBytes : List Nat → Result Bytes
  | [] => .ok []
  | c :: t =>
    if 127 < c then .err (errWith .encodingError c)
    else (asciiBytes t).bind fun bs => .ok (BitVec.ofNat 8 c :: bs)

/-- `check_len(p)`: 65535 passes, 65536 is refused (rule R113). -/
def checkLen (p : Bytes) : Result Bytes :=
  if 65535 < p.length then .err (errWith .payloadTooLarge p.length) else .ok p

/-- The window check (60_exceptions.md rule R201), before what `k` builds. -/
def checkWindow {α : Type} (w : Byte) (k : Result α) : Result α :=
  if 7 < w.toNat then .err (errWith .invalidWindow w.toNat) else k

/-- The cells of formatted text: one per character (30_encoding.md rule R72). -/
def cells (colourSize : Byte) (t : Bytes) : Bytes := t.flatMap (layoutCell colourSize)

/-- `format_text(text, color, size)`: colour, then size, then encoding are checked (rule R109). -/
def formatText (text : List Nat) (color size : Byte) : Result Bytes :=
  if color.toNat < 1 ∨ 7 < color.toNat then .err (errWith .invalidColor color.toNat)
  else if 15 < size.toNat then .err (errWith .invalidFontSize size.toNat)
  else (asciiBytes text).bind fun t => .ok (cells (colourSizeByte color size) t)

/-- A component of a colour is `RGB_ON` when its bit is set (rule R114). -/
def component (on : Bool) : Byte := if on then Config.rgbOn else 0x00

/-- `rgb_of_color(c)` (rule R114): bit 0 is red, bit 1 green, bit 2 blue. -/
def rgbOfColor (c : Byte) : Result FnValue :=
  if c.toNat < 1 ∨ 7 < c.toNat then .err (errWith .invalidColor c.toNat)
  else .ok (.rgb (component (c.getLsbD 0)) (component (c.getLsbD 1)) (component (c.getLsbD 2)))

/-- A result of bytes as a function value. -/
def Result.asBytes : Result Bytes → Result FnValue
  | .ok b => .ok (.bytes b)
  | .err e => .err e

end Sys2Proof.Machine
end

