-- ==== Sys2Proof/Machine/Encoder.lean ====
section
/-! DEFINITION. The command encoder (40_commands.md): `encode_cmd` and one encoder per command; every encoder checks all
fields first, in the order of 60_exceptions.md rule R212, and the length of the payload last. -/

namespace Sys2Proof.Machine

/-- Rule R101: nothing is checked but the length. -/
def encodeDivision (ws : List Window) : Result Bytes := checkLen (layoutDivision ws)

/-- Rule R102. -/
def encodeScrolling (a : ScrollingArgs) : Result Bytes := checkWindow a.window (checkLen (layoutScrolling a))

/-- Rule R103: the window is checked and not encoded. -/
def encodeImage (a : ImageArgs) : Result Bytes := checkWindow a.window (checkLen (layoutImage a))

/-- Rule R104: window, character codes, length. -/
def encodeStatic (a : StaticArgs) : Result Bytes :=
  checkWindow a.window ((asciiBytes a.text).bind fun t => checkLen (layoutStatic a t))

/-- Rule R105: window, font size, character codes, length. -/
def encodeClock (a : ClockArgs) : Result Bytes :=
  checkWindow a.window
    (if 7 < a.fontSize.toNat then .err (errWith .invalidFontSize a.fontSize.toNat)
     else (asciiBytes a.text).bind fun t => checkLen (layoutClock a t))

/-- Rule R106. -/
def encodeExit : Result Bytes := .ok layoutExit

/-- Rule R108. -/
def encodePersistence (m : SaveMode) : Result Bytes := .ok (layoutPersistence m)

/-- Rule R110. -/
def encodeRaw (bs : Bytes) : Result Bytes := checkLen bs

/-- `encode_cmd(cmd)`, rule R100. -/
def encodeCmd : Command → Result Bytes
  | .division ws => encodeDivision ws
  | .scrollingText a => encodeScrolling a
  | .image a => encodeImage a
  | .staticText a => encodeStatic a
  | .clock a => encodeClock a
  | .exit => encodeExit
  | .persistence m => encodePersistence m
  | .raw bs => encodeRaw bs

end Sys2Proof.Machine
end

