-- ==== Sys2Proof/Machine/Commands.lean ====
section
/-! DEFINITION. The meanings of the payload rows: each gives the payload its command encodes to, or the encoder's error
(40_commands.md). `encode_cmd` "reads no state and writes none" (rule R100), so the model records the result and changes
nothing else. -/

namespace Sys2Proof.Machine

/-- An encoder's result is recorded. -/
def delivers (r : Result Bytes) (s : State) : Step := .next (s.deliver r.asBytes)

/-- Division (rule R101); more than 255 windows cannot be expressed. -/
def execDivision (ws : List Window) (s : State) : Step :=
  if ws.length ≤ 255 then delivers (encodeDivision ws) s else .refused .notExpressible

/-- ScrollingText (rule R102). -/
def execScrollingText (a : ScrollingArgs) (s : State) : Step := delivers (encodeScrolling a) s

/-- Image (rule R103). -/
def execImage (a : ImageArgs) (s : State) : Step := delivers (encodeImage a) s

/-- StaticText (rule R104). -/
def execStaticText (a : StaticArgs) (s : State) : Step := delivers (encodeStatic a) s

/-- Clock (rule R105). -/
def execClock (a : ClockArgs) (s : State) : Step := delivers (encodeClock a) s

/-- Exit (rule R106). -/
def execExit (s : State) : Step := delivers encodeExit s

/-- Save (rule R108). -/
def execSave (s : State) : Step := delivers (encodePersistence .save) s

/-- Reset, the display command (rule R108). -/
def execReset (s : State) : Step := delivers (encodePersistence .reset) s

/-- RAW (rule R110). -/
def execRaw (bs : Bytes) (s : State) : Step := delivers (encodeRaw bs) s

/-- A payload with opcode 8 "can be sent only through `RAW`", unchanged (30_encoding.md rule R78). -/
def execReserved8 (tail : Bytes) (s : State) : Step := delivers (encodeRaw (0x08 :: tail)) s

/-- Opcode 9, as opcode 8. -/
def execReserved9 (tail : Bytes) (s : State) : Step := delivers (encodeRaw (0x09 :: tail)) s

/-- Opcode 10, as opcode 8. -/
def execReserved10 (tail : Bytes) (s : State) : Step := delivers (encodeRaw (0x0A :: tail)) s

/-- Opcode 11, as opcode 8. -/
def execReserved11 (tail : Bytes) (s : State) : Step := delivers (encodeRaw (0x0B :: tail)) s

/-- FT_CELL: the cell of one character, by `format_text` (rule R109); colour 0 is refused there. -/
def execFtCell (color : BitVec 3) (size : BitVec 4) (char : BitVec 7) (s : State) : Step :=
  delivers (formatText [char.toNat] (color.setWidth 8) (size.setWidth 8)) s

end Sys2Proof.Machine
end

