-- ==== Sys2Proof/Machine/Framing.lean ====
section
/-! DEFINITION. The packet codec (41_framing.md): pure functions from operands to the bytes of a frame. -/

namespace Sys2Proof.Machine

/-- Rule R131: nine bytes. -/
def buildHeader (unit : Byte) (conf : Bool) (len : Half) (index total : Byte) : Bytes :=
  layoutHeader unit conf (lowByte len) (highByte len) index total

/-- Rule R132: the sum of the unescaped bytes, modulo 65536. -/
def checksum (bs : Bytes) : Half := bs.foldl (fun s b => s + b.setWidth 16) 0

/-- Rule R133. -/
def checksumBytes (bs : Bytes) : Bytes := le16 (checksum bs)

/-- The wire bytes of one body byte (30_encoding.md rule R61). -/
def escapeByte (b : Byte) : Bytes :=
  if b = 0xAA#8 then [0xAA#8, 0x0A#8]
  else if b = 0xAE#8 then [0xAA#8, 0x0E#8]
  else if b = 0xA5#8 then [0xAA#8, 0x05#8]
  else [b]

/-- Rule R134: once per input byte, left to right. -/
def escape : Bytes → Bytes
  | [] => []
  | b :: bs => escapeByte b ++ escape bs

/-- Rule R136. -/
def frame (body : Bytes) : Bytes := [0xA5#8] ++ escape body ++ [0xAE#8]

/-- Rule R137, for a payload of at most 65535 bytes. Above, the rule gives no value and the length is taken modulo 65536: its own row
is refused there (log entry 10), and only the `exec` row can reach it (log entry 23). -/
def makeFrame (unit : Byte) (conf : Bool) (payload : Bytes) (index total : Byte) : Bytes :=
  let h := buildHeader unit conf (BitVec.ofNat 16 payload.length) index total
  let ck := checksum (h ++ payload)
  frame (h ++ payload ++ le16 ck)

/-- The second bytes of an escape pair. -/
def pairSecond (b : Byte) : Bool := b == 0x05#8 || b == 0x0A#8 || b == 0x0E#8

/-- Rule R140: `none` where the rule says *undefined*, on what is no output of `escape` (93_implementation_defined.md U9:
"or returns an option"). -/
def unescape : Bytes → Option Bytes
  | [] => some []
  | [b] => if reserved b then none else some [b]
  | b :: c :: rest =>
    if b = 0xAA#8 ∧ pairSecond c = true then (unescape rest).map ((0xA0#8 ||| c) :: ·)
    else if reserved b then none
    else (unescape (c :: rest)).map (b :: ·)

end Sys2Proof.Machine
end

