-- ==== Sys2Proof/Machine/Flags.lean ====
section
/-! DEFINITION. The four flags and the five status registers, all views of other state (10_state.md rules R24, R25), and
the signals of the transmit port that are views (43_sequencer.md rule R183 gives `tx_data` in Sequencer.lean). -/

namespace Sys2Proof.Machine

/-- `BUSY`: `phase != IDLE`. -/
def State.busy (s : State) : Bool := decide (s.pc.phase ≠ .idle)

/-- `QEN`. -/
def State.qen (s : State) : Bool := s.queueEnabled

/-- `ESC`. -/
def State.escFlag (s : State) : Bool := s.pc.esc

/-- `ERRV`: `ERR.CODE != 0`. -/
def State.errv (s : State) : Bool := decide (s.errCode ≠ 0)

/-- Register 0, `STATUS`: `BUSY` 0, `QEN` 1, `ESC` 2, `PHASE` 5:3; fields not listed read 0. -/
def State.statusReg (s : State) : Half :=
  BitVec.ofNat 16 (s.busy.toNat + 2 * s.qen.toNat + 4 * s.escFlag.toNat + 8 * (phaseCode s.pc.phase).toNat)

/-- Register 1, `ERR`: `CODE` 3:0, `INFO` 15:8. -/
def State.errReg (s : State) : Half := BitVec.ofNat 16 (s.errCode.toNat + 256 * s.errInfo.toNat)

/-- Register 2, `QCOUNT`: `N` 8:0. -/
def State.qcountReg (s : State) : Half := BitVec.ofNat 16 (s.pending.length % 512)

/-- Register 3, `BPOS`: `I` 8:0. -/
def State.bposReg (s : State) : Half := s.bpos.setWidth 16

/-- Register 4, `BCOUNT`: `N` 8:0. -/
def State.bcountReg (s : State) : Half := BitVec.ofNat 16 (s.batch.length % 512)

/-- A read of a status register by its number; it "has no side effect" (20_memory.md rule R52). There are five. -/
def State.readStatus (s : State) (n : Nat) : Option Half :=
  match n with
  | 0 => some s.statusReg
  | 1 => some s.errReg
  | 2 => some s.qcountReg
  | 3 => some s.bposReg
  | 4 => some s.bcountReg
  | _ => none

/-- `tx_valid`: `phase != IDLE` (43_sequencer.md rule R183). -/
def State.txValid (s : State) : Bool := s.busy

/-- `tx_last`: `phase = END`. -/
def State.txLast (s : State) : Bool := decide (s.pc.phase = .fin)

/-- The sink's answer at an edge with `tx_valid = 1`: `tx_err` wins over `tx_ready` (rule R183). -/
def answerOfPins (p : Pins) : Answer :=
  if p.txErr then .fail p.txErrinfo else if p.txReady then .accept else .stall

/-- Pins that carry an answer, `rst` low. -/
def pinsOfAnswer : Answer → Pins
  | .accept => ⟨false, true, false, 0x00⟩
  | .stall => ⟨false, false, false, 0x00⟩
  | .fail e => ⟨false, false, true, e⟩

end Sys2Proof.Machine
end

