-- ==== Sys2Proof/Machine/HostOps.lean ====
section
/-! DEFINITION. The host operations (42_queue_ops.md): what happens at the moment an operation is accepted, and the wait of
those that need the sequencer. -/

namespace Sys2Proof.Machine

/-- Encode the command of an operation; an encoder's error completes the operation and nothing else happens. -/
def withPayload (cmd : Command) (s : State) (k : Bytes → Step) : Step :=
  if cmd.expressible then
    match encodeCmd cmd with
    | .ok p => k p
    | .err e => raise e s
  else .refused .notExpressible

/-- Append a payload to a queue of the given depth (60_exceptions.md rule R209). DESIGN CHOICE (log entry 23): a queue longer than
its depth, which no run reaches (10_state.md rule R33 e), overflows too. -/
def appendPending (depth : Nat) (p : Bytes) (s : State) : Step :=
  if depth ≤ s.pending.length then raise ⟨.queueOverflow, none⟩ s
  else .next ((s.pushPending p).complete .ok)

/-- An operation that needs the sequencer while it is busy waits, first at the port, "unaccepted and without effect" (rule
R157). -/
def waits (op : HostOp) (s : State) : Step := .next { s with port := op :: s.port }

/-- BEGIN_QUEUE (rule R152), in any phase. -/
def execBeginQueue (s : State) : Step :=
  .next (({ s with queueEnabled := true, pending := [] } : State).complete .ok)

/-- ENQUEUE (rule R153), in any phase: encoder's errors, then misuse, then overflow. -/
def execEnqueue (cmd : Command) (s : State) : Step :=
  withPayload cmd s fun p =>
    if s.queueEnabled then appendPending Config.qdepth p s else raise ⟨.queueMisuse, none⟩ s

/-- FLUSH accepted (rule R154). -/
def acceptFlush (unit : Byte) (conf : Bool) (s : State) : Step :=
  if s.queueEnabled then
    match s.pending with
    | [] => .next (s.complete .ok)
    | p :: rest => startOperation p rest unit conf { s with pending := [] }
  else raise ⟨.queueMisuse, none⟩ s

/-- FLUSH (rules R154, R157). -/
def execFlush (unit : Byte) (conf : Bool) (s : State) : Step :=
  if s.busy then waits (.flush unit conf) s else acceptFlush unit conf s

/-- SEND: in queue mode it is enqueued and its unit and confirmation are dropped (rule R156); in direct-send mode it waits
for the sequencer (rule R157) and starts a frame of its own (rule R151). -/
def execSend (unit : Byte) (conf : Bool) (cmd : Command) (s : State) : Step :=
  if s.queueEnabled then withPayload cmd s fun p => appendPending Config.qdepth p s
  else if s.busy then waits (.send unit conf cmd) s
  else withPayload cmd s fun p => startOperation p [] unit conf s

/-- The instruction of a host operation. -/
def toInstr : HostOp → Instr
  | .beginQueue => .beginQueue
  | .enqueue cmd => .enqueue cmd
  | .flush unit conf => .flush unit conf
  | .send unit conf cmd => .send unit conf cmd

/-- The host operation an instruction is, if it is one. -/
def hostOpOf : Instr → Option HostOp
  | .beginQueue => some .beginQueue
  | .enqueue cmd => some (.enqueue cmd)
  | .flush unit conf => some (.flush unit conf)
  | .send unit conf cmd => some (.send unit conf cmd)
  | _ => none

end Sys2Proof.Machine
end

