-- ==== Sys2Proof/Machine/Functions.lean ====
section
/-! DEFINITION. The meanings of the function rows and of the body-field rows. They are pure: the result is recorded and
nothing else changes (40_commands.md rule R100, 41_framing.md rule R130). `load_packet` is the one micro-operation among
them (10_state.md rule R21). -/

namespace Sys2Proof.Machine

/-- A value is recorded. -/
def gives (v : FnValue) (s : State) : Step := .next (s.deliver (.ok v))

/-- HEADER: the nine body bytes (30_encoding.md rule R62), `build_header` of `lenHi:lenLo`. -/
def execHeader (unit : Byte) (conf : Bool) (lenLo lenHi index total : Byte) (s : State) : Step :=
  gives (.bytes (buildHeader unit conf (joinHalf lenHi lenLo) index total)) s

/-- CHECKSUM: the two body bytes of the checksum `hi:lo`, low byte first (30_encoding.md rule R63; 41_framing.md R133). -/
def execChecksumField (lo hi : Byte) (s : State) : Step := gives (.bytes (le16 (joinHalf hi lo))) s

/-- `encode_cmd` (40_commands.md rule R100). -/
def execEncodeCmd (cmd : Command) (s : State) : Step :=
  if cmd.expressible then delivers (encodeCmd cmd) s else .refused .notExpressible

/-- `format_text` (rule R109). -/
def execFormatText (text : List Nat) (color size : Byte) (s : State) : Step :=
  delivers (formatText text color size) s

/-- `ascii_bytes` (rule R107). -/
def execAsciiBytes (text : List Nat) (s : State) : Step := delivers (asciiBytes text) s

/-- `check_len` (rule R113). -/
def execCheckLen (bs : Bytes) (s : State) : Step := delivers (checkLen bs) s

/-- `rgb_of_color` (rule R114). -/
def execRgbOfColor (c : Byte) (s : State) : Step := .next (s.deliver (rgbOfColor c))

/-- `build_header` (41_framing.md rule R131). -/
def execBuildHeader (unit : Byte) (conf : Bool) (len : Half) (index total : Byte) (s : State) : Step :=
  gives (.bytes (buildHeader unit conf len index total)) s

/-- `checksum` (rule R132). -/
def execChecksum (bs : Bytes) (s : State) : Step := gives (.number (checksum bs)) s

/-- `checksum_bytes` (rule R133). -/
def execChecksumBytes (bs : Bytes) (s : State) : Step := gives (.bytes (checksumBytes bs)) s

/-- `escape` (rule R134). -/
def execEscape (bs : Bytes) (s : State) : Step := gives (.bytes (escape bs)) s

/-- `frame` (rule R136). -/
def execFrame (body : Bytes) (s : State) : Step := gives (.bytes (frame body)) s

/-- `make_frame` (rule R137), on its domain. -/
def execMakeFrame (unit : Byte) (conf : Bool) (payload : Bytes) (index total : Byte) (s : State) : Step :=
  if payload.length ≤ maxPay then gives (.bytes (makeFrame unit conf payload index total)) s
  else .refused .outsideDomain

/-- `unescape` (rule R140); off the outputs of `escape` the value is undefined, and a FREE VALUE here. -/
def execUnescape (bs : Bytes) (s : State) : Step :=
  gives (.bytes ((unescape bs).getD (Config.unescapeOutside bs))) s

/-- `load_packet` (10_state.md rule R21), "At the start of every packet, and at no other time" (43_sequencer.md rule R172): not
while a packet is in flight. A payload of more than 65535 bytes is outside its domain (60_exceptions.md rule R206). -/
def execLoadPacket (unit : Byte) (conf : Bool) (payload : Bytes) (index total : Byte) (s : State) : Step :=
  if s.busy then .refused .packetInFlight
  else if payload.length ≤ maxPay then loadPacket unit conf payload index total s
  else .refused .outsideDomain

/-! ## The function-level summary -/

/-- The frames of a group: frame `i` has index `i` and total `count - 1` (42_queue_ops.md rule R154). -/
def framesFrom (unit : Byte) (conf : Bool) (total : Byte) : Nat → List Bytes → List Bytes
  | _, [] => []
  | i, p :: rest => makeFrame unit conf p (BitVec.ofNat 8 i) total :: framesFrom unit conf total (i + 1) rest

/-- The frames of the group of payloads `ps`. DESIGN CHOICE (log entry 23): a queue holds at most 256 payloads of at most 65535 bytes
(10_state.md rule R27), but the `exec` row takes any list; there index and total are taken modulo 256 and the length bytes modulo
65536, where 41_framing.md rule R137 gives no value. -/
def groupFrames (unit : Byte) (conf : Bool) (ps : List Bytes) : List Bytes :=
  framesFrom unit conf (totalLessOne ps) 0 ps

/-- The result and the frames offered, when `sink` names the first frame answered with an error: the frames up to and with
that one, else all of them (rule R159). -/
def offered (sink : Option (Nat × Byte)) (fs : List Bytes) : Response × List Bytes :=
  match sink with
  | some (k, e) => if k < fs.length then (.err (transportError e), fs.take (k + 1)) else (.ok, fs)
  | none => (.ok, fs)

/-- The queue state after an operation that enqueues the payload `p`, on a queue of the given depth. DESIGN CHOICE (log entry 23): an
operand queue longer than QDEPTH, which no block holds (10_state.md rule R27) and rule R159 does not answer (`len(P) = QDEPTH`),
overflows too. -/
def summaryAppend (depth : Nat) (q : Bool) (P : List Bytes) (p : Bytes) : FnValue :=
  if depth ≤ P.length then .summary q P (.err ⟨.queueOverflow, none⟩) []
  else .summary q (P ++ [p]) .ok []

/-- `exec(op, (q, P))` (rule R159), for a queue of the given depth. -/
def summary (depth : Nat) (op : HostOp) (q : Bool) (P : List Bytes) (sink : Option (Nat × Byte)) : FnValue :=
  match op with
  | .beginQueue => .summary true [] .ok []
  | .enqueue cmd =>
    match encodeCmd cmd with
    | .err e => .summary q P (.err e) []
    | .ok p => if q then summaryAppend depth q P p else .summary q P (.err ⟨.queueMisuse, none⟩) []
  | .send unit conf cmd =>
    match encodeCmd cmd with
    | .err e => .summary q P (.err e) []
    | .ok p =>
      if q then summaryAppend depth q P p
      else
        let o := offered sink [makeFrame unit conf p 0 0]
        .summary q P o.1 o.2
  | .flush unit conf =>
    if q then
      let o := offered sink (groupFrames unit conf P)
      .summary q [] o.1 o.2
    else .summary q P (.err ⟨.queueMisuse, none⟩) []

/-- `exec` (rule R159). -/
def execExecSummary (op : HostOp) (q : Bool) (P : List Bytes) (sink : Option (Nat × Byte)) (s : State) : Step :=
  if op.expressible then gives (summary Config.qdepth op q P sink) s else .refused .notExpressible

end Sys2Proof.Machine
end

