-- ==== Sys2Proof/Machine/Sequencer.lean ====
section
/-! DEFINITION. The byte-serial sequencer (43_sequencer.md): the current body byte and the offered wire byte, the steps on
`accept`, and the meanings of the STEP rows on every answer. -/

namespace Sys2Proof.Machine

/-- `cur(S)`: the unescaped body byte at the position, where there is one (rule R171). -/
def State.cur (s : State) : Option Byte :=
  match s.pc.phase with
  | .hdr => s.readX s.pc.idx.toNat
  | .pay => s.memRead s.pc.idx.toNat
  | .ckl => some (lowByte s.acc)
  | .ckh => some (highByte s.acc)
  | .idle | .sof | .fin => none

/-- The wire byte offered for a body byte: the prefix byte or the second byte of a pair, or the byte itself. -/
def offerOf (esc : Bool) (b : Byte) : Byte :=
  if esc then b &&& 0x0F else if reserved b then 0xAA else b

/-- `offer(S)`, a function of the state alone (rule R171); `IDLE` offers nothing. -/
def State.offer (s : State) : Option Byte :=
  match s.pc.phase with
  | .sof => some 0xA5
  | .fin => some 0xAE
  | .hdr | .pay | .ckl | .ckh => s.cur.map (offerOf s.pc.esc)
  | .idle => none

/-- `tx_data` (rule R183). -/
def State.txData (s : State) : Option Byte := s.offer

/-- `next(pc)` (rule R179), defined on the body positions that exist. -/
def nextPos (plen : Nat) (p : Pc) : Option Pc :=
  match p.phase with
  | .hdr =>
    if p.idx.toNat < 8 then some ⟨.hdr, p.idx + 1, false⟩
    else if p.idx.toNat = 8 then
      if plen = 0 then some ⟨.ckl, 0, false⟩ else some ⟨.pay, 0, false⟩
    else none
  | .pay =>
    if p.idx.toNat + 1 < plen then some ⟨.pay, p.idx + 1, false⟩
    else if p.idx.toNat + 1 = plen then some ⟨.ckl, 0, false⟩
    else none
  | .ckl => some ⟨.ckh, 0, false⟩
  | .ckh => some ⟨.fin, 0, false⟩
  | .idle | .sof | .fin => none

/-- `pc <- next(pc)`. -/
def advance (s : State) : Step :=
  match nextPos s.plen.toNat s.pc with
  | some p => .next (s.setPc p)
  | none => .fault .position

/-- What a step reads at a position that has no byte: outside `PBUF` in `PAY`, outside the header elsewhere. -/
def noByte (s : State) : Fault := if s.pc.phase = .pay then .pbufRead else .position

/-! ## The steps on `accept` -/

/-- Rule R173. -/
def acceptSof (s : State) : Step := .next (((s.emit 0xA5).setAcc 0).setPc ⟨.hdr, 0, false⟩)

/-- The byte `b` at the position leaves: bare, or as the first byte of a pair, when `idx` holds (rules R174, R175, R177). -/
def emitBody (b : Byte) (s : State) : Step :=
  if reserved b then .next ((s.emit 0xAA).setPc { s.pc with esc := true })
  else advance (s.emit b)

/-- Rules R174 and R175: a header or payload byte, added to `acc` once. -/
def acceptSummed (s : State) : Step :=
  match s.cur with
  | some b => emitBody b (s.addToAcc b)
  | none => .fault (noByte s)

/-- Rule R177: a checksum byte; `acc` is read and not written. -/
def acceptChecksum (s : State) : Step :=
  match s.cur with
  | some b => emitBody b s
  | none => .fault (noByte s)

/-- Rule R176: the second byte of a pair. -/
def acceptPair (s : State) : Step :=
  match s.cur with
  | some b => advance (s.emit (b &&& 0x0F))
  | none => .fault (noByte s)

/-- Rules R178 and R172: the end delimiter, then the next packet of the group or the end of the operation. -/
def acceptEnd (s : State) : Step :=
  let t := s.emit 0xAE
  if s.bpos.toNat + 1 < s.batch.length then
    match s.batch[s.bpos.toNat + 1]? with
    | some p =>
      andThen (loadPacket s.fUnit s.fConf p (BitVec.ofNat 8 (s.bpos.toNat + 1)) (totalLessOne s.batch)
          { t with bpos := s.bpos + 1 })
        (fun u => .next (u.setPc ⟨.sof, 0, false⟩))
    | none => .fault .batchIndex
  else .next (t.finish .ok)

/-! ## The steps on every answer -/

/-- A sequencer step: the state changes on `accept` as `onAccept` says, not at all on `stall` (rule R182), and aborts on
`fail(e)` with nothing emitted (rule R181). -/
def answered (a : Answer) (onAccept : State → Step) (s : State) : Step :=
  match a with
  | .accept => onAccept s
  | .stall => .next s
  | .fail e => .next (s.abort e)

/-- A step of a body byte is taken in its own position `(phase, esc)` only. -/
def atPosition (p : Phase) (esc : Bool) (s : State) (r : Step) : Step :=
  if s.pc.phase = p ∧ s.pc.esc = esc then r else .refused .stepNotEnabled

/-- A step of a delimiter: rules R173 and R178 name the phase and read no `esc`. -/
def atPhase (p : Phase) (s : State) (r : Step) : Step :=
  if s.pc.phase = p then r else .refused .stepNotEnabled

/-- STEP_SOF (rule R173). -/
def execStepSof (a : Answer) (s : State) : Step := atPhase .sof s (answered a acceptSof s)

/-- STEP_HDR (rule R174). -/
def execStepHdr (a : Answer) (s : State) : Step := atPosition .hdr false s (answered a acceptSummed s)

/-- STEP_PAY (rule R175). -/
def execStepPay (a : Answer) (s : State) : Step := atPosition .pay false s (answered a acceptSummed s)

/-- STEP_ESC2 (rule R176), in the body phase `p`. -/
def execStepEsc2 (p : Phase) (a : Answer) (s : State) : Step := atPosition p true s (answered a acceptPair s)

/-- STEP_CKL (rule R177). -/
def execStepCkl (a : Answer) (s : State) : Step := atPosition .ckl false s (answered a acceptChecksum s)

/-- STEP_CKH (rule R177). -/
def execStepCkh (a : Answer) (s : State) : Step := atPosition .ckh false s (answered a acceptChecksum s)

/-- STEP_END (rule R178). -/
def execStepEnd (a : Answer) (s : State) : Step := atPhase .fin s (answered a acceptEnd s)

/-- The step of the sequencer at its position, on an answer; "When `phase = IDLE` the sequencer has no step" and the
answer is ignored (rules R170, R183). -/
def sequencerStep (a : Answer) (s : State) : Step :=
  match s.pc.phase, s.pc.esc with
  | .idle, _ => .next s
  | .sof, _ => execStepSof a s
  | .hdr, false => execStepHdr a s
  | .pay, false => execStepPay a s
  | .ckl, false => execStepCkl a s
  | .ckh, false => execStepCkh a s
  | .fin, _ => execStepEnd a s
  | p, true => execStepEsc2 p a s

/-- The sequencer on a list of answers, first answer first. -/
def runAnswers : List Answer → State → Step
  | [], s => .next s
  | a :: rest, s => andThen (sequencerStep a s) (runAnswers rest)

end Sys2Proof.Machine
end

