-- ==== Sys2Proof/Machine/Wire.lean ====
section
/-! DEFINITION. The wire symbols: SOF, EOF, the three escape pairs and LITERAL. At the function level a symbol gives its wire
bytes (41_framing.md rules R134, R136). At the machine level, where the sequencer stands at the very byte the symbol
stands for, the sink takes the whole symbol: one accepted step, or two for a pair (43_sequencer.md rules R173 to R178). Where
the sequencer does not offer it, the symbol is "never produced" (30_encoding.md rule R78) and nothing is emitted. -/

namespace Sys2Proof.Machine

/-- A symbol's wire bytes are the result; `taken` is what the sequencer does when it offers the symbol. -/
def wireSymbol (bytes : Bytes) (offered : Bool) (taken : State → Step) (s : State) : Step :=
  let t := s.deliver (.ok (.bytes bytes))
  if offered then taken t else .next t

/-- The sequencer stands before the first wire byte of the body byte `b`. -/
def State.atBody (s : State) (b : Byte) : Bool := decide (s.pc.esc = false ∧ s.cur = some b)

/-- The sink takes the first byte of a pair, then the second. -/
def takePair (s : State) : Step := andThen (sequencerStep .accept s) (sequencerStep .accept)

/-- SOF (rules R136, R173). -/
def execSof (s : State) : Step :=
  wireSymbol [0xA5] (decide (s.pc.phase = .sof)) (sequencerStep .accept) s

/-- EOF (rules R136, R178). -/
def execEof (s : State) : Step :=
  wireSymbol [0xAE] (decide (s.pc.phase = .fin)) (sequencerStep .accept) s

/-- ESC_AA (rule R134). -/
def execEscAA (s : State) : Step := wireSymbol (escapeByte 0xAA) (s.atBody 0xAA) takePair s

/-- ESC_AE (rule R134), the documented form (90_conflicts.md C6). -/
def execEscAE (s : State) : Step := wireSymbol (escapeByte 0xAE) (s.atBody 0xAE) takePair s

/-- ESC_A5 (rule R134). -/
def execEscA5 (s : State) : Step := wireSymbol (escapeByte 0xA5) (s.atBody 0xA5) takePair s

/-- LITERAL (rule R134): a byte that is not reserved stands for itself. -/
def execLiteral (b : Byte) (s : State) : Step :=
  if reserved b then .refused .notALiteral
  else wireSymbol (escapeByte b) (s.atBody b) (sequencerStep .accept) s

end Sys2Proof.Machine
end

