-- ==== Sys2Proof/Machine/Dispatch.lean ====
section
/-! DEFINITION. One arm per row of the opcode table, each one direct call of its meaning. -/

namespace Sys2Proof.Machine

def exec (i : Instr) (s : State) : Host.Outcome State Fault Refusal :=
  match i with
  | .division ws => Sys2Proof.Machine.execDivision ws s
  | .scrollingText a => Sys2Proof.Machine.execScrollingText a s
  | .image a => Sys2Proof.Machine.execImage a s
  | .staticText a => Sys2Proof.Machine.execStaticText a s
  | .clock a => Sys2Proof.Machine.execClock a s
  | .exit => Sys2Proof.Machine.execExit s
  | .save => Sys2Proof.Machine.execSave s
  | .reset => Sys2Proof.Machine.execReset s
  | .raw bs => Sys2Proof.Machine.execRaw bs s
  | .reserved8 t => Sys2Proof.Machine.execReserved8 t s
  | .reserved9 t => Sys2Proof.Machine.execReserved9 t s
  | .reserved10 t => Sys2Proof.Machine.execReserved10 t s
  | .reserved11 t => Sys2Proof.Machine.execReserved11 t s
  | .ftCell c z a => Sys2Proof.Machine.execFtCell c z a s
  | .header u c l h k t => Sys2Proof.Machine.execHeader u c l h k t s
  | .checksumField lo hi => Sys2Proof.Machine.execChecksumField lo hi s
  | .sof => Sys2Proof.Machine.execSof s
  | .eof => Sys2Proof.Machine.execEof s
  | .escAA => Sys2Proof.Machine.execEscAA s
  | .escAE => Sys2Proof.Machine.execEscAE s
  | .escA5 => Sys2Proof.Machine.execEscA5 s
  | .literal b => Sys2Proof.Machine.execLiteral b s
  | .beginQueue => Sys2Proof.Machine.execBeginQueue s
  | .enqueue cmd => Sys2Proof.Machine.execEnqueue cmd s
  | .flush u c => Sys2Proof.Machine.execFlush u c s
  | .send u c cmd => Sys2Proof.Machine.execSend u c cmd s
  | .stepSof a => Sys2Proof.Machine.execStepSof a s
  | .stepHdr a => Sys2Proof.Machine.execStepHdr a s
  | .stepPay a => Sys2Proof.Machine.execStepPay a s
  | .stepEsc2 p a => Sys2Proof.Machine.execStepEsc2 p a s
  | .stepCkl a => Sys2Proof.Machine.execStepCkl a s
  | .stepCkh a => Sys2Proof.Machine.execStepCkh a s
  | .stepEnd a => Sys2Proof.Machine.execStepEnd a s
  | .encodeCmd cmd => Sys2Proof.Machine.execEncodeCmd cmd s
  | .formatText t c z => Sys2Proof.Machine.execFormatText t c z s
  | .asciiBytes t => Sys2Proof.Machine.execAsciiBytes t s
  | .checkLen bs => Sys2Proof.Machine.execCheckLen bs s
  | .rgbOfColor c => Sys2Proof.Machine.execRgbOfColor c s
  | .buildHeader u c l k t => Sys2Proof.Machine.execBuildHeader u c l k t s
  | .checksum bs => Sys2Proof.Machine.execChecksum bs s
  | .checksumBytes bs => Sys2Proof.Machine.execChecksumBytes bs s
  | .escape bs => Sys2Proof.Machine.execEscape bs s
  | .frame bs => Sys2Proof.Machine.execFrame bs s
  | .makeFrame u c p k t => Sys2Proof.Machine.execMakeFrame u c p k t s
  | .unescape bs => Sys2Proof.Machine.execUnescape bs s
  | .loadPacket u c p k t => Sys2Proof.Machine.execLoadPacket u c p k t s
  | .execSummary op q p k => Sys2Proof.Machine.execExecSummary op q p k s

end Sys2Proof.Machine
end

