-- ==== Sys2Proof/Machine/Fetch.lean ====
section
/-! DEFINITION. What the next step is: the next input is taken, and it selects an instruction to run, or changes the block
with no instruction (reset, an issue, a wait), or presents a word that is no instruction. -/

namespace Sys2Proof.Machine

/-- What a step found. -/
inductive Fetched where
  /-- Run this instruction at this state. -/
  | run (i : Instr) (s : State)
  /-- No instruction runs; the state is this. -/
  | quiet (s : State)
  /-- The word presented is no instruction. -/
  | reject (e : DecodeError)
  deriving DecidableEq, Repr

/-- The next input: the first one placed, else a draw (60_exceptions.md rule R225). -/
def State.nextInput (s : State) : Input :=
  match s.inputs with
  | i :: _ => i
  | [] => Config.nextInput s.draws

/-- The state with that input taken. -/
def State.dropInput (s : State) : State :=
  match s.inputs with
  | _ :: rest => { s with inputs := rest }
  | [] => { s with draws := s.draws + 1 }

/-- The sequencer word of the phase `IDLE`. -/
def idleWord : Channel → Bytes → Bool
  | .seqStep _, [code] => decide (code.toNat < 2)
  | _, _ => false

/-- The instruction a word stands for runs. At `IDLE` the word of that phase does nothing: "When `phase = IDLE` the sequencer
has no step" (43_sequencer.md rule R170). Any other word that decodes to nothing is refused: "never produced" (30_encoding.md
rule R78; treatment `refuse`, 93_implementation_defined.md U17). A host operation presented this way is issued behind the operations that wait
at the port, since "operations are accepted in the order issued" (42_queue_ops.md rule R150). -/
def fetchWord (ch : Channel) (bs : Bytes) (s : State) : Fetched :=
  match decode ch bs with
  | .ok i =>
    match hostOpOf i, s.port with
    | some op, _ :: _ => .quiet { s with port := s.port ++ [op] }
    | _, _ => .run i s
  | .error e => if idleWord ch bs && !s.busy then .quiet s else .reject e

/-- The step of the sequencer at its own `(phase, esc)`: none at `IDLE` (43_sequencer.md rule R170); at a delimiter rules R173
and R178 name the phase alone; in a body phase `esc` tells the second byte of a pair (rule R176). -/
def sequencerInstr (a : Answer) (pc : Pc) : Option Instr :=
  match pc.phase, pc.esc with
  | .idle, _ => none
  | .sof, _ => some (.stepSof a)
  | .fin, _ => some (.stepEnd a)
  | .hdr, false => some (.stepHdr a)
  | .pay, false => some (.stepPay a)
  | .ckl, false => some (.stepCkl a)
  | .ckh, false => some (.stepCkh a)
  | p, true => some (.stepEsc2 p a)

/-- A clock edge: reset wins over every other input; at `IDLE` the sink's inputs are ignored; else the step of the sequencer's own
position runs on the sink's answer (43_sequencer.md rules R170, R183). -/
def fetchClock (p : Pins) (s : State) : Fetched :=
  if p.rst then .quiet s.resetEdge
  else
    match sequencerInstr (answerOfPins p) s.pc with
    | some i => .run i s
    | none => .quiet s

/-- The host port: the first operation waiting is presented to the block (42_queue_ops.md rule R150). -/
def fetchHost (s : State) : Fetched :=
  match s.port with
  | op :: rest => .run (toInstr op) { s with port := rest }
  | [] => .quiet s

/-- What the next step is. -/
def fetch (s : State) : Fetched :=
  let t := s.dropInput
  match s.nextInput with
  | .clock p => fetchClock p t
  | .issue op => .quiet { t with port := t.port ++ [op] }
  | .host => fetchHost t
  | .word ch bs => fetchWord ch bs t

/-! ## Placing a word where the next step takes it -/

/-- A packet is in flight: for a sequencer step to run, the sequencer must stand at its position with a packet loaded; a
one-byte payload is taken when none is. -/
def ensurePacket (s : State) : State :=
  if s.busy then s
  else
    match startOperation [0x00] [] 0x00 false s with
    | .next t => t
    | .fault _ => s
    | .refused _ => s

/-- The sequencer stands at the position whose word is `w`. -/
def standAt (w : Nat) (s : State) : State :=
  match phaseOfCode (w / 2 % 8) with
  | some .idle | none => s
  | some p => (ensurePacket s).setPc ⟨p, 0, decide (w % 2 = 1)⟩

/-- The word is the next input. A sequencer step's word is the sequencer's own position, so the sequencer is set there;
a host operation is presented at an empty port. -/
def placeWord (s : State) (nbits w : Nat) : State :=
  match tableWord nbits w with
  | some (.seqStep a, bs) =>
    let t := standAt w s
    { t with inputs := .word (.seqStep a) bs :: t.inputs }
  | some (.hostOp o, bs) => { s with port := [], inputs := .word (.hostOp o) bs :: s.inputs }
  | some (ch, bs) => { s with inputs := .word ch bs :: s.inputs }
  | none => { s with inputs := .word .wire [] :: s.inputs }

end Sys2Proof.Machine
end

