-- ==== Sys2Proof/WellFormed.lean ====
section
/-! DEFINITION. Which instructions the encodings of the spec can carry: the field ranges of spec/opcode_table.json. An
instruction that is not well formed may still be executed where the spec says what happens (a window index above 7 is
answered `InvalidWindow`). -/

namespace Sys2Proof

/-- Every code is an ASCII code (40_commands.md rule R107). -/
def asciiText (t : List Nat) : Bool := t.all (· ≤ 127)

def ScrollingArgs.wellFormed (a : ScrollingArgs) : Bool :=
  decide (a.window.toNat ≤ 7) && decide (a.ft.length ≤ 65525)

def ImageArgs.wellFormed (a : ImageArgs) : Bool :=
  decide (a.window.toNat ≤ 7) && decide (a.img.length ≤ 65525)

def StaticArgs.wellFormed (a : StaticArgs) : Bool :=
  decide (a.window.toNat ≤ 7) && asciiText a.text && decide (a.text.length ≤ 65519)

def ClockArgs.wellFormed (a : ClockArgs) : Bool :=
  decide (a.window.toNat ≤ 7) && decide (a.fontSize.toNat ≤ 7) && asciiText a.text &&
    decide (a.text.length ≤ 65524)

/-- The field ranges of each row. -/
def Instr.wellFormed : Instr → Bool
  | .division ws => decide (ws.length ≤ 255)
  | .scrollingText a => a.wellFormed
  | .image a => a.wellFormed
  | .staticText a => a.wellFormed
  | .clock a => a.wellFormed
  | .exit | .save | .reset => true
  | .raw bs => decide (bs.length ≤ 65535)
  | .reserved8 t | .reserved9 t | .reserved10 t | .reserved11 t => decide (t.length ≤ 65534)
  | .ftCell c _ _ => decide (1 ≤ c.toNat)
  | .header _ _ _ _ _ _ | .checksumField _ _ => true
  | .sof | .eof | .escAA | .escAE | .escA5 => true
  | .literal b => !reserved b
  | .beginQueue | .flush _ _ => true
  | .enqueue c | .send _ _ c => c.expressible
  | .stepSof _ | .stepHdr _ | .stepPay _ | .stepCkl _ | .stepCkh _ | .stepEnd _ => true
  | .stepEsc2 p _ => p.isBody
  | .encodeCmd c => c.expressible
  | .formatText _ _ _ | .asciiBytes _ | .checkLen _ | .rgbOfColor _ => true
  | .buildHeader _ _ _ _ _ | .checksum _ | .checksumBytes _ | .escape _ | .frame _ => true
  | .makeFrame _ _ p _ _ => decide (p.length ≤ 65535)
  | .unescape _ => true
  | .loadPacket _ _ p _ _ => decide (p.length ≤ 65535)
  | .execSummary op _ _ _ => op.expressible

end Sys2Proof
end

