-- ==== Sys2Proof/Safety.lean ====
section
/-! DEFINITION. The terms claims are stated in: the invariant of 10_state.md rule R33, runs of steps, the progress measure of
43_sequencer.md rule R187, and the spec's own spellings of bytes. -/

namespace Sys2Proof.Machine

/-! ## The invariant -/

/-- The payload of the packet being sent, `batch[bpos]`. -/
def State.packet (s : State) : Bytes := s.batch.getD s.bpos.toNat []

/-- While busy, the header registers, `plen` and `PBUF` are those of the packet being sent (rule R33 c). -/
structure State.Loaded (s : State) : Prop where
  inBatch : s.bpos.toNat < s.batch.length
  length : s.plen.toNat = s.packet.length
  lengthBytes : s.xLenHi.toNat * 256 + s.xLenLo.toNat = s.plen.toNat
  index : s.xPidx.toNat = s.bpos.toNat
  total : s.xPtot.toNat + 1 = s.batch.length
  unit : s.xUnit = s.fUnit
  conf : s.xConf = confByte s.fConf
  buffer : ∀ a, a < s.plen.toNat → s.pbuf.read a = s.packet[a]?

/-- `idx` has a value rule R23 gives: a header register number, a payload address, or 0. -/
def State.positionOk (s : State) : Bool :=
  match s.pc.phase with
  | .hdr => decide (s.pc.idx.toNat ≤ 8)
  | .pay => decide (s.pc.idx.toNat < s.plen.toNat)
  | .idle | .sof | .ckl | .ckh | .fin => decide (s.pc.idx = 0)

/-- The invariant: rule R33 (a) holds by construction (`readX`), (h) is a law of the step; the rest is here, with the
position of rule R23, the reserved byte behind `esc` (rule R24), and the canonical form of `PBUF`. -/
structure State.Inv (s : State) : Prop where
  conf : s.xConf = 0x00 ∨ s.xConf = 0x01
  loaded : s.pc.phase ≠ .idle → s.Loaded
  pendingLengths : ∀ p ∈ s.pending, p.length ≤ 65535
  batchLengths : ∀ p ∈ s.batch, p.length ≤ 65535
  pendingDepth : s.pending.length ≤ Config.qdepth
  batchDepth : s.batch.length ≤ Config.qdepth
  idleBatch : s.pc.phase = .idle ↔ s.batch = []
  idleBpos : s.pc.phase = .idle → s.bpos = 0
  position : s.positionOk = true
  pair : s.pc.esc = true → ∃ b, s.cur = some b ∧ reserved b = true
  buffer : s.pbuf.wf = true

/-! ## Runs -/

/-- `n` steps, stopping at the first fault or refusal. -/
def runSteps : Nat → State → Step
  | 0, s => .next s
  | n + 1, s => andThen (step s) (runSteps n)

/-- The clock edges that carry these answers. -/
def clocks (answers : List Answer) : List Input := answers.map fun a => .clock (pinsOfAnswer a)

/-- How many bytes the sink takes. -/
def accepts (answers : List Answer) : Nat := answers.count .accept

/-- The sink fails at none of these answers. -/
def noFailure (answers : List Answer) : Prop := ∀ e, Answer.fail e ∉ answers

/-- The next input is an edge with `rst = 1`. -/
def State.resetNext (s : State) : Bool :=
  match s.nextInput with
  | .clock p => p.rst
  | .issue _ | .host | .word _ _ => false

/-! ## Progress -/

/-- Body positions and delimiters left in the packet, the current one included. -/
def State.positionsLeft (s : State) : Nat :=
  match s.pc.phase with
  | .idle => 0
  | .sof => s.plen.toNat + 13
  | .hdr => s.plen.toNat + 12 - s.pc.idx.toNat
  | .pay => s.plen.toNat + 3 - s.pc.idx.toNat
  | .ckl => 3
  | .ckh => 2
  | .fin => 1

/-- `(packets left, positions left in the packet, 1 - esc)` (rule R187). -/
def State.measure (s : State) : Nat ×ₗ Nat ×ₗ Nat :=
  toLex (s.batch.length - s.bpos.toNat, toLex (s.positionsLeft, 1 - s.pc.esc.toNat))

/-! ## The spec's spellings -/

/-- `v[7:0]` as a number. -/
def lowOf (v : Half) : Byte := BitVec.ofNat 8 (v.toNat % 256)

/-- `v[15:8]` as a number. -/
def highOf (v : Half) : Byte := BitVec.ofNat 8 (v.toNat / 256)

/-- The exact sum of bytes. -/
def sumOf (bs : Bytes) : Nat := (bs.map BitVec.toNat).sum

/-- The state with one function-level result recorded, and nothing else changed. -/
def State.withBytes (s : State) (b : Bytes) : State := { s with result := some (.ok (.bytes b)) }

/-- The state with one function-level error recorded, and nothing else changed. -/
def State.withError (s : State) (k : ErrKind) (n : Nat) : State := { s with result := some (.err ⟨k, some n⟩) }

/-- The first character code that is no ASCII code. -/
def firstBad (text : List Nat) : Option Nat := text.find? (fun c => decide (127 < c))

end Sys2Proof.Machine
end

