-- ==== Sys2Proof/Certificates/Slice0/Obligations.lean ====
section
/-! DEFINITION. The statements for the provers. Rules named without a file are rules of the file the heading names. -/

open Sys2Proof Sys2Proof.Machine

/-! ## Command encoder (40_commands.md) -/

/-- R101 with format R65: opcode, count, then four big-endian u16 per window; nothing but the result changes. -/
def Obligations.DivisionPayloadIsBigEndian : Prop :=
  ∀ (ws : List Window) (s : State), ws.length ≤ 255 →
    exec (.division ws) s = .next (s.withBytes ([0x01#8, BitVec.ofNat 8 ws.length] ++ ws.flatMap fun w =>
      [highOf w.x, lowOf w.x, highOf w.y, lowOf w.y, highOf w.w, lowOf w.w, highOf w.h, lowOf w.h]))

/-- R102 with format R66: the window check, then the length check, then the bytes. -/
def Obligations.ScrollingTextPayload : Prop :=
  ∀ (a : ScrollingArgs) (s : State),
    (7 < a.window.toNat → exec (.scrollingText a) s = .next (s.withError .invalidWindow a.window.toNat)) ∧
    (a.window.toNat ≤ 7 → 65525 < a.ft.length →
      exec (.scrollingText a) s = .next (s.withError .payloadTooLarge (10 + a.ft.length))) ∧
    (a.window.toNat ≤ 7 → a.ft.length ≤ 65525 →
      exec (.scrollingText a) s = .next (s.withBytes ([0x02#8, a.window, a.effect, a.alignment, a.speed,
        lowOf a.stayTime, highOf a.stayTime] ++ a.ft ++ [0x00#8, 0x00#8, 0x00#8])))

/-- R103 with format R67: the window is checked and not encoded; `mode` is 0; little-endian fields; no trailer. -/
def Obligations.ImagePayload : Prop :=
  ∀ (a : ImageArgs) (s : State),
    (7 < a.window.toNat → exec (.image a) s = .next (s.withError .invalidWindow a.window.toNat)) ∧
    (a.window.toNat ≤ 7 → 65525 < a.img.length →
      exec (.image a) s = .next (s.withError .payloadTooLarge (10 + a.img.length))) ∧
    (a.window.toNat ≤ 7 → a.img.length ≤ 65525 →
      exec (.image a) s = .next (s.withBytes ([0x03#8, 0x00#8, a.speed, lowOf a.stayTime, highOf a.stayTime, a.format,
        lowOf a.x, highOf a.x, lowOf a.y, highOf a.y] ++ a.img)))

/-- R104 with format R68: window, then the first code above 127, then length; one byte per character. -/
def Obligations.StaticTextPayload : Prop :=
  ∀ (a : StaticArgs) (s : State),
    (7 < a.window.toNat → exec (.staticText a) s = .next (s.withError .invalidWindow a.window.toNat)) ∧
    (∀ c, a.window.toNat ≤ 7 → firstBad a.text = some c →
      exec (.staticText a) s = .next (s.withError .encodingError c)) ∧
    (a.window.toNat ≤ 7 → firstBad a.text = none → 65519 < a.text.length →
      exec (.staticText a) s = .next (s.withError .payloadTooLarge (16 + a.text.length))) ∧
    (a.window.toNat ≤ 7 → firstBad a.text = none → a.text.length ≤ 65519 →
      exec (.staticText a) s = .next (s.withBytes ([0x04#8, 0x01#8, a.alignment, lowOf a.x, highOf a.x, lowOf a.y,
        highOf a.y, lowOf a.width, highOf a.width, lowOf a.height, highOf a.height, a.fontSize, a.red, a.green, a.blue] ++
        a.text.map (BitVec.ofNat 8) ++ [0x00#8])))

/-- R105 with formats R69 and R74: window, font size, first bad code, length; the two flag bytes bit by bit; bits 7:3 of
`format_flags` are 0 when the booleans are packed. The clause for a byte passed directly rests on decision D23 and the model's
reading of it, log entry 14. -/
def Obligations.ClockPayload : Prop :=
  ∀ (a : ClockArgs) (s : State),
    (7 < a.window.toNat → exec (.clock a) s = .next (s.withError .invalidWindow a.window.toNat)) ∧
    (a.window.toNat ≤ 7 → 7 < a.fontSize.toNat →
      exec (.clock a) s = .next (s.withError .invalidFontSize a.fontSize.toNat)) ∧
    (∀ c, a.window.toNat ≤ 7 → a.fontSize.toNat ≤ 7 → firstBad a.text = some c →
      exec (.clock a) s = .next (s.withError .encodingError c)) ∧
    (a.window.toNat ≤ 7 → a.fontSize.toNat ≤ 7 → firstBad a.text = none → 65524 < a.text.length →
      exec (.clock a) s = .next (s.withError .payloadTooLarge (11 + a.text.length))) ∧
    (a.window.toNat ≤ 7 → a.fontSize.toNat ≤ 7 → firstBad a.text = none → a.text.length ≤ 65524 →
      ∃ fb cb : Byte,
        exec (.clock a) s = .next (s.withBytes ([0x05#8, lowOf a.stayTime, highOf a.stayTime, a.calendar, fb, cb,
          a.fontSize, a.red, a.green, a.blue] ++ a.text.map (BitVec.ofNat 8) ++ [0x00#8])) ∧
        (∀ h24 year4 multiline, a.format = .flags h24 year4 multiline →
          fb.getLsbD 0 = h24 ∧ fb.getLsbD 1 = !year4 ∧ fb.getLsbD 2 = multiline ∧ fb.toNat < 8) ∧
        (∀ b, a.format = .direct b → fb = b) ∧
        cb.getLsbD 0 = a.content.year ∧ cb.getLsbD 1 = a.content.month ∧ cb.getLsbD 2 = a.content.day ∧
        cb.getLsbD 3 = a.content.hour ∧ cb.getLsbD 4 = a.content.minute ∧ cb.getLsbD 5 = a.content.second ∧
        cb.getLsbD 6 = a.content.week ∧ cb.getLsbD 7 = a.content.pointer)

/-- R106 and R108: Exit, Save and Reset (the display command) have fixed payloads and no error. -/
def Obligations.ExitSaveResetPayloads : Prop :=
  ∀ s : State,
    exec .exit s = .next (s.withBytes [0x06#8]) ∧
    exec .save s = .next (s.withBytes [0x07#8, 0x00#8, 0x00#8, 0x00#8]) ∧
    exec .reset s = .next (s.withBytes [0x07#8, 0x01#8, 0x00#8, 0x00#8])

/-- R110 and R113: a raw payload is the bytes given, up to 65535 of them. A payload with a reserved opcode is sent through
RAW unchanged (30_encoding.md R78); that the row itself is read so is the model's choice, log entry 9. -/
def Obligations.RawAndReservedPayloads : Prop :=
  ∀ (bs : Bytes) (s : State),
    (bs.length ≤ 65535 → exec (.raw bs) s = .next (s.withBytes bs)) ∧
    (65535 < bs.length → exec (.raw bs) s = .next (s.withError .payloadTooLarge bs.length)) ∧
    (bs.length ≤ 65534 →
      exec (.reserved8 bs) s = .next (s.withBytes (0x08#8 :: bs)) ∧
      exec (.reserved9 bs) s = .next (s.withBytes (0x09#8 :: bs)) ∧
      exec (.reserved10 bs) s = .next (s.withBytes (0x0A#8 :: bs)) ∧
      exec (.reserved11 bs) s = .next (s.withBytes (0x0B#8 :: bs))) ∧
    (65534 < bs.length →
      exec (.reserved8 bs) s = .next (s.withError .payloadTooLarge (bs.length + 1)) ∧
      exec (.reserved9 bs) s = .next (s.withError .payloadTooLarge (bs.length + 1)) ∧
      exec (.reserved10 bs) s = .next (s.withError .payloadTooLarge (bs.length + 1)) ∧
      exec (.reserved11 bs) s = .next (s.withError .payloadTooLarge (bs.length + 1)))

/-- R109 with the cell of 30_encoding.md R72 and R73: colour, then size, then encoding are checked; three bytes per character.
The FT_CELL row is read as the cell of one character, and colour 0 is refused there too: the model's reading, log entry 9. -/
def Obligations.FormatTextCells : Prop :=
  (∀ (c : BitVec 3) (z : BitVec 4) (a : BitVec 7) (s : State),
    (c ≠ 0 → exec (.ftCell c z a) s =
      .next (s.withBytes [BitVec.ofNat 8 (16 * c.toNat + z.toNat), 0x00#8, BitVec.ofNat 8 a.toNat])) ∧
    (c = 0 → exec (.ftCell c z a) s = .next (s.withError .invalidColor 0))) ∧
  ∀ (text : List Nat) (color size : Byte) (s : State),
    (color.toNat < 1 ∨ 7 < color.toNat →
      exec (.formatText text color size) s = .next (s.withError .invalidColor color.toNat)) ∧
    (1 ≤ color.toNat → color.toNat ≤ 7 → 15 < size.toNat →
      exec (.formatText text color size) s = .next (s.withError .invalidFontSize size.toNat)) ∧
    (∀ c, 1 ≤ color.toNat → color.toNat ≤ 7 → size.toNat ≤ 15 → firstBad text = some c →
      exec (.formatText text color size) s = .next (s.withError .encodingError c)) ∧
    (1 ≤ color.toNat → color.toNat ≤ 7 → size.toNat ≤ 15 → firstBad text = none →
      ∃ out : Bytes, exec (.formatText text color size) s = .next (s.withBytes out) ∧ out.length = 3 * text.length ∧
        out = text.flatMap fun c => [BitVec.ofNat 8 (16 * color.toNat + size.toNat), 0x00#8, BitVec.ofNat 8 c])

/-- R107 and R113 as rows of their own. -/
def Obligations.AsciiBytesAndCheckLen : Prop :=
  ∀ (text : List Nat) (bs : Bytes) (s : State),
    (∀ c, firstBad text = some c → exec (.asciiBytes text) s = .next (s.withError .encodingError c)) ∧
    (firstBad text = none → exec (.asciiBytes text) s = .next (s.withBytes (text.map (BitVec.ofNat 8)))) ∧
    (bs.length ≤ 65535 → exec (.checkLen bs) s = .next (s.withBytes bs)) ∧
    (65535 < bs.length → exec (.checkLen bs) s = .next (s.withError .payloadTooLarge bs.length))

/-- R100: `encode_cmd` dispatches to the encoder of the variant, and answers for every descriptor that can be given. -/
def Obligations.EncodeCmdDispatches : Prop :=
  ∀ s : State,
    (∀ ws, ws.length ≤ 255 → exec (.encodeCmd (.division ws)) s = exec (.division ws) s) ∧
    (∀ a, exec (.encodeCmd (.scrollingText a)) s = exec (.scrollingText a) s) ∧
    (∀ a, exec (.encodeCmd (.image a)) s = exec (.image a) s) ∧
    (∀ a, exec (.encodeCmd (.staticText a)) s = exec (.staticText a) s) ∧
    (∀ a, exec (.encodeCmd (.clock a)) s = exec (.clock a) s) ∧
    exec (.encodeCmd .exit) s = exec .exit s ∧
    exec (.encodeCmd (.persistence .save)) s = exec .save s ∧
    exec (.encodeCmd (.persistence .reset)) s = exec .reset s ∧
    (∀ bs, exec (.encodeCmd (.raw bs)) s = exec (.raw bs) s) ∧
    (∀ cmd : Command, cmd.expressible = true → ∃ r, exec (.encodeCmd cmd) s = .next { s with result := some r })

/-- R114: each component is `RGB_ON` or 0 by its bit, whatever `RGB_ON` is; colours outside 1 to 7 are refused. -/
def Obligations.RgbOfColorComponents : Prop :=
  ∀ (c : Byte) (s : State),
    (1 ≤ c.toNat → c.toNat ≤ 7 → exec (.rgbOfColor c) s = .next { s with result := some (.ok (.rgb
      (if c.getLsbD 0 then Config.rgbOn else 0x00#8) (if c.getLsbD 1 then Config.rgbOn else 0x00#8)
      (if c.getLsbD 2 then Config.rgbOn else 0x00#8))) }) ∧
    (c.toNat < 1 ∨ 7 < c.toNat → exec (.rgbOfColor c) s = .next (s.withError .invalidColor c.toNat))

/-! ## Packet codec (41_framing.md) -/

/-- R131, R62: nine bytes, the length low byte first; the HEADER row gives the same bytes from its fields. -/
def Obligations.HeaderHasNineBytes : Prop :=
  ∀ (u : Byte) (c : Bool) (len : Half) (i k : Byte) (s : State),
    exec (.buildHeader u c len i k) s = .next (s.withBytes [0x68#8, 0x32#8, u, 0x7B#8, if c then 0x01#8 else 0x00#8,
      lowOf len, highOf len, i, k]) ∧
    exec (.header u c (lowOf len) (highOf len) i k) s = exec (.buildHeader u c len i k) s

/-- R132, R133, R63: the sum of the bytes modulo 65536, and its two bytes, low first. -/
def Obligations.ChecksumIsTheSumModulo65536 : Prop :=
  ∀ (bs : Bytes) (s : State),
    exec (.checksum bs) s = .next { s with result := some (.ok (.number (BitVec.ofNat 16 (sumOf bs % 65536)))) } ∧
    exec (.checksumBytes bs) s = .next (s.withBytes [BitVec.ofNat 8 (sumOf bs % 256),
      BitVec.ofNat 8 (sumOf bs / 256 % 256)]) ∧
    (∀ lo hi : Byte, exec (.checksumField lo hi) s = .next (s.withBytes [lo, hi]))

/-- R134: one substitution per input byte, and nothing but the result changes. -/
def Obligations.EscapeSubstitutesEachByte : Prop :=
  ∀ (bs : Bytes) (s : State),
    exec (.escape bs) s = .next (s.withBytes (bs.flatMap fun b =>
      if b = 0xAA#8 then [0xAA#8, 0x0A#8] else if b = 0xAE#8 then [0xAA#8, 0x0E#8]
      else if b = 0xA5#8 then [0xAA#8, 0x05#8] else [b]))

/-- R135 (a) to (e), consequences the spec marks as derived from R134: length, concatenation, no delimiter in the output,
pairs only, injectivity. -/
def Obligations.EscapeProperties : Prop :=
  (∀ p : Bytes, (escape p).length = p.length + p.countP reserved) ∧
  (∀ p q : Bytes, escape (p ++ q) = escape p ++ escape q) ∧
  (∀ p : Bytes, 0xA5#8 ∉ escape p ∧ 0xAE#8 ∉ escape p) ∧
  (∀ p l r : Bytes, escape p = l ++ 0xAA#8 :: r → ∃ c r', r = c :: r' ∧ (c = 0x05#8 ∨ c = 0x0A#8 ∨ c = 0x0E#8)) ∧
  (∀ p q : Bytes, escape p = escape q → p = q)

/-- R140: `unescape` of an output of `escape` gives the input back; on any other sequence the result is undefined, and the
statement holds for every value of the free constant that stands for it (log entry 8). -/
def Obligations.UnescapeInvertsEscape : Prop :=
  ∀ (bs : Bytes) (s : State),
    exec (.unescape (escape bs)) s = .next (s.withBytes bs) ∧
    ((∀ p, escape p ≠ bs) → exec (.unescape bs) s = .next (s.withBytes (Config.unescapeOutside bs))) ∧
    (∀ p, unescape bs = some p ↔ escape p = bs)

/-- R136, and R137, which the spec marks as derived: a frame is the delimiters around the escaped body; `make_frame` composes
header, payload and checksum, and is total on payloads of at most 65535 bytes. -/
def Obligations.FrameAndMakeFrame : Prop :=
  ∀ (u : Byte) (c : Bool) (p : Bytes) (i k : Byte) (s : State),
    exec (.frame p) s = .next (s.withBytes ([0xA5#8] ++ escape p ++ [0xAE#8])) ∧
    (p.length ≤ 65535 →
      let h : Bytes := [0x68#8, 0x32#8, u, 0x7B#8, if c then 0x01#8 else 0x00#8, BitVec.ofNat 8 (p.length % 256),
        BitVec.ofNat 8 (p.length / 256), i, k]
      exec (.makeFrame u c p i k) s = .next (s.withBytes ([0xA5#8] ++ escape (h ++ p ++
        [BitVec.ofNat 8 (sumOf (h ++ p) % 256), BitVec.ofNat 8 (sumOf (h ++ p) / 256 % 256)]) ++ [0xAE#8])))

/-- R139 and 30_encoding.md R80, both derived in the spec: the delimiters occur once each, at the ends; a frame has `n + 13 + r`
bytes with `r` the reserved bytes of its body, at most `n + 7` of them. -/
def Obligations.FrameShape : Prop :=
  ∀ (u : Byte) (c : Bool) (p : Bytes) (i k : Byte), p.length ≤ 65535 →
    let h := buildHeader u c (BitVec.ofNat 16 p.length) i k
    let body := h ++ p ++ le16 (checksum (h ++ p))
    (∃ inner : Bytes, makeFrame u c p i k = 0xA5#8 :: (inner ++ [0xAE#8]) ∧ 0xA5#8 ∉ inner ∧ 0xAE#8 ∉ inner) ∧
    (makeFrame u c p i k).length = p.length + 13 + body.countP reserved ∧
    body.countP reserved ≤ p.length + 7

/-- 10_state.md R21, with the frame: the six loadable registers, `plen` and `PBUF` are loaded; every other field is
unchanged; addresses at and above the payload's length read as before. Performed while no packet is in flight. -/
def Obligations.LoadPacketLoadsRegistersAndBuffer : Prop :=
  ∀ (u : Byte) (c : Bool) (p : Bytes) (i k : Byte) (s : State), s.pc.phase = .idle → p.length ≤ 65535 →
    ∃ t, exec (.loadPacket u c p i k) s = .next t ∧
      t.readX 0 = some 0x68#8 ∧ t.readX 1 = some 0x32#8 ∧ t.readX 2 = some u ∧ t.readX 3 = some 0x7B#8 ∧
      t.readX 4 = some (if c then 0x01#8 else 0x00#8) ∧ t.readX 5 = some (BitVec.ofNat 8 (p.length % 256)) ∧
      t.readX 6 = some (BitVec.ofNat 8 (p.length / 256)) ∧ t.readX 7 = some i ∧ t.readX 8 = some k ∧
      t.plen.toNat = p.length ∧
      (∀ a, a < p.length → t.pbuf.read a = p[a]?) ∧ (∀ a, p.length ≤ a → t.pbuf.read a = s.pbuf.read a) ∧
      t = { s with
        xUnit := t.xUnit, xConf := t.xConf, xLenLo := t.xLenLo, xLenHi := t.xLenHi, xPidx := t.xPidx,
        xPtot := t.xPtot, plen := t.plen, pbuf := t.pbuf }

/-- 42_queue_ops.md R159, by its own words a consequence of R151 to R157, arm by arm, with a next state for every operation that
can be given: only the result changes. The operands of the row, with the sink as the first failing frame and its byte, are the
model's choice, log entry 18; so is what the frames of a queue that cannot occur are, log entry 23. -/
def Obligations.SummaryArms : Prop :=
  ∀ (q : Bool) (P : List Bytes) (k : Option (Nat × Byte)) (s : State),
    let gives := fun (op : HostOp) (v : FnValue) =>
      exec (.execSummary op q P k) s = .next { s with result := some (.ok v) }
    gives .beginQueue (.summary true [] .ok []) ∧
    (∀ cmd, Command.expressible cmd = true →
      (∀ e, encodeCmd cmd = .err e → gives (.enqueue cmd) (.summary q P (.err e) [])) ∧
      (∀ p, encodeCmd cmd = .ok p →
        (q = false → gives (.enqueue cmd) (.summary false P (.err ⟨.queueMisuse, none⟩) [])) ∧
        (q = true → P.length = Config.qdepth →
          gives (.enqueue cmd) (.summary true P (.err ⟨.queueOverflow, none⟩) [])) ∧
        (q = true → P.length < Config.qdepth → gives (.enqueue cmd) (.summary true (P ++ [p]) .ok [])))) ∧
    (∀ u c cmd, Command.expressible cmd = true →
      (q = true → exec (.execSummary (.send u c cmd) q P k) s = exec (.execSummary (.enqueue cmd) q P k) s) ∧
      (q = false → ∀ e, encodeCmd cmd = .err e → gives (.send u c cmd) (.summary false P (.err e) [])) ∧
      (q = false → ∀ p, encodeCmd cmd = .ok p →
        (∀ e, k = some (0, e) → gives (.send u c cmd)
          (.summary false P (.err ⟨.transport, some e.toNat⟩) [makeFrame u c p 0 0])) ∧
        ((∀ e, k ≠ some (0, e)) → gives (.send u c cmd) (.summary false P .ok [makeFrame u c p 0 0])))) ∧
    (∀ u c,
      (q = false → gives (.flush u c) (.summary false P (.err ⟨.queueMisuse, none⟩) [])) ∧
      (q = true →
        let F := P.mapIdx fun i p => makeFrame u c p (BitVec.ofNat 8 i) (BitVec.ofNat 8 (P.length - 1))
        (∀ n e, k = some (n, e) → n < P.length →
          gives (.flush u c) (.summary true [] (.err ⟨.transport, some e.toNat⟩) (F.take (n + 1)))) ∧
        ((∀ n e, k = some (n, e) → P.length ≤ n) → gives (.flush u c) (.summary true [] .ok F))))

/-- What cannot be presented is refused by name: more than 255 windows, LITERAL of a reserved byte, a payload off the domain of
`make_frame` or `load_packet`, a packet load in flight, a sequencer step in another position than its own (the phase, and in a body phase `esc`).
A SEND is refused where it is looked at: in queue mode and at IDLE, while a busy direct SEND waits (R157). That these are refusals is the model's choice, log entry 10. -/
def Obligations.WhatCannotBePresentedIsRefused : Prop :=
  (∀ (a : Answer) (s : State) (p : Phase),
    (s.pc.phase ≠ .sof → exec (.stepSof a) s = .refused .stepNotEnabled) ∧
    (s.pc.phase ≠ .hdr ∨ s.pc.esc = true → exec (.stepHdr a) s = .refused .stepNotEnabled) ∧
    (s.pc.phase ≠ .pay ∨ s.pc.esc = true → exec (.stepPay a) s = .refused .stepNotEnabled) ∧
    (s.pc.phase ≠ .ckl ∨ s.pc.esc = true → exec (.stepCkl a) s = .refused .stepNotEnabled) ∧
    (s.pc.phase ≠ .ckh ∨ s.pc.esc = true → exec (.stepCkh a) s = .refused .stepNotEnabled) ∧
    (s.pc.phase ≠ .fin → exec (.stepEnd a) s = .refused .stepNotEnabled) ∧
    (s.pc.phase ≠ p ∨ s.pc.esc = false → exec (.stepEsc2 p a) s = .refused .stepNotEnabled)) ∧
  ∀ (ws : List Window) (u : Byte) (c : Bool) (p : Bytes) (i k : Byte) (s : State),
    (255 < ws.length →
      exec (.division ws) s = .refused .notExpressible ∧
      exec (.encodeCmd (.division ws)) s = .refused .notExpressible ∧
      exec (.enqueue (.division ws)) s = .refused .notExpressible ∧
      (s.queueEnabled = true ∨ s.pc.phase = .idle →
        exec (.send u c (.division ws)) s = .refused .notExpressible) ∧
      (∀ (q : Bool) (P : List Bytes) (f : Option (Nat × Byte)),
        exec (.execSummary (.enqueue (.division ws)) q P f) s = .refused .notExpressible ∧
        exec (.execSummary (.send u c (.division ws)) q P f) s = .refused .notExpressible)) ∧
    (u = 0xA5#8 ∨ u = 0xAA#8 ∨ u = 0xAE#8 → exec (.literal u) s = .refused .notALiteral) ∧
    (65535 < p.length → exec (.makeFrame u c p i k) s = .refused .outsideDomain) ∧
    (s.pc.phase ≠ .idle → exec (.loadPacket u c p i k) s = .refused .packetInFlight) ∧
    (s.pc.phase = .idle → 65535 < p.length → exec (.loadPacket u c p i k) s = .refused .outsideDomain)

/-! ## Host operations (42_queue_ops.md) -/

/-- R152, in any phase: `queue_enabled` is set, `pending` emptied, `Ok`; nothing else changes. Its code is 0b00. -/
def Obligations.BeginQueueSetsAndEmpties : Prop :=
  (∀ s : State, exec .beginQueue s = .next { s with
    queueEnabled := true, pending := [], resp := s.resp ++ [.ok], errCode := 0, errInfo := 0x00#8 }) ∧
  (∀ o : HostOperands, decode (.hostOp o) [0b00] = .ok .beginQueue)

/-- R153 with R200, R210 and R212, in any phase: encoder's errors, then misuse, then overflow, else the payload joins `pending`.
R156: in queue mode a SEND does the same, and its unit and confirmation are dropped. The code of ENQUEUE is 0b01. An error
completes the operation with the code of its kind, `ERR.INFO` 0, and nothing else changed; the kinds an encoder raises are four. -/
def Obligations.EnqueueAppendsOrFails : Prop :=
  (∀ o : HostOperands, decode (.hostOp o) [0b01] = .ok (.enqueue o.cmd)) ∧
  (∀ (u : Byte) (c : Bool) (cmd : Command) (s : State), s.queueEnabled = true →
    exec (.send u c cmd) s = exec (.enqueue cmd) s) ∧
  (let completes := fun (k : ErrKind) (code : BitVec 4) => ∀ (n : Option Nat) (s : State),
    raise ⟨k, n⟩ s = .next { s with resp := s.resp ++ [.err ⟨k, n⟩], errCode := code, errInfo := 0x00#8 }
   completes .invalidWindow 1 ∧ completes .invalidUnitId 2 ∧ completes .invalidColor 3 ∧ completes .invalidFontSize 4 ∧
   completes .encodingError 5 ∧ completes .payloadTooLarge 6 ∧ completes .queueMisuse 7 ∧ completes .queueOverflow 9) ∧
  ∀ (cmd : Command) (s : State), cmd.expressible = true →
    (∀ e, encodeCmd cmd = .err e → ∃ code : BitVec 4,
      exec (.enqueue cmd) s = .next { s with resp := s.resp ++ [.err e], errCode := code, errInfo := 0x00#8 } ∧
      ((e.kind = .invalidWindow ∧ code = 1) ∨ (e.kind = .invalidFontSize ∧ code = 4) ∨
        (e.kind = .encodingError ∧ code = 5) ∨ (e.kind = .payloadTooLarge ∧ code = 6))) ∧
    (∀ p, encodeCmd cmd = .ok p →
      (s.queueEnabled = false → exec (.enqueue cmd) s = .next { s with
        resp := s.resp ++ [.err ⟨.queueMisuse, none⟩], errCode := 7, errInfo := 0x00#8 }) ∧
      (s.queueEnabled = true → s.pending.length = Config.qdepth → exec (.enqueue cmd) s = .next { s with
        resp := s.resp ++ [.err ⟨.queueOverflow, none⟩], errCode := 9, errInfo := 0x00#8 }) ∧
      (s.queueEnabled = true → s.pending.length < Config.qdepth → exec (.enqueue cmd) s = .next { s with
        pending := s.pending ++ [p], resp := s.resp ++ [.ok], errCode := 0, errInfo := 0x00#8 }))

/-- R151: a direct SEND at `IDLE`. An encoder's error completes with the code of its kind (R200) and no other effect; else the batch is the one payload, its
packet is loaded with index 0 and total 0, the sequencer stands at SOF, and completion is deferred. -/
def Obligations.DirectSendLoadsOnePacket : Prop :=
  ∀ (u : Byte) (c : Bool) (cmd : Command) (s : State), cmd.expressible = true → s.queueEnabled = false →
    s.pc.phase = .idle →
    (∀ e, encodeCmd cmd = .err e → ∃ code : BitVec 4,
      exec (.send u c cmd) s = .next { s with resp := s.resp ++ [.err e], errCode := code, errInfo := 0x00#8 } ∧
      ((e.kind = .invalidWindow ∧ code = 1) ∨ (e.kind = .invalidFontSize ∧ code = 4) ∨
        (e.kind = .encodingError ∧ code = 5) ∨ (e.kind = .payloadTooLarge ∧ code = 6))) ∧
    (∀ p, encodeCmd cmd = .ok p → ∃ t, exec (.send u c cmd) s = .next t ∧
      t.batch = [p] ∧ t.bpos = 0 ∧ t.fUnit = u ∧ t.fConf = c ∧ t.pc = ⟨.sof, 0, false⟩ ∧
      t.xUnit = u ∧ t.xConf = (if c then 0x01#8 else 0x00#8) ∧ t.xLenLo = BitVec.ofNat 8 (p.length % 256) ∧
      t.xLenHi = BitVec.ofNat 8 (p.length / 256) ∧ t.xPidx = 0x00#8 ∧ t.xPtot = 0x00#8 ∧ t.plen.toNat = p.length ∧
      (∀ a, a < p.length → t.pbuf.read a = p[a]?) ∧ (∀ a, p.length ≤ a → t.pbuf.read a = s.pbuf.read a) ∧
      t = { s with
        batch := t.batch, bpos := t.bpos, fUnit := t.fUnit, fConf := t.fConf, pc := t.pc, xUnit := t.xUnit,
        xConf := t.xConf, xLenLo := t.xLenLo, xLenHi := t.xLenHi, xPidx := t.xPidx, xPtot := t.xPtot,
        plen := t.plen, pbuf := t.pbuf })

/-- R154: a FLUSH at `IDLE`: misuse outside queue mode with `pending` untouched; `Ok` and nothing sent on an empty queue; else
`pending` moves to `batch` at once and its first packet is loaded with index 0 and total `count - 1`. The group fits a byte
count and its first payload a packet, as the invariant says. -/
def Obligations.FlushSnapshotsPending : Prop :=
  ∀ (u : Byte) (c : Bool) (s : State), s.pc.phase = .idle →
    (s.queueEnabled = false → exec (.flush u c) s = .next { s with
      resp := s.resp ++ [.err ⟨.queueMisuse, none⟩], errCode := 7, errInfo := 0x00#8 }) ∧
    (s.queueEnabled = true → s.pending = [] → exec (.flush u c) s = .next { s with
      resp := s.resp ++ [.ok], errCode := 0, errInfo := 0x00#8 }) ∧
    (∀ p rest, s.queueEnabled = true → s.pending = p :: rest → p.length ≤ 65535 → s.pending.length ≤ 256 →
      ∃ t, exec (.flush u c) s = .next t ∧
        t.batch = s.pending ∧ t.pending = [] ∧ t.bpos = 0 ∧ t.fUnit = u ∧ t.fConf = c ∧ t.pc = ⟨.sof, 0, false⟩ ∧
        t.xUnit = u ∧ t.xConf = (if c then 0x01#8 else 0x00#8) ∧ t.xLenLo = BitVec.ofNat 8 (p.length % 256) ∧
        t.xLenHi = BitVec.ofNat 8 (p.length / 256) ∧ t.xPidx = 0x00#8 ∧ t.xPtot.toNat = s.pending.length - 1 ∧
        t.plen.toNat = p.length ∧
        (∀ a, a < p.length → t.pbuf.read a = p[a]?) ∧ (∀ a, p.length ≤ a → t.pbuf.read a = s.pbuf.read a) ∧
        t = { s with
          batch := t.batch, pending := [], bpos := t.bpos, fUnit := t.fUnit, fConf := t.fConf, pc := t.pc,
          xUnit := t.xUnit, xConf := t.xConf, xLenLo := t.xLenLo, xLenHi := t.xLenHi, xPidx := t.xPidx,
          xPtot := t.xPtot, plen := t.plen, pbuf := t.pbuf })

/-- R157: while the sequencer is busy, a direct SEND and a FLUSH at the head of the port wait there without effect: the step
that looks at the port changes nothing but the input taken. -/
def Obligations.DirectSendAndFlushWaitWhileBusy : Prop :=
  ∀ (op : HostOp) (rest : List HostOp) (more : List Input) (s : State),
    s.pc.phase ≠ .idle → s.port = op :: rest → s.inputs = .host :: more →
    (∃ u c, op = .flush u c) ∨ (s.queueEnabled = false ∧ ∃ u c cmd, op = .send u c cmd) →
    step s = .next { s with inputs := more }

/-- R155: operations accepted while frames are leaving act on `queue_enabled`, `pending`, the results and the port only. -/
def Obligations.OperationsInFlightLeaveTheGroup : Prop :=
  ∀ (op : HostOp) (s t : State), s.pc.phase ≠ .idle → exec (toInstr op) s = .next t →
    t = { s with
      queueEnabled := t.queueEnabled, pending := t.pending, resp := t.resp, errCode := t.errCode,
      errInfo := t.errInfo, port := t.port }

/-! ## Sequencer (43_sequencer.md) -/

/-- R173: the start delimiter leaves, `acc` is cleared, the position is the first header byte; nothing else changes. -/
def Obligations.StepSofOnAccept : Prop :=
  ∀ s : State, s.pc.phase = .sof →
    exec (.stepSof .accept) s = .next { s with wire := s.wire ++ [0xA5#8], acc := 0, pc := ⟨.hdr, 0, false⟩ }

/-- R174 with R179: header byte `idx` leaves, bare or as the first byte of a pair, and is added to `acc` once. -/
def Obligations.StepHdrOnAccept : Prop :=
  ∀ (s : State) (b : Byte), s.pc.phase = .hdr → s.pc.esc = false → s.readX s.pc.idx.toNat = some b →
    ∃ t, exec (.stepHdr .accept) s = .next t ∧
      t.acc.toNat = (s.acc.toNat + b.toNat) % 65536 ∧
      (b = 0xA5#8 ∨ b = 0xAA#8 ∨ b = 0xAE#8 → t.wire = s.wire ++ [0xAA#8] ∧ t.pc = ⟨.hdr, s.pc.idx, true⟩) ∧
      (b ≠ 0xA5#8 → b ≠ 0xAA#8 → b ≠ 0xAE#8 → t.wire = s.wire ++ [b] ∧
        t.pc = if s.pc.idx.toNat < 8 then ⟨.hdr, s.pc.idx + 1, false⟩
          else if s.plen = 0 then ⟨.ckl, 0, false⟩ else ⟨.pay, 0, false⟩) ∧
      t = { s with wire := t.wire, acc := t.acc, pc := t.pc }

/-- R175 with R179: payload byte `idx` of `PBUF` leaves, bare or as the first byte of a pair, and is added to `acc` once. -/
def Obligations.StepPayOnAccept : Prop :=
  ∀ (s : State) (b : Byte), s.pc.phase = .pay → s.pc.esc = false → s.pc.idx.toNat < s.plen.toNat →
    s.pbuf.read s.pc.idx.toNat = some b →
    ∃ t, exec (.stepPay .accept) s = .next t ∧
      t.acc.toNat = (s.acc.toNat + b.toNat) % 65536 ∧
      (b = 0xA5#8 ∨ b = 0xAA#8 ∨ b = 0xAE#8 → t.wire = s.wire ++ [0xAA#8] ∧ t.pc = ⟨.pay, s.pc.idx, true⟩) ∧
      (b ≠ 0xA5#8 → b ≠ 0xAA#8 → b ≠ 0xAE#8 → t.wire = s.wire ++ [b] ∧
        t.pc = if s.pc.idx.toNat + 1 < s.plen.toNat then ⟨.pay, s.pc.idx + 1, false⟩ else ⟨.ckl, 0, false⟩) ∧
      t = { s with wire := t.wire, acc := t.acc, pc := t.pc }

/-- R176, in each of the four body phases: the low nibble leaves, `esc` clears, the position moves, `acc` stays. -/
def Obligations.StepEsc2OnAccept : Prop :=
  ∀ (s : State) (b : Byte), s.Inv → s.pc.esc = true → s.cur = some b →
    ∃ t, exec (.stepEsc2 s.pc.phase .accept) s = .next t ∧
      t.wire = s.wire ++ [BitVec.ofNat 8 (b.toNat % 16)] ∧ t.pc.esc = false ∧ nextPos s.plen.toNat s.pc = some t.pc ∧
      t = { s with wire := t.wire, pc := t.pc }

/-- R177: the checksum bytes leave, low byte in CKL, high byte in CKH, stuffed like any body byte; `acc` is not written. -/
def Obligations.ChecksumStepsOnAccept : Prop :=
  ∀ s : State, s.pc.esc = false →
    (s.pc.phase = .ckl →
      let b : Byte := BitVec.ofNat 8 (s.acc.toNat % 256)
      exec (.stepCkl .accept) s = .next (if b = 0xA5#8 ∨ b = 0xAA#8 ∨ b = 0xAE#8
        then { s with wire := s.wire ++ [0xAA#8], pc := ⟨.ckl, s.pc.idx, true⟩ }
        else { s with wire := s.wire ++ [b], pc := ⟨.ckh, 0, false⟩ })) ∧
    (s.pc.phase = .ckh →
      let b : Byte := BitVec.ofNat 8 (s.acc.toNat / 256)
      exec (.stepCkh .accept) s = .next (if b = 0xA5#8 ∨ b = 0xAA#8 ∨ b = 0xAE#8
        then { s with wire := s.wire ++ [0xAA#8], pc := ⟨.ckh, s.pc.idx, true⟩ }
        else { s with wire := s.wire ++ [b], pc := ⟨.fin, 0, false⟩ }))

/-- R178 with R172 and R180: the end delimiter leaves; the last packet ends the operation with `Ok`; an earlier one is followed
by the load of the next. -/
def Obligations.StepEndOnAccept : Prop :=
  ∀ s : State, s.pc.phase = .fin →
    (s.batch.length ≤ s.bpos.toNat + 1 → exec (.stepEnd .accept) s = .next { s with
      wire := s.wire ++ [0xAE#8], batch := [], bpos := 0, pc := ⟨.idle, 0, false⟩,
      resp := s.resp ++ [.ok], errCode := 0, errInfo := 0x00#8 }) ∧
    (∀ p, s.batch[s.bpos.toNat + 1]? = some p → p.length ≤ 65535 → s.batch.length ≤ 256 →
      ∃ t, exec (.stepEnd .accept) s = .next t ∧
        t.wire = s.wire ++ [0xAE#8] ∧ t.pc = ⟨.sof, 0, false⟩ ∧ t.bpos.toNat = s.bpos.toNat + 1 ∧
        t.xUnit = s.fUnit ∧ t.xConf = (if s.fConf then 0x01#8 else 0x00#8) ∧
        t.xLenLo = BitVec.ofNat 8 (p.length % 256) ∧ t.xLenHi = BitVec.ofNat 8 (p.length / 256) ∧
        t.xPidx.toNat = s.bpos.toNat + 1 ∧ t.xPtot.toNat = s.batch.length - 1 ∧ t.plen.toNat = p.length ∧
        (∀ a, a < p.length → t.pbuf.read a = p[a]?) ∧ (∀ a, p.length ≤ a → t.pbuf.read a = s.pbuf.read a) ∧
        t = { s with
          wire := t.wire, pc := t.pc, bpos := t.bpos, xUnit := t.xUnit, xConf := t.xConf,
          xLenLo := t.xLenLo, xLenHi := t.xLenHi, xPidx := t.xPidx, xPtot := t.xPtot, plen := t.plen,
          pbuf := t.pbuf })

/-- R182: on `stall` nothing changes in any step, the same byte is offered again, and a sink that stalls for ever leaves the
block as it is. -/
def Obligations.StallChangesNothing : Prop :=
  (∀ (s : State) (n : Nat), runAnswers (List.replicate n .stall) s = .next s) ∧
  (∀ (s : State) (p : Phase), s.pc.phase = p →
    (p = .sof → exec (.stepSof .stall) s = .next s) ∧ (p = .fin → exec (.stepEnd .stall) s = .next s) ∧
    (s.pc.esc = false →
      (p = .hdr → exec (.stepHdr .stall) s = .next s) ∧ (p = .pay → exec (.stepPay .stall) s = .next s) ∧
      (p = .ckl → exec (.stepCkl .stall) s = .next s) ∧ (p = .ckh → exec (.stepCkh .stall) s = .next s)) ∧
    (s.pc.esc = true → exec (.stepEsc2 p .stall) s = .next s))

/-- R181, R213: `fail(e)` at any offer ends the operation with `TransportError`: nothing is emitted, `batch` is dropped,
`pending` and `queue_enabled` are kept, the stale `acc`, header registers and `PBUF` stay. -/
def Obligations.FailureAbortsTheOperation : Prop :=
  ∀ (e : Byte) (s : State), s.pc.phase ≠ .idle →
    sequencerStep (.fail e) s = .next { s with
      batch := [], bpos := 0, pc := ⟨.idle, 0, false⟩, resp := s.resp ++ [.err ⟨.transport, some e.toNat⟩],
      errCode := 8, errInfo := e }

/-- R171: the current byte, by phase, and the offered byte: a body byte is offered bare, as the prefix byte, or as its low nibble.
An accepted step puts the offered byte on the wire. -/
def Obligations.OfferedByte : Prop :=
  ∀ s : State, s.Inv →
    (s.pc.phase = .hdr → s.cur = s.readX s.pc.idx.toNat ∧ s.pc.idx.toNat ≤ 8) ∧
    (s.pc.phase = .pay → s.cur = s.pbuf.read s.pc.idx.toNat ∧ s.pc.idx.toNat < s.plen.toNat) ∧
    (s.pc.phase = .ckl → s.cur = some (BitVec.ofNat 8 (s.acc.toNat % 256))) ∧
    (s.pc.phase = .ckh → s.cur = some (BitVec.ofNat 8 (s.acc.toNat / 256))) ∧
    (s.pc.phase = .idle ↔ s.offer = none) ∧
    (s.pc.phase = .sof → s.offer = some 0xA5#8) ∧ (s.pc.phase = .fin → s.offer = some 0xAE#8) ∧
    (∀ b, s.cur = some b → s.offer = some (if s.pc.esc then BitVec.ofNat 8 (b.toNat % 16)
      else if b = 0xA5#8 ∨ b = 0xAA#8 ∨ b = 0xAE#8 then 0xAA#8 else b)) ∧
    (∀ t, sequencerStep .accept s = .next t → t.wire = s.wire ++ s.offer.toList)

/-- 41_framing.md R134 and R136: each wire symbol gives its wire bytes; where the sequencer does not offer it nothing else
changes. That a wire symbol also acts as the accepted step where it is offered is the model's choice, log entry 11. -/
def Obligations.WireSymbolsGiveTheirBytes : Prop :=
  ∀ s : State,
    (s.pc.phase ≠ .sof → exec .sof s = .next (s.withBytes [0xA5#8])) ∧
    (s.pc.phase ≠ .fin → exec .eof s = .next (s.withBytes [0xAE#8])) ∧
    (s.cur ≠ some 0xAA#8 ∨ s.pc.esc = true → exec .escAA s = .next (s.withBytes [0xAA#8, 0x0A#8])) ∧
    (s.cur ≠ some 0xAE#8 ∨ s.pc.esc = true → exec .escAE s = .next (s.withBytes [0xAA#8, 0x0E#8])) ∧
    (s.cur ≠ some 0xA5#8 ∨ s.pc.esc = true → exec .escA5 s = .next (s.withBytes [0xAA#8, 0x05#8])) ∧
    (∀ b, b ≠ 0xA5#8 → b ≠ 0xAA#8 → b ≠ 0xAE#8 → s.cur ≠ some b ∨ s.pc.esc = true →
      exec (.literal b) s = .next (s.withBytes [b]))

/-- R185, derived in the spec, with R173 and R178: where the sequencer stands at a body byte, or at a delimiter, the symbol of that
byte is what leaves: one accepted step, two for a pair. SOF and EOF are the whole accepted step of their delimiter, with the bytes
recorded. For a body byte the wire gains exactly its bytes, the position moves once, and `acc` grows once in the summed phases. That
a wire row acts so is the model's choice, log entry 11. -/
def Obligations.WireSymbolsAreAcceptedSteps : Prop :=
  (∀ s : State, s.pc.phase = .sof →
    exec .sof s = exec (.stepSof .accept) (s.withBytes [0xA5#8]) ∧
    exec .sof s = .next { s with
      wire := s.wire ++ [0xA5#8], acc := 0, pc := ⟨.hdr, 0, false⟩, result := some (.ok (.bytes [0xA5#8])) }) ∧
  (∀ s : State, s.pc.phase = .fin →
    exec .eof s = exec (.stepEnd .accept) (s.withBytes [0xAE#8]) ∧
    (s.batch.length ≤ s.bpos.toNat + 1 → exec .eof s = .next { s with
      wire := s.wire ++ [0xAE#8], batch := [], bpos := 0, pc := ⟨.idle, 0, false⟩,
      resp := s.resp ++ [.ok], errCode := 0, errInfo := 0x00#8, result := some (.ok (.bytes [0xAE#8])) }) ∧
    (∀ p, s.batch[s.bpos.toNat + 1]? = some p → p.length ≤ 65535 → s.batch.length ≤ 256 →
      ∃ t, exec .eof s = .next t ∧
        t.wire = s.wire ++ [0xAE#8] ∧ t.pc = ⟨.sof, 0, false⟩ ∧ t.bpos.toNat = s.bpos.toNat + 1 ∧
        t.xUnit = s.fUnit ∧ t.xConf = (if s.fConf then 0x01#8 else 0x00#8) ∧
        t.xLenLo = BitVec.ofNat 8 (p.length % 256) ∧ t.xLenHi = BitVec.ofNat 8 (p.length / 256) ∧
        t.xPidx.toNat = s.bpos.toNat + 1 ∧ t.xPtot.toNat = s.batch.length - 1 ∧ t.plen.toNat = p.length ∧
        (∀ a, a < p.length → t.pbuf.read a = p[a]?) ∧ (∀ a, p.length ≤ a → t.pbuf.read a = s.pbuf.read a) ∧
        t = { s with
          wire := t.wire, pc := t.pc, bpos := t.bpos, xUnit := t.xUnit, xConf := t.xConf,
          xLenLo := t.xLenLo, xLenHi := t.xLenHi, xPidx := t.xPidx, xPtot := t.xPtot, plen := t.plen,
          pbuf := t.pbuf, result := some (.ok (.bytes [0xAE#8])) })) ∧
  ∀ (s : State) (b : Byte), s.Inv → s.pc.esc = false → s.cur = some b →
    ∃ (i : Instr) (t : State) (w : Bytes) (q : Pc), exec i s = .next t ∧ nextPos s.plen.toNat s.pc = some q ∧
      ((b = 0xAA#8 ∧ i = .escAA ∧ w = [0xAA#8, 0x0A#8]) ∨ (b = 0xAE#8 ∧ i = .escAE ∧ w = [0xAA#8, 0x0E#8]) ∨
        (b = 0xA5#8 ∧ i = .escA5 ∧ w = [0xAA#8, 0x05#8]) ∨
        (b ≠ 0xAA#8 ∧ b ≠ 0xAE#8 ∧ b ≠ 0xA5#8 ∧ i = .literal b ∧ w = [b])) ∧
      t = { s with
        wire := s.wire ++ w, pc := q, result := some (.ok (.bytes w)),
        acc := if s.pc.phase = .hdr ∨ s.pc.phase = .pay then s.acc + b.setWidth 16 else s.acc }

/-! ## The refinement to the source (43_sequencer.md R186) and whole operations -/

/-- R186: from a state just after a packet load, answers with no failure that take one frame's bytes append exactly
`make_frame` of the registers and the payload in `PBUF`. -/
def Obligations.OnePacketIsMakeFrame : Prop :=
  ∀ (s : State) (answers : List Answer), s.Inv → s.pc = ⟨.sof, 0, false⟩ → noFailure answers →
    accepts answers = (makeFrame s.xUnit (s.xConf == 0x01#8) s.payload s.xPidx s.xPtot).length →
    ∃ t, runAnswers answers s = .next t ∧
      t.wire = s.wire ++ makeFrame s.xUnit (s.xConf == 0x01#8) s.payload s.xPidx s.xPtot

/-- R151 with R186: a direct SEND issued at an idle port, then clock edges with no failure that take a frame's bytes: the wire gains
exactly `make_frame(unit, confirmation, payload, 0, 0)`, the operation completes `Ok`, `pending` is untouched. -/
def Obligations.DirectSendEndToEnd : Prop :=
  ∀ (u : Byte) (c : Bool) (cmd : Command) (p : Bytes) (answers : List Answer) (s : State), s.Inv →
    cmd.expressible = true → encodeCmd cmd = .ok p → s.queueEnabled = false → s.pc.phase = .idle → s.port = [] →
    s.inputs = .issue (.send u c cmd) :: .host :: clocks answers → noFailure answers →
    accepts answers = (makeFrame u c p 0 0).length →
    ∃ t, runSteps (2 + answers.length) s = .next t ∧ t.wire = s.wire ++ makeFrame u c p 0 0 ∧
      t.resp = s.resp ++ [.ok] ∧ t.errCode = 0 ∧ t.pc = ⟨.idle, 0, false⟩ ∧ t.batch = [] ∧ t.pending = s.pending ∧
      t.queueEnabled = false

/-- R154, R158 with R186: a FLUSH of a non-empty queue sends the frames of the snapshot in index order, with nothing between
them, and completes `Ok`; queue mode stays. -/
def Obligations.FlushSendsTheGroupInOrder : Prop :=
  ∀ (u : Byte) (c : Bool) (answers : List Answer) (s : State), s.Inv → s.queueEnabled = true → s.pc.phase = .idle →
    s.pending ≠ [] → s.port = [] → s.inputs = .issue (.flush u c) :: .host :: clocks answers → noFailure answers →
    let frames := s.pending.mapIdx fun i p => makeFrame u c p (BitVec.ofNat 8 i) (BitVec.ofNat 8 (s.pending.length - 1))
    accepts answers = frames.flatten.length →
    ∃ t, runSteps (2 + answers.length) s = .next t ∧ t.wire = s.wire ++ frames.flatten ∧
      t.resp = s.resp ++ [.ok] ∧ t.errCode = 0 ∧ t.pc = ⟨.idle, 0, false⟩ ∧ t.batch = [] ∧ t.pending = [] ∧
      t.queueEnabled = true

/-- R213: a sink failure after `k` bytes of a group leaves exactly the first `k` bytes of the group on the wire, the rest of the
batch dropped, `TransportError` with the sink's byte, queue mode kept. -/
def Obligations.FailedFlushLeavesAProperPrefix : Prop :=
  ∀ (u : Byte) (c : Bool) (answers : List Answer) (e : Byte) (s : State), s.Inv → s.queueEnabled = true →
    s.pc.phase = .idle → s.pending ≠ [] → s.port = [] →
    s.inputs = .issue (.flush u c) :: .host :: clocks (answers ++ [.fail e]) → noFailure answers →
    let frames := s.pending.mapIdx fun i p => makeFrame u c p (BitVec.ofNat 8 i) (BitVec.ofNat 8 (s.pending.length - 1))
    accepts answers < frames.flatten.length →
    ∃ t, runSteps (3 + answers.length) s = .next t ∧ t.wire = s.wire ++ frames.flatten.take (accepts answers) ∧
      t.resp = s.resp ++ [.err ⟨.transport, some e.toNat⟩] ∧ t.errCode = 8 ∧ t.errInfo = e ∧
      t.pc = ⟨.idle, 0, false⟩ ∧ t.batch = [] ∧ t.bpos = 0 ∧ t.pending = [] ∧ t.queueEnabled = true

/-- R159 as a consequence of R151 to R157 and R186: from an idle block, each operation that can be given, run to its completion by a
sink that takes every byte, leaves the queue state, the result and the frames the summary gives. -/
def Obligations.SummaryAgreesWithTheMachine : Prop :=
  ∀ (op : HostOp) (s : State), s.Inv → op.expressible = true → s.pc.phase = .idle → s.port = [] →
    ∃ (n : Nat) (t : State) (r : Response) (F : List Bytes),
      runSteps (2 + n) { s with inputs := .issue op :: .host :: clocks (List.replicate n .accept) } = .next t ∧
      summary Config.qdepth op s.queueEnabled s.pending none = .summary t.queueEnabled t.pending r F ∧
      t.resp = s.resp ++ [r] ∧ t.wire = s.wire ++ F.flatten ∧ t.pc.phase = .idle ∧ t.port = []

/-- R187, derived in the spec: every accepted byte makes the measure fall in lexicographic order, and an operation completes after
at most the sum over its packets of `2 * len + 20` accepted bytes. -/
def Obligations.OperationCompletesWithinTheBound : Prop :=
  (∀ s : State, s.Inv → s.pc.phase ≠ .idle →
    ∃ t, sequencerStep .accept s = .next t ∧ t.measure < s.measure) ∧
  ∀ (s : State) (answers : List Answer), s.Inv → s.pc.phase ≠ .idle → s.bpos = 0 → noFailure answers →
    (s.batch.map fun p => 2 * p.length + 20).sum ≤ accepts answers →
    ∃ t, runAnswers answers s = .next t ∧ t.pc = ⟨.idle, 0, false⟩ ∧ t.resp = s.resp ++ [.ok]

/-! ## The whole machine -/

/-- 10_state.md R32: the state after reset, where the rule gives a value; the logs start empty (R30). -/
def Obligations.ResetValues : Prop :=
  let s := State.reset
  s.readX 0 = some 0x68#8 ∧ s.readX 1 = some 0x32#8 ∧ s.readX 3 = some 0x7B#8 ∧
  s.readX 2 = some 0x00#8 ∧ s.readX 4 = some 0x00#8 ∧ s.readX 5 = some 0x00#8 ∧ s.readX 6 = some 0x00#8 ∧
  s.readX 7 = some 0x00#8 ∧ s.readX 8 = some 0x00#8 ∧ s.acc = 0 ∧ s.pc = ⟨.idle, 0, false⟩ ∧
  s.queueEnabled = false ∧ s.pending = [] ∧ s.batch = [] ∧ s.bpos = 0 ∧ s.fUnit = 0 ∧ s.fConf = false ∧ s.plen = 0 ∧
  s.errCode = 0 ∧ s.errInfo = 0 ∧ s.wire = [] ∧ s.resp = []

/-- 70_reset_and_hazards.md R240: an edge with `rst = 1` wins over every other pin; the state takes the reset values, `PBUF` keeps
what it held and nothing waits at the port. `W` and `RESP` stay by R242 and 10_state.md R30; that the model's own inputs, draw
count and result stay is the model's reading, log entry 6. -/
def Obligations.ResetEdgeClearsTheBlock : Prop :=
  ∀ (p : Pins) (more : List Input) (s : State), p.rst = true → s.inputs = .clock p :: more →
    step s = .next { State.reset with
      pbuf := s.pbuf, wire := s.wire, resp := s.resp, inputs := more, draws := s.draws,
      result := s.result }

/-- 10_state.md R20: registers 0, 1, 3 are hardwired and ignore writes; a loadable register reads what was written; there are
nine. -/
def Obligations.HardwiredHeaderRegisters : Prop :=
  ∀ (s : State) (v : Byte) (i j : Nat),
    s.readX 0 = some 0x68#8 ∧ s.readX 1 = some 0x32#8 ∧ s.readX 3 = some 0x7B#8 ∧
    s.writeX 0 v = s ∧ s.writeX 1 v = s ∧ s.writeX 3 v = s ∧
    (i = 2 ∨ (4 ≤ i ∧ i ≤ 8) → (s.writeX i v).readX i = some v) ∧
    (i ≠ j → (s.writeX i v).readX j = s.readX j) ∧ ((s.readX i).isSome = true ↔ i ≤ 8)

/-- 10_state.md R24, R25 and 43_sequencer.md R183: the four flags, the fields of the five status registers and the three output pins,
where the invariant holds. That a register has 16 bits is the model's choice, log entry 13; that `tx_data` has no value at IDLE is
the model's reading, log entry 25. -/
def Obligations.StatusRegisterFields : Prop :=
  ∀ s : State, s.Inv → ∃ st er qc bp bc : Half,
    s.readStatus 0 = some st ∧ s.readStatus 1 = some er ∧ s.readStatus 2 = some qc ∧ s.readStatus 3 = some bp ∧
    s.readStatus 4 = some bc ∧ (∀ n, 5 ≤ n → s.readStatus n = none) ∧
    st.getLsbD 0 = decide (s.pc.phase ≠ .idle) ∧ st.getLsbD 1 = s.queueEnabled ∧ st.getLsbD 2 = s.pc.esc ∧
    st.extractLsb' 3 3 = phaseCode s.pc.phase ∧ st.toNat < 64 ∧
    er.extractLsb' 0 4 = s.errCode ∧ er.extractLsb' 8 8 = s.errInfo ∧ er.extractLsb' 4 4 = 0 ∧
    qc.toNat = s.pending.length ∧ bp.toNat = s.bpos.toNat ∧ bc.toNat = s.batch.length ∧
    (s.busy = true ↔ s.pc.phase ≠ .idle) ∧ s.qen = s.queueEnabled ∧ s.escFlag = s.pc.esc ∧
    (s.errv = true ↔ er.extractLsb' 0 4 ≠ 0) ∧
    (s.txValid = true ↔ s.pc.phase ≠ .idle) ∧ (s.txLast = true ↔ s.pc.phase = .fin) ∧
    (s.txValid = true → s.txData = s.offer ∧ s.offer.isSome = true) ∧ (s.txValid = false → s.txData = none)

/-- The invariant of 10_state.md R33, as `State.Inv` states it, holds after reset. -/
def Obligations.InvariantAfterReset : Prop := State.reset.Inv

/-- R33, derived in the spec: every step keeps the invariant. -/
def Obligations.StepKeepsInvariant : Prop :=
  ∀ s t : State, s.Inv → step s = .next t → t.Inv

/-- R33 (h), R216: queue mode, once entered, is left by reset only. -/
def Obligations.QueueModeLeftByResetOnly : Prop :=
  ∀ s t : State, s.queueEnabled = true → step s = .next t → s.resetNext = false → t.queueEnabled = true

/-- 20_memory.md R52, R48: the wire log only grows, whatever the next input is, reset included. -/
def Obligations.WireOnlyGrows : Prop :=
  ∀ s t : State, step s = .next t → ∃ w, t.wire = s.wire ++ w

/-- 20_memory.md R52 and 43_sequencer.md R170: no host operation, command or function emits; only the sequencer's steps and the wire
symbols it offers do. -/
def Obligations.OnlyTheSequencerEmits : Prop :=
  ∀ (i : Instr) (s t : State), exec i s = .next t → t.wire ≠ s.wire → s.pc.phase ≠ .idle ∧
    ((∃ a, i = .stepSof a ∨ i = .stepHdr a ∨ i = .stepPay a ∨ i = .stepCkl a ∨ i = .stepCkh a ∨ i = .stepEnd a) ∨
      (∃ p a, i = .stepEsc2 p a) ∨ i = .sof ∨ i = .eof ∨ i = .escAA ∨ i = .escAE ∨ i = .escA5 ∨ (∃ b, i = .literal b))

/-- 40_commands.md R100, 41_framing.md R130: commands, body fields and functions change the recorded result and nothing else;
`load_packet` is the exception and has its own statement. -/
def Obligations.PureRowsChangeTheResultOnly : Prop :=
  ∀ (i : Instr) (s t : State), exec i s = .next t →
    ((encode i).1 = .payload ∨ (encode i).1 = .cell ∨ (encode i).1 = .header ∨ (encode i).1 = .checksum ∨
      (i.isFunction = true ∧ ∀ u c p k n, i ≠ .loadPacket u c p k n)) →
    t = { s with result := t.result }

/-- From a state that meets the invariant no step faults. -/
def Obligations.NoFaultFromInvariant : Prop :=
  ∀ (s : State) (e : Fault), s.Inv → step s ≠ .fault e

/-- 43_sequencer.md R170, R183: in every state a clock edge without reset is one sequencer step on the answer of the pins (`tx_err`
wins over `tx_ready`), and does nothing at `IDLE`; where the invariant holds, or the sink does not accept, it answers a next state. -/
def Obligations.ClockEdgeIsASequencerStep : Prop :=
  ∀ (p : Pins) (more : List Input) (s : State), p.rst = false → s.inputs = .clock p :: more →
    step s = sequencerStep (if p.txErr then .fail p.txErrinfo else if p.txReady then .accept else .stall)
      { s with inputs := more } ∧
    (s.Inv ∨ p.txErr = true ∨ p.txReady = false → ∃ t, step s = .next t) ∧
    (s.pc.phase = .idle → step s = .next { s with inputs := more })

/-- When the word presented next decodes to an instruction, the step is that instruction at the state with the word taken; a host
operation runs so at an empty port, and is issued behind what waits otherwise. An issue puts an operation last at the port, and
the host port presents the first one (42_queue_ops.md R150). A word that decodes to no instruction is refused by name, but for the
word of the phase `IDLE` at `IDLE`, where the sequencer has no step (43_sequencer.md R170) and nothing changes. The form of the
inputs and of the port, and that refusal, are the model's choice, log entries 1, 12 and 10. -/
def Obligations.StepRunsTheDecodedInstruction : Prop :=
  (∀ (op : HostOp) (rest : List HostOp) (more : List Input) (s : State),
    (s.inputs = .issue op :: more → step s = .next { s with inputs := more, port := s.port ++ [op] }) ∧
    (s.inputs = .host :: more → s.port = op :: rest →
      step s = exec (toInstr op) { s with inputs := more, port := rest }) ∧
    (s.inputs = .host :: more → s.port = [] → step s = .next { s with inputs := more })) ∧
  ∀ (ch : Channel) (bs : Bytes) (more : List Input) (s : State), s.inputs = .word ch bs :: more →
    (∀ i, decode ch bs = .ok i →
      (hostOpOf i = none ∨ s.port = [] → step s = exec i { s with inputs := more }) ∧
      (∀ op, hostOpOf i = some op → s.port ≠ [] → step s = .next { s with inputs := more, port := s.port ++ [op] })) ∧
    (∀ a code, ch = .seqStep a → bs = [code] → code.toNat < 2 → s.pc.phase = .idle →
      step s = .next { s with inputs := more }) ∧
    (∀ e, decode ch bs = .error e →
      s.pc.phase ≠ .idle ∨ (∀ a code, ch = .seqStep a → bs = [code] → 2 ≤ code.toNat) →
      step s = .refused (.undecodable e))

/-! ## Encodings (30_encoding.md) -/

/-- Decoding the word of a well-formed instruction gives the instruction back, but for the window index no payload carries; RAW is
covered by the statement after this one. -/
def Obligations.DecodeOfEncode : Prop :=
  ∀ i : Instr, i.wellFormed = true → (∀ bs, i ≠ .raw bs) →
    decode (encode i).1 (encode i).2 = .ok i.encoded

/-- Every byte sequence decodes as a payload, to an instruction that encodes to the same bytes: no bit is dropped, and raw payloads
fill the rest (R78). With at most 65535 bytes the instruction is well formed; with more it is answered `PayloadTooLarge` (R64,
60_exceptions.md R206). -/
def Obligations.EncodeOfDecodedPayload : Prop :=
  ∀ bs : Bytes,
    ∃ i, decode .payload bs = .ok i ∧ encode i = (.payload, bs) ∧ (bs.length ≤ 65535 → i.wellFormed = true) ∧
      ∀ s, 65535 < bs.length → exec i s = .next (s.withError .payloadTooLarge bs.length)

/-- Words written out from the spec's encodings. -/
def Obligations.WordsDecodeAsTheSpecWritesThem : Prop :=
  decode .payload [0x01, 0x01, 0x01, 0x02, 0x03, 0x04, 0x05, 0x06, 0x07, 0x08] =
    .ok (.division [⟨0x0102, 0x0304, 0x0506, 0x0708⟩]) ∧
  decode .payload [0x07, 0x01, 0x00, 0x00] = .ok .reset ∧
  decode .cell [0x7F, 0x00, 0x41] = .ok (.ftCell 7 15 0x41) ∧
  decode .header [0x68, 0x32, 0xFF, 0x7B, 0x01, 0x34, 0x12, 0x02, 0x05] = .ok (.header 0xFF true 0x34 0x12 0x02 0x05) ∧
  decode .wire [0xAA, 0x0E] = .ok .escAE ∧ decode .wire [0xA5] = .ok .sof ∧
  decode .wire [0xAA, 0x0B] = .error .notAWireSymbol ∧
  decode (.hostOp ⟨0x03, true, .exit⟩) [0b10] = .ok (.flush 0x03 true) ∧
  decode (.seqStep .accept) [0b1001] = .ok (.stepEsc2 .ckl .accept) ∧
  decode (.seqStep .accept) [0b0000] = .error .notAStep
end

