-- ==== Sys2Proof/Laws/Config.lean ====
section
/-! SUPPORT. The limits the spec puts on the parameter `QDEPTH` (00_scope.md rule R6): 1 to 256. -/

namespace Sys2Proof.Config

theorem qdepth_pos : 1 ≤ qdepth := by
  unfold qdepth
  omega

theorem qdepth_le : qdepth ≤ 256 := by
  unfold qdepth
  omega

end Sys2Proof.Config
end

