-- ==== Sys2Proof/Laws/Encoder.lean ====
section
/-! SUPPORT. What the encoder and the codec functions give: lengths, errors, and the laws of `escape`. -/

namespace Sys2Proof.Machine

/-- A payload that passed its encoder fits a packet. -/
theorem checkLen_ok {p q : Bytes} : checkLen p = .ok q ↔ p.length ≤ 65535 ∧ q = p := by
  unfold checkLen
  split <;> simp_all [eq_comm]

theorem checkWindow_ok {α : Type} {w : Byte} {k : Result α} {a : α} :
    checkWindow w k = .ok a ↔ w.toNat ≤ 7 ∧ k = .ok a := by
  unfold checkWindow
  split <;> simp_all

theorem bind_ok {α β : Type} {r : Result α} {f : α → Result β} {b : β} :
    r.bind f = .ok b ↔ ∃ a, r = .ok a ∧ f a = .ok b := by
  cases r <;> simp [Result.bind]

/-- Every payload the encoder accepts has at most 65535 bytes (40_commands.md rule R113). -/
theorem encodeCmd_length {cmd : Command} {p : Bytes} (h : encodeCmd cmd = .ok p) : p.length ≤ 65535 := by
  cases cmd with
  | division ws => exact (checkLen_ok.1 h).2 ▸ (checkLen_ok.1 h).1
  | scrollingText a =>
    have := checkLen_ok.1 (checkWindow_ok.1 h).2
    exact this.2 ▸ this.1
  | image a =>
    have := checkLen_ok.1 (checkWindow_ok.1 h).2
    exact this.2 ▸ this.1
  | staticText a =>
    obtain ⟨t, -, ht⟩ := bind_ok.1 (checkWindow_ok.1 h).2
    exact (checkLen_ok.1 ht).2 ▸ (checkLen_ok.1 ht).1
  | clock a =>
    have h2 := (checkWindow_ok.1 h).2
    split at h2
    · cases h2
    · obtain ⟨t, -, ht⟩ := bind_ok.1 h2
      exact (checkLen_ok.1 ht).2 ▸ (checkLen_ok.1 ht).1
  | exit => cases h; decide
  | persistence m => cases m <;> cases h <;> decide
  | raw bs => exact (checkLen_ok.1 h).2 ▸ (checkLen_ok.1 h).1

/-- `ascii_bytes` passes a text of ASCII codes, one byte per character. -/
theorem asciiBytes_of_ascii {t : List Nat} (h : ∀ c ∈ t, c ≤ 127) : asciiBytes t = .ok (textBytes t) := by
  induction t with
  | nil => rfl
  | cons c t ih =>
    have hc : ¬ 127 < c := by have := h c (by simp); omega
    simp [asciiBytes, hc, ih (fun d hd => h d (by simp [hd])), Result.bind, textBytes]

/-- `ascii_bytes` reports the first code above 127. -/
theorem asciiBytes_of_bad {t : List Nat} {c : Nat} (h : t.find? (fun c => decide (127 < c)) = some c) :
    asciiBytes t = .err (errWith .encodingError c) := by
  induction t with
  | nil => simp at h
  | cons d t ih =>
    by_cases hd : 127 < d
    · simp [hd] at h
      subst h
      simp [asciiBytes, hd]
    · simp [hd] at h
      simp [asciiBytes, hd, ih (by simpa using h), Result.bind]

theorem escape_append (s t : Bytes) : escape (s ++ t) = escape s ++ escape t := by
  induction s with
  | nil => rfl
  | cons b s ih => simp [escape, ih]

theorem escapeByte_plain {b : Byte} (h : reserved b = false) : escapeByte b = [b] := by
  simp only [reserved, Bool.or_eq_false_iff, beq_eq_false_iff_ne, ne_eq] at h
  simp [escapeByte, h]

/-- A reserved byte leaves as the prefix byte and its low nibble (30_encoding.md rule R61). -/
theorem escapeByte_reserved {b : Byte} (h : reserved b = true) : escapeByte b = [0xAA#8, b &&& 0x0F#8] := by
  simp only [reserved, Bool.or_eq_true, beq_iff_eq] at h
  rcases h with (rfl | rfl) | rfl <;> decide

/-- The wire bytes of one body byte, as the sequencer emits them (43_sequencer.md rule R185). -/
theorem escapeByte_eq (b : Byte) : escapeByte b = if reserved b then [0xAA#8, b &&& 0x0F#8] else [b] := by
  cases h : reserved b
  · simpa using escapeByte_plain h
  · simpa using escapeByte_reserved h

theorem checksum_append (s t : Bytes) : checksum (s ++ t) = t.foldl (fun a b => a + b.setWidth 16) (checksum s) := by
  simp [checksum, List.foldl_append]

theorem checksum_concat (s : Bytes) (b : Byte) : checksum (s ++ [b]) = checksum s + b.setWidth 16 := by
  simp [checksum]

end Sys2Proof.Machine
end

