-- ==== Sys2Proof/Laws/Memory.lean ====
section
/-! SUPPORT. The laws of `PBUF`: a read after a write, and the canonical form. -/

namespace Sys2Proof.Machine

/-- Every cell of a written block lies in it. -/
theorem Memory.cellsFrom_mem {v : Bytes} {a : Nat} {c : Host.Cell} (h : c ∈ Memory.cellsFrom a v) :
    a ≤ c.1 ∧ c.1 < a + v.length := by
  induction v generalizing a with
  | nil => simp [Memory.cellsFrom] at h
  | cons b bs ih =>
    simp only [Memory.cellsFrom, List.mem_cons] at h
    rcases h with rfl | h
    · simp
    · have := ih h
      simp only [List.length_cons]
      omega

theorem Memory.read_append (m n : Memory) (a : Nat) :
    Memory.read (m ++ n) a = (Memory.read m a).or (Memory.read n a) := by
  induction m with
  | nil => simp [Memory.read]
  | cons c m ih =>
    simp only [List.cons_append, Memory.read]
    split <;> simp [ih]

theorem Memory.read_none {m : Memory} {a : Nat} (h : ∀ c ∈ m, c.1 ≠ a) : Memory.read m a = none := by
  induction m with
  | nil => rfl
  | cons c m ih =>
    have hc := h c (by simp)
    simp only [Memory.read, if_neg hc]
    exact ih fun d hd => h d (by simp [hd])

theorem Memory.read_filter {m : Memory} {a : Nat} {p : Host.Cell → Bool}
    (h : ∀ b, p (a, b) = true) : Memory.read (m.filter p) a = Memory.read m a := by
  induction m with
  | nil => rfl
  | cons c m ih =>
    rw [List.filter_cons]
    by_cases hc : c.1 = a
    · have : p c = true := by rw [← h c.2, ← hc]
      simp [this, Memory.read, hc]
    · by_cases hp : p c = true
      · simp [hp, Memory.read, hc, ih]
      · simp [hp, Memory.read, hc, ih]

/-- Inside the block, a read of the written cells gives the written byte. -/
theorem Memory.read_cellsFrom (v : Bytes) (a i : Nat) : Memory.read (Memory.cellsFrom a v) (a + i) = v[i]? := by
  induction v generalizing a i with
  | nil => simp [Memory.cellsFrom, Memory.read]
  | cons b bs ih =>
    cases i with
    | zero => simp [Memory.cellsFrom, Memory.read]
    | succ i =>
      have := ih (a + 1) i
      simp only [Memory.cellsFrom, Memory.read, List.getElem?_cons_succ]
      rw [if_neg (by omega), ← this]
      congr 1
      omega

/-- A read inside a written block gives what was written there (20_memory.md rule R45). -/
theorem Memory.read_writeBlock_inside (m : Memory) (v : Bytes) (a i : Nat) (h : i < v.length) :
    Memory.read (m.writeBlock a v) (a + i) = v[i]? := by
  unfold Memory.writeBlock
  rw [Memory.read_append, Memory.read_append, Memory.read_cellsFrom]
  rw [Memory.read_none (m := m.filter _) (a := a + i)]
  · simp [List.getElem?_eq_getElem h]
  · intro c hc
    simp only [List.mem_filter, decide_eq_true_eq] at hc
    omega

/-- A read outside a written block gives what it gave before (20_memory.md rule R45). -/
theorem Memory.read_writeBlock_outside (m : Memory) (v : Bytes) (a b : Nat) (h : b < a ∨ a + v.length ≤ b) :
    Memory.read (m.writeBlock a v) b = Memory.read m b := by
  unfold Memory.writeBlock
  rw [Memory.read_append, Memory.read_append]
  rw [Memory.read_none (m := Memory.cellsFrom a v)]
  · rcases h with h | h
    · rw [Memory.read_filter (a := b) (by simp [h]), Memory.read_none (m := m.filter _)]
      · simp
      · intro c hc
        simp only [List.mem_filter, decide_eq_true_eq] at hc
        omega
    · rw [Memory.read_none (m := m.filter _), Memory.read_filter (a := b) (by simp [h])]
      · simp
      · intro c hc
        simp only [List.mem_filter, decide_eq_true_eq] at hc
        omega
  · intro c hc
    have := Memory.cellsFrom_mem hc
    omega

/-- Rising addresses, as a pairwise order. -/
theorem Memory.rising_iff (m : Memory) : Memory.rising m = true ↔ m.Pairwise (fun c d => c.1 < d.1) := by
  rw [← List.isChain_iff_pairwise]
  induction m with
  | nil => simp [Memory.rising]
  | cons c m ih =>
    cases m with
    | nil => simp [Memory.rising]
    | cons d m => simp [Memory.rising, ih]

theorem Memory.cellsFrom_pairwise (v : Bytes) (a : Nat) :
    (Memory.cellsFrom a v).Pairwise (fun c d => c.1 < d.1) := by
  induction v generalizing a with
  | nil => simp [Memory.cellsFrom]
  | cons b bs ih =>
    simp only [Memory.cellsFrom, List.pairwise_cons]
    refine ⟨fun c hc => ?_, ih (a + 1)⟩
    have := Memory.cellsFrom_mem hc
    omega

/-- A write inside `PBUF` keeps the canonical form. -/
theorem Memory.writeBlock_wf {m : Memory} {v : Bytes} {a : Nat} (hm : m.wf = true) (h : a + v.length ≤ maxPay) :
    (m.writeBlock a v).wf = true := by
  simp only [Memory.wf, Bool.and_eq_true, List.all_eq_true, decide_eq_true_eq, Memory.rising_iff] at hm ⊢
  obtain ⟨hlt, hp⟩ := hm
  unfold Memory.writeBlock
  constructor
  · intro c hc
    simp only [List.mem_append, List.mem_filter, decide_eq_true_eq] at hc
    rcases hc with (⟨hc, -⟩ | hc) | ⟨hc, -⟩
    · exact hlt c hc
    · have := Memory.cellsFrom_mem hc
      omega
    · exact hlt c hc
  · rw [List.pairwise_append, List.pairwise_append]
    refine ⟨⟨hp.filter _, Memory.cellsFrom_pairwise v a, ?_⟩, hp.filter _, ?_⟩
    · intro c hc d hd
      simp only [List.mem_filter, decide_eq_true_eq] at hc
      have := Memory.cellsFrom_mem hd
      omega
    · intro c hc d hd
      simp only [List.mem_append, List.mem_filter, decide_eq_true_eq] at hc hd
      rcases hc with ⟨-, hc⟩ | hc
      · omega
      · have := Memory.cellsFrom_mem hc
        omega

/-- Memory after reset is in canonical form. -/
theorem Memory.wf_reset : State.reset.pbuf.wf = true := rfl

end Sys2Proof.Machine
end

