-- ==== Sys2Proof/Laws/State.lean ====
section
/-! SUPPORT. One lemma per field per update of the state, so that no later proof unfolds a record update. -/

namespace Sys2Proof.Machine

variable (s : State)

@[simp] theorem State.emit_xUnit (b : Byte) : (s.emit b).xUnit = s.xUnit := rfl
@[simp] theorem State.emit_xConf (b : Byte) : (s.emit b).xConf = s.xConf := rfl
@[simp] theorem State.emit_xLenLo (b : Byte) : (s.emit b).xLenLo = s.xLenLo := rfl
@[simp] theorem State.emit_xLenHi (b : Byte) : (s.emit b).xLenHi = s.xLenHi := rfl
@[simp] theorem State.emit_xPidx (b : Byte) : (s.emit b).xPidx = s.xPidx := rfl
@[simp] theorem State.emit_xPtot (b : Byte) : (s.emit b).xPtot = s.xPtot := rfl
@[simp] theorem State.emit_acc (b : Byte) : (s.emit b).acc = s.acc := rfl
@[simp] theorem State.emit_pc (b : Byte) : (s.emit b).pc = s.pc := rfl
@[simp] theorem State.emit_queueEnabled (b : Byte) : (s.emit b).queueEnabled = s.queueEnabled := rfl
@[simp] theorem State.emit_errCode (b : Byte) : (s.emit b).errCode = s.errCode := rfl
@[simp] theorem State.emit_errInfo (b : Byte) : (s.emit b).errInfo = s.errInfo := rfl
@[simp] theorem State.emit_plen (b : Byte) : (s.emit b).plen = s.plen := rfl
@[simp] theorem State.emit_pbuf (b : Byte) : (s.emit b).pbuf = s.pbuf := rfl
@[simp] theorem State.emit_pending (b : Byte) : (s.emit b).pending = s.pending := rfl
@[simp] theorem State.emit_batch (b : Byte) : (s.emit b).batch = s.batch := rfl
@[simp] theorem State.emit_bpos (b : Byte) : (s.emit b).bpos = s.bpos := rfl
@[simp] theorem State.emit_fUnit (b : Byte) : (s.emit b).fUnit = s.fUnit := rfl
@[simp] theorem State.emit_fConf (b : Byte) : (s.emit b).fConf = s.fConf := rfl
@[simp] theorem State.emit_wire (b : Byte) : (s.emit b).wire = s.wire ++ [b] := rfl
@[simp] theorem State.emit_resp (b : Byte) : (s.emit b).resp = s.resp := rfl
@[simp] theorem State.emit_port (b : Byte) : (s.emit b).port = s.port := rfl
@[simp] theorem State.emit_inputs (b : Byte) : (s.emit b).inputs = s.inputs := rfl
@[simp] theorem State.emit_draws (b : Byte) : (s.emit b).draws = s.draws := rfl
@[simp] theorem State.emit_result (b : Byte) : (s.emit b).result = s.result := rfl

@[simp] theorem State.setPc_xUnit (p : Pc) : (s.setPc p).xUnit = s.xUnit := rfl
@[simp] theorem State.setPc_xConf (p : Pc) : (s.setPc p).xConf = s.xConf := rfl
@[simp] theorem State.setPc_xLenLo (p : Pc) : (s.setPc p).xLenLo = s.xLenLo := rfl
@[simp] theorem State.setPc_xLenHi (p : Pc) : (s.setPc p).xLenHi = s.xLenHi := rfl
@[simp] theorem State.setPc_xPidx (p : Pc) : (s.setPc p).xPidx = s.xPidx := rfl
@[simp] theorem State.setPc_xPtot (p : Pc) : (s.setPc p).xPtot = s.xPtot := rfl
@[simp] theorem State.setPc_acc (p : Pc) : (s.setPc p).acc = s.acc := rfl
@[simp] theorem State.setPc_pc (p : Pc) : (s.setPc p).pc = p := rfl
@[simp] theorem State.setPc_queueEnabled (p : Pc) : (s.setPc p).queueEnabled = s.queueEnabled := rfl
@[simp] theorem State.setPc_errCode (p : Pc) : (s.setPc p).errCode = s.errCode := rfl
@[simp] theorem State.setPc_errInfo (p : Pc) : (s.setPc p).errInfo = s.errInfo := rfl
@[simp] theorem State.setPc_plen (p : Pc) : (s.setPc p).plen = s.plen := rfl
@[simp] theorem State.setPc_pbuf (p : Pc) : (s.setPc p).pbuf = s.pbuf := rfl
@[simp] theorem State.setPc_pending (p : Pc) : (s.setPc p).pending = s.pending := rfl
@[simp] theorem State.setPc_batch (p : Pc) : (s.setPc p).batch = s.batch := rfl
@[simp] theorem State.setPc_bpos (p : Pc) : (s.setPc p).bpos = s.bpos := rfl
@[simp] theorem State.setPc_fUnit (p : Pc) : (s.setPc p).fUnit = s.fUnit := rfl
@[simp] theorem State.setPc_fConf (p : Pc) : (s.setPc p).fConf = s.fConf := rfl
@[simp] theorem State.setPc_wire (p : Pc) : (s.setPc p).wire = s.wire := rfl
@[simp] theorem State.setPc_resp (p : Pc) : (s.setPc p).resp = s.resp := rfl
@[simp] theorem State.setPc_port (p : Pc) : (s.setPc p).port = s.port := rfl
@[simp] theorem State.setPc_inputs (p : Pc) : (s.setPc p).inputs = s.inputs := rfl
@[simp] theorem State.setPc_draws (p : Pc) : (s.setPc p).draws = s.draws := rfl
@[simp] theorem State.setPc_result (p : Pc) : (s.setPc p).result = s.result := rfl

@[simp] theorem State.setAcc_xUnit (v : Half) : (s.setAcc v).xUnit = s.xUnit := rfl
@[simp] theorem State.setAcc_xConf (v : Half) : (s.setAcc v).xConf = s.xConf := rfl
@[simp] theorem State.setAcc_xLenLo (v : Half) : (s.setAcc v).xLenLo = s.xLenLo := rfl
@[simp] theorem State.setAcc_xLenHi (v : Half) : (s.setAcc v).xLenHi = s.xLenHi := rfl
@[simp] theorem State.setAcc_xPidx (v : Half) : (s.setAcc v).xPidx = s.xPidx := rfl
@[simp] theorem State.setAcc_xPtot (v : Half) : (s.setAcc v).xPtot = s.xPtot := rfl
@[simp] theorem State.setAcc_acc (v : Half) : (s.setAcc v).acc = v := rfl
@[simp] theorem State.setAcc_pc (v : Half) : (s.setAcc v).pc = s.pc := rfl
@[simp] theorem State.setAcc_queueEnabled (v : Half) : (s.setAcc v).queueEnabled = s.queueEnabled := rfl
@[simp] theorem State.setAcc_errCode (v : Half) : (s.setAcc v).errCode = s.errCode := rfl
@[simp] theorem State.setAcc_errInfo (v : Half) : (s.setAcc v).errInfo = s.errInfo := rfl
@[simp] theorem State.setAcc_plen (v : Half) : (s.setAcc v).plen = s.plen := rfl
@[simp] theorem State.setAcc_pbuf (v : Half) : (s.setAcc v).pbuf = s.pbuf := rfl
@[simp] theorem State.setAcc_pending (v : Half) : (s.setAcc v).pending = s.pending := rfl
@[simp] theorem State.setAcc_batch (v : Half) : (s.setAcc v).batch = s.batch := rfl
@[simp] theorem State.setAcc_bpos (v : Half) : (s.setAcc v).bpos = s.bpos := rfl
@[simp] theorem State.setAcc_fUnit (v : Half) : (s.setAcc v).fUnit = s.fUnit := rfl
@[simp] theorem State.setAcc_fConf (v : Half) : (s.setAcc v).fConf = s.fConf := rfl
@[simp] theorem State.setAcc_wire (v : Half) : (s.setAcc v).wire = s.wire := rfl
@[simp] theorem State.setAcc_resp (v : Half) : (s.setAcc v).resp = s.resp := rfl
@[simp] theorem State.setAcc_port (v : Half) : (s.setAcc v).port = s.port := rfl
@[simp] theorem State.setAcc_inputs (v : Half) : (s.setAcc v).inputs = s.inputs := rfl
@[simp] theorem State.setAcc_draws (v : Half) : (s.setAcc v).draws = s.draws := rfl
@[simp] theorem State.setAcc_result (v : Half) : (s.setAcc v).result = s.result := rfl

@[simp] theorem State.addToAcc_xUnit (b : Byte) : (s.addToAcc b).xUnit = s.xUnit := rfl
@[simp] theorem State.addToAcc_xConf (b : Byte) : (s.addToAcc b).xConf = s.xConf := rfl
@[simp] theorem State.addToAcc_xLenLo (b : Byte) : (s.addToAcc b).xLenLo = s.xLenLo := rfl
@[simp] theorem State.addToAcc_xLenHi (b : Byte) : (s.addToAcc b).xLenHi = s.xLenHi := rfl
@[simp] theorem State.addToAcc_xPidx (b : Byte) : (s.addToAcc b).xPidx = s.xPidx := rfl
@[simp] theorem State.addToAcc_xPtot (b : Byte) : (s.addToAcc b).xPtot = s.xPtot := rfl
@[simp] theorem State.addToAcc_acc (b : Byte) : (s.addToAcc b).acc = s.acc + b.setWidth 16 := rfl
@[simp] theorem State.addToAcc_pc (b : Byte) : (s.addToAcc b).pc = s.pc := rfl
@[simp] theorem State.addToAcc_queueEnabled (b : Byte) : (s.addToAcc b).queueEnabled = s.queueEnabled := rfl
@[simp] theorem State.addToAcc_errCode (b : Byte) : (s.addToAcc b).errCode = s.errCode := rfl
@[simp] theorem State.addToAcc_errInfo (b : Byte) : (s.addToAcc b).errInfo = s.errInfo := rfl
@[simp] theorem State.addToAcc_plen (b : Byte) : (s.addToAcc b).plen = s.plen := rfl
@[simp] theorem State.addToAcc_pbuf (b : Byte) : (s.addToAcc b).pbuf = s.pbuf := rfl
@[simp] theorem State.addToAcc_pending (b : Byte) : (s.addToAcc b).pending = s.pending := rfl
@[simp] theorem State.addToAcc_batch (b : Byte) : (s.addToAcc b).batch = s.batch := rfl
@[simp] theorem State.addToAcc_bpos (b : Byte) : (s.addToAcc b).bpos = s.bpos := rfl
@[simp] theorem State.addToAcc_fUnit (b : Byte) : (s.addToAcc b).fUnit = s.fUnit := rfl
@[simp] theorem State.addToAcc_fConf (b : Byte) : (s.addToAcc b).fConf = s.fConf := rfl
@[simp] theorem State.addToAcc_wire (b : Byte) : (s.addToAcc b).wire = s.wire := rfl
@[simp] theorem State.addToAcc_resp (b : Byte) : (s.addToAcc b).resp = s.resp := rfl
@[simp] theorem State.addToAcc_port (b : Byte) : (s.addToAcc b).port = s.port := rfl
@[simp] theorem State.addToAcc_inputs (b : Byte) : (s.addToAcc b).inputs = s.inputs := rfl
@[simp] theorem State.addToAcc_draws (b : Byte) : (s.addToAcc b).draws = s.draws := rfl
@[simp] theorem State.addToAcc_result (b : Byte) : (s.addToAcc b).result = s.result := rfl

@[simp] theorem State.deliver_xUnit (r : Result FnValue) : (s.deliver r).xUnit = s.xUnit := rfl
@[simp] theorem State.deliver_xConf (r : Result FnValue) : (s.deliver r).xConf = s.xConf := rfl
@[simp] theorem State.deliver_xLenLo (r : Result FnValue) : (s.deliver r).xLenLo = s.xLenLo := rfl
@[simp] theorem State.deliver_xLenHi (r : Result FnValue) : (s.deliver r).xLenHi = s.xLenHi := rfl
@[simp] theorem State.deliver_xPidx (r : Result FnValue) : (s.deliver r).xPidx = s.xPidx := rfl
@[simp] theorem State.deliver_xPtot (r : Result FnValue) : (s.deliver r).xPtot = s.xPtot := rfl
@[simp] theorem State.deliver_acc (r : Result FnValue) : (s.deliver r).acc = s.acc := rfl
@[simp] theorem State.deliver_pc (r : Result FnValue) : (s.deliver r).pc = s.pc := rfl
@[simp] theorem State.deliver_queueEnabled (r : Result FnValue) : (s.deliver r).queueEnabled = s.queueEnabled := rfl
@[simp] theorem State.deliver_errCode (r : Result FnValue) : (s.deliver r).errCode = s.errCode := rfl
@[simp] theorem State.deliver_errInfo (r : Result FnValue) : (s.deliver r).errInfo = s.errInfo := rfl
@[simp] theorem State.deliver_plen (r : Result FnValue) : (s.deliver r).plen = s.plen := rfl
@[simp] theorem State.deliver_pbuf (r : Result FnValue) : (s.deliver r).pbuf = s.pbuf := rfl
@[simp] theorem State.deliver_pending (r : Result FnValue) : (s.deliver r).pending = s.pending := rfl
@[simp] theorem State.deliver_batch (r : Result FnValue) : (s.deliver r).batch = s.batch := rfl
@[simp] theorem State.deliver_bpos (r : Result FnValue) : (s.deliver r).bpos = s.bpos := rfl
@[simp] theorem State.deliver_fUnit (r : Result FnValue) : (s.deliver r).fUnit = s.fUnit := rfl
@[simp] theorem State.deliver_fConf (r : Result FnValue) : (s.deliver r).fConf = s.fConf := rfl
@[simp] theorem State.deliver_wire (r : Result FnValue) : (s.deliver r).wire = s.wire := rfl
@[simp] theorem State.deliver_resp (r : Result FnValue) : (s.deliver r).resp = s.resp := rfl
@[simp] theorem State.deliver_port (r : Result FnValue) : (s.deliver r).port = s.port := rfl
@[simp] theorem State.deliver_inputs (r : Result FnValue) : (s.deliver r).inputs = s.inputs := rfl
@[simp] theorem State.deliver_draws (r : Result FnValue) : (s.deliver r).draws = s.draws := rfl
@[simp] theorem State.deliver_result (r : Result FnValue) : (s.deliver r).result = some r := rfl

@[simp] theorem State.pushPending_xUnit (p : Bytes) : (s.pushPending p).xUnit = s.xUnit := rfl
@[simp] theorem State.pushPending_xConf (p : Bytes) : (s.pushPending p).xConf = s.xConf := rfl
@[simp] theorem State.pushPending_xLenLo (p : Bytes) : (s.pushPending p).xLenLo = s.xLenLo := rfl
@[simp] theorem State.pushPending_xLenHi (p : Bytes) : (s.pushPending p).xLenHi = s.xLenHi := rfl
@[simp] theorem State.pushPending_xPidx (p : Bytes) : (s.pushPending p).xPidx = s.xPidx := rfl
@[simp] theorem State.pushPending_xPtot (p : Bytes) : (s.pushPending p).xPtot = s.xPtot := rfl
@[simp] theorem State.pushPending_acc (p : Bytes) : (s.pushPending p).acc = s.acc := rfl
@[simp] theorem State.pushPending_pc (p : Bytes) : (s.pushPending p).pc = s.pc := rfl
@[simp] theorem State.pushPending_queueEnabled (p : Bytes) : (s.pushPending p).queueEnabled = s.queueEnabled := rfl
@[simp] theorem State.pushPending_errCode (p : Bytes) : (s.pushPending p).errCode = s.errCode := rfl
@[simp] theorem State.pushPending_errInfo (p : Bytes) : (s.pushPending p).errInfo = s.errInfo := rfl
@[simp] theorem State.pushPending_plen (p : Bytes) : (s.pushPending p).plen = s.plen := rfl
@[simp] theorem State.pushPending_pbuf (p : Bytes) : (s.pushPending p).pbuf = s.pbuf := rfl
@[simp] theorem State.pushPending_pending (p : Bytes) : (s.pushPending p).pending = s.pending ++ [p] := rfl
@[simp] theorem State.pushPending_batch (p : Bytes) : (s.pushPending p).batch = s.batch := rfl
@[simp] theorem State.pushPending_bpos (p : Bytes) : (s.pushPending p).bpos = s.bpos := rfl
@[simp] theorem State.pushPending_fUnit (p : Bytes) : (s.pushPending p).fUnit = s.fUnit := rfl
@[simp] theorem State.pushPending_fConf (p : Bytes) : (s.pushPending p).fConf = s.fConf := rfl
@[simp] theorem State.pushPending_wire (p : Bytes) : (s.pushPending p).wire = s.wire := rfl
@[simp] theorem State.pushPending_resp (p : Bytes) : (s.pushPending p).resp = s.resp := rfl
@[simp] theorem State.pushPending_port (p : Bytes) : (s.pushPending p).port = s.port := rfl
@[simp] theorem State.pushPending_inputs (p : Bytes) : (s.pushPending p).inputs = s.inputs := rfl
@[simp] theorem State.pushPending_draws (p : Bytes) : (s.pushPending p).draws = s.draws := rfl
@[simp] theorem State.pushPending_result (p : Bytes) : (s.pushPending p).result = s.result := rfl

@[simp] theorem State.complete_xUnit (r : Response) : (s.complete r).xUnit = s.xUnit := rfl
@[simp] theorem State.complete_xConf (r : Response) : (s.complete r).xConf = s.xConf := rfl
@[simp] theorem State.complete_xLenLo (r : Response) : (s.complete r).xLenLo = s.xLenLo := rfl
@[simp] theorem State.complete_xLenHi (r : Response) : (s.complete r).xLenHi = s.xLenHi := rfl
@[simp] theorem State.complete_xPidx (r : Response) : (s.complete r).xPidx = s.xPidx := rfl
@[simp] theorem State.complete_xPtot (r : Response) : (s.complete r).xPtot = s.xPtot := rfl
@[simp] theorem State.complete_acc (r : Response) : (s.complete r).acc = s.acc := rfl
@[simp] theorem State.complete_pc (r : Response) : (s.complete r).pc = s.pc := rfl
@[simp] theorem State.complete_queueEnabled (r : Response) : (s.complete r).queueEnabled = s.queueEnabled := rfl
@[simp] theorem State.complete_errCode (r : Response) : (s.complete r).errCode = r.code := rfl
@[simp] theorem State.complete_errInfo (r : Response) : (s.complete r).errInfo = r.infoByte := rfl
@[simp] theorem State.complete_plen (r : Response) : (s.complete r).plen = s.plen := rfl
@[simp] theorem State.complete_pbuf (r : Response) : (s.complete r).pbuf = s.pbuf := rfl
@[simp] theorem State.complete_pending (r : Response) : (s.complete r).pending = s.pending := rfl
@[simp] theorem State.complete_batch (r : Response) : (s.complete r).batch = s.batch := rfl
@[simp] theorem State.complete_bpos (r : Response) : (s.complete r).bpos = s.bpos := rfl
@[simp] theorem State.complete_fUnit (r : Response) : (s.complete r).fUnit = s.fUnit := rfl
@[simp] theorem State.complete_fConf (r : Response) : (s.complete r).fConf = s.fConf := rfl
@[simp] theorem State.complete_wire (r : Response) : (s.complete r).wire = s.wire := rfl
@[simp] theorem State.complete_resp (r : Response) : (s.complete r).resp = s.resp ++ [r] := rfl
@[simp] theorem State.complete_port (r : Response) : (s.complete r).port = s.port := rfl
@[simp] theorem State.complete_inputs (r : Response) : (s.complete r).inputs = s.inputs := rfl
@[simp] theorem State.complete_draws (r : Response) : (s.complete r).draws = s.draws := rfl
@[simp] theorem State.complete_result (r : Response) : (s.complete r).result = s.result := rfl

@[simp] theorem State.finish_xUnit (r : Response) : (s.finish r).xUnit = s.xUnit := rfl
@[simp] theorem State.finish_xConf (r : Response) : (s.finish r).xConf = s.xConf := rfl
@[simp] theorem State.finish_xLenLo (r : Response) : (s.finish r).xLenLo = s.xLenLo := rfl
@[simp] theorem State.finish_xLenHi (r : Response) : (s.finish r).xLenHi = s.xLenHi := rfl
@[simp] theorem State.finish_xPidx (r : Response) : (s.finish r).xPidx = s.xPidx := rfl
@[simp] theorem State.finish_xPtot (r : Response) : (s.finish r).xPtot = s.xPtot := rfl
@[simp] theorem State.finish_acc (r : Response) : (s.finish r).acc = s.acc := rfl
@[simp] theorem State.finish_pc (r : Response) : (s.finish r).pc = Pc.idle := rfl
@[simp] theorem State.finish_queueEnabled (r : Response) : (s.finish r).queueEnabled = s.queueEnabled := rfl
@[simp] theorem State.finish_errCode (r : Response) : (s.finish r).errCode = r.code := rfl
@[simp] theorem State.finish_errInfo (r : Response) : (s.finish r).errInfo = r.infoByte := rfl
@[simp] theorem State.finish_plen (r : Response) : (s.finish r).plen = s.plen := rfl
@[simp] theorem State.finish_pbuf (r : Response) : (s.finish r).pbuf = s.pbuf := rfl
@[simp] theorem State.finish_pending (r : Response) : (s.finish r).pending = s.pending := rfl
@[simp] theorem State.finish_batch (r : Response) : (s.finish r).batch = [] := rfl
@[simp] theorem State.finish_bpos (r : Response) : (s.finish r).bpos = 0 := rfl
@[simp] theorem State.finish_fUnit (r : Response) : (s.finish r).fUnit = s.fUnit := rfl
@[simp] theorem State.finish_fConf (r : Response) : (s.finish r).fConf = s.fConf := rfl
@[simp] theorem State.finish_wire (r : Response) : (s.finish r).wire = s.wire := rfl
@[simp] theorem State.finish_resp (r : Response) : (s.finish r).resp = s.resp ++ [r] := rfl
@[simp] theorem State.finish_port (r : Response) : (s.finish r).port = s.port := rfl
@[simp] theorem State.finish_inputs (r : Response) : (s.finish r).inputs = s.inputs := rfl
@[simp] theorem State.finish_draws (r : Response) : (s.finish r).draws = s.draws := rfl
@[simp] theorem State.finish_result (r : Response) : (s.finish r).result = s.result := rfl

@[simp] theorem State.abort_xUnit (e : Byte) : (s.abort e).xUnit = s.xUnit := rfl
@[simp] theorem State.abort_xConf (e : Byte) : (s.abort e).xConf = s.xConf := rfl
@[simp] theorem State.abort_xLenLo (e : Byte) : (s.abort e).xLenLo = s.xLenLo := rfl
@[simp] theorem State.abort_xLenHi (e : Byte) : (s.abort e).xLenHi = s.xLenHi := rfl
@[simp] theorem State.abort_xPidx (e : Byte) : (s.abort e).xPidx = s.xPidx := rfl
@[simp] theorem State.abort_xPtot (e : Byte) : (s.abort e).xPtot = s.xPtot := rfl
@[simp] theorem State.abort_acc (e : Byte) : (s.abort e).acc = s.acc := rfl
@[simp] theorem State.abort_pc (e : Byte) : (s.abort e).pc = Pc.idle := rfl
@[simp] theorem State.abort_queueEnabled (e : Byte) : (s.abort e).queueEnabled = s.queueEnabled := rfl
@[simp] theorem State.abort_errCode (e : Byte) : (s.abort e).errCode = 8 := rfl
@[simp] theorem State.abort_errInfo (e : Byte) : (s.abort e).errInfo = BitVec.ofNat 8 e.toNat := rfl
@[simp] theorem State.abort_plen (e : Byte) : (s.abort e).plen = s.plen := rfl
@[simp] theorem State.abort_pbuf (e : Byte) : (s.abort e).pbuf = s.pbuf := rfl
@[simp] theorem State.abort_pending (e : Byte) : (s.abort e).pending = s.pending := rfl
@[simp] theorem State.abort_batch (e : Byte) : (s.abort e).batch = [] := rfl
@[simp] theorem State.abort_bpos (e : Byte) : (s.abort e).bpos = 0 := rfl
@[simp] theorem State.abort_fUnit (e : Byte) : (s.abort e).fUnit = s.fUnit := rfl
@[simp] theorem State.abort_fConf (e : Byte) : (s.abort e).fConf = s.fConf := rfl
@[simp] theorem State.abort_wire (e : Byte) : (s.abort e).wire = s.wire := rfl
@[simp] theorem State.abort_resp (e : Byte) : (s.abort e).resp = s.resp ++ [.err (transportError e)] := rfl
@[simp] theorem State.abort_port (e : Byte) : (s.abort e).port = s.port := rfl
@[simp] theorem State.abort_inputs (e : Byte) : (s.abort e).inputs = s.inputs := rfl
@[simp] theorem State.abort_draws (e : Byte) : (s.abort e).draws = s.draws := rfl
@[simp] theorem State.abort_result (e : Byte) : (s.abort e).result = s.result := rfl

/-! A packet load (10_state.md rule R21). -/

@[simp] theorem State.withPacket_xUnit (u : Byte) (c : Bool) (p : Bytes) (i k : Byte) :
    (s.withPacket u c p i k).xUnit = u := rfl
@[simp] theorem State.withPacket_xConf (u : Byte) (c : Bool) (p : Bytes) (i k : Byte) :
    (s.withPacket u c p i k).xConf = confByte c := rfl
@[simp] theorem State.withPacket_xLenLo (u : Byte) (c : Bool) (p : Bytes) (i k : Byte) :
    (s.withPacket u c p i k).xLenLo = lowByte (BitVec.ofNat 16 p.length) := rfl
@[simp] theorem State.withPacket_xLenHi (u : Byte) (c : Bool) (p : Bytes) (i k : Byte) :
    (s.withPacket u c p i k).xLenHi = highByte (BitVec.ofNat 16 p.length) := rfl
@[simp] theorem State.withPacket_xPidx (u : Byte) (c : Bool) (p : Bytes) (i k : Byte) :
    (s.withPacket u c p i k).xPidx = i := rfl
@[simp] theorem State.withPacket_xPtot (u : Byte) (c : Bool) (p : Bytes) (i k : Byte) :
    (s.withPacket u c p i k).xPtot = k := rfl
@[simp] theorem State.withPacket_acc (u : Byte) (c : Bool) (p : Bytes) (i k : Byte) :
    (s.withPacket u c p i k).acc = s.acc := rfl
@[simp] theorem State.withPacket_pc (u : Byte) (c : Bool) (p : Bytes) (i k : Byte) :
    (s.withPacket u c p i k).pc = s.pc := rfl
@[simp] theorem State.withPacket_queueEnabled (u : Byte) (c : Bool) (p : Bytes) (i k : Byte) :
    (s.withPacket u c p i k).queueEnabled = s.queueEnabled := rfl
@[simp] theorem State.withPacket_errCode (u : Byte) (c : Bool) (p : Bytes) (i k : Byte) :
    (s.withPacket u c p i k).errCode = s.errCode := rfl
@[simp] theorem State.withPacket_errInfo (u : Byte) (c : Bool) (p : Bytes) (i k : Byte) :
    (s.withPacket u c p i k).errInfo = s.errInfo := rfl
@[simp] theorem State.withPacket_plen (u : Byte) (c : Bool) (p : Bytes) (i k : Byte) :
    (s.withPacket u c p i k).plen = BitVec.ofNat 17 p.length := rfl
@[simp] theorem State.withPacket_pbuf (u : Byte) (c : Bool) (p : Bytes) (i k : Byte) :
    (s.withPacket u c p i k).pbuf = s.pbuf.writeBlock 0 p := rfl
@[simp] theorem State.withPacket_pending (u : Byte) (c : Bool) (p : Bytes) (i k : Byte) :
    (s.withPacket u c p i k).pending = s.pending := rfl
@[simp] theorem State.withPacket_batch (u : Byte) (c : Bool) (p : Bytes) (i k : Byte) :
    (s.withPacket u c p i k).batch = s.batch := rfl
@[simp] theorem State.withPacket_bpos (u : Byte) (c : Bool) (p : Bytes) (i k : Byte) :
    (s.withPacket u c p i k).bpos = s.bpos := rfl
@[simp] theorem State.withPacket_fUnit (u : Byte) (c : Bool) (p : Bytes) (i k : Byte) :
    (s.withPacket u c p i k).fUnit = s.fUnit := rfl
@[simp] theorem State.withPacket_fConf (u : Byte) (c : Bool) (p : Bytes) (i k : Byte) :
    (s.withPacket u c p i k).fConf = s.fConf := rfl
@[simp] theorem State.withPacket_wire (u : Byte) (c : Bool) (p : Bytes) (i k : Byte) :
    (s.withPacket u c p i k).wire = s.wire := rfl
@[simp] theorem State.withPacket_resp (u : Byte) (c : Bool) (p : Bytes) (i k : Byte) :
    (s.withPacket u c p i k).resp = s.resp := rfl
@[simp] theorem State.withPacket_port (u : Byte) (c : Bool) (p : Bytes) (i k : Byte) :
    (s.withPacket u c p i k).port = s.port := rfl
@[simp] theorem State.withPacket_inputs (u : Byte) (c : Bool) (p : Bytes) (i k : Byte) :
    (s.withPacket u c p i k).inputs = s.inputs := rfl
@[simp] theorem State.withPacket_draws (u : Byte) (c : Bool) (p : Bytes) (i k : Byte) :
    (s.withPacket u c p i k).draws = s.draws := rfl
@[simp] theorem State.withPacket_result (u : Byte) (c : Bool) (p : Bytes) (i k : Byte) :
    (s.withPacket u c p i k).result = s.result := rfl

/-! Header registers: what a write leaves (10_state.md rule R20). -/

@[simp] theorem State.writeX_xUnit (v : Byte) : s.writeX 2 v = { s with xUnit := v } := rfl
@[simp] theorem State.writeX_xConf (v : Byte) : s.writeX 4 v = { s with xConf := v } := rfl
@[simp] theorem State.writeX_xLenLo (v : Byte) : s.writeX 5 v = { s with xLenLo := v } := rfl
@[simp] theorem State.writeX_xLenHi (v : Byte) : s.writeX 6 v = { s with xLenHi := v } := rfl
@[simp] theorem State.writeX_xPidx (v : Byte) : s.writeX 7 v = { s with xPidx := v } := rfl
@[simp] theorem State.writeX_xPtot (v : Byte) : s.writeX 8 v = { s with xPtot := v } := rfl

/-- Registers 0, 1 and 3 ignore writes, and there is no register above 8. -/
@[simp] theorem State.writeX_hardwired (v : Byte) (i : Nat) (h : i = 0 ∨ i = 1 ∨ i = 3 ∨ 8 < i) : s.writeX i v = s := by
  rcases h with rfl | rfl | rfl | h
  · rfl
  · rfl
  · rfl
  · match i, h with
    | _ + 9, _ => rfl

/-- A write to a loadable register is what a read of it then gives. -/
theorem State.readX_writeX_same (v : Byte) (i : Nat) (h : i = 2 ∨ (4 ≤ i ∧ i ≤ 8)) :
    (s.writeX i v).readX i = some v := by
  have : i = 2 ∨ i = 4 ∨ i = 5 ∨ i = 6 ∨ i = 7 ∨ i = 8 := by omega
  rcases this with rfl | rfl | rfl | rfl | rfl | rfl <;> rfl

/-- A write leaves every other header register. -/
theorem State.readX_writeX_other (v : Byte) (i j : Nat) (h : i ≠ j) : (s.writeX i v).readX j = s.readX j := by
  unfold State.writeX
  split <;> (unfold State.readX; split <;> first | rfl | exact absurd rfl h)

/-! Going on from an outcome. -/

@[simp] theorem andThen_next (f : State → Step) : andThen (.next s) f = f s := rfl
@[simp] theorem andThen_fault (e : Fault) (f : State → Step) : andThen (.fault e) f = .fault e := rfl
@[simp] theorem andThen_refused (e : Refusal) (f : State → Step) : andThen (.refused e) f = .refused e := rfl

/-- A chain answers a next state exactly when both parts do. -/
theorem andThen_eq_next {r : Step} {f : State → Step} {t : State} :
    andThen r f = .next t ↔ ∃ u, r = .next u ∧ f u = .next t := by
  cases r <;> simp [andThen]

end Sys2Proof.Machine
end

