-- ==== Sys2Proof/Laws/Ops.lean ====
section
/-! SUPPORT. What each shared operation can do, said once: packet load, start of an operation, queueing, errors, waits, and
what the next step is. -/

namespace Sys2Proof.Machine

/-- A packet load answers a next state exactly for a payload that fits, and then this one. -/
theorem loadPacket_eq_next {u : Byte} {c : Bool} {p : Bytes} {i k : Byte} {s t : State} :
    loadPacket u c p i k s = .next t ↔ p.length ≤ maxPay ∧ t = s.withPacket u c p i k := by
  unfold loadPacket
  split <;> simp_all [eq_comm]

theorem loadPacket_of_fits {u : Byte} {c : Bool} {p : Bytes} {i k : Byte} {s : State} (h : p.length ≤ 65535) :
    loadPacket u c p i k s = .next (s.withPacket u c p i k) := by
  simp [loadPacket, maxPay, h]

/-- The state in which a direct SEND or a FLUSH has begun. -/
theorem startOperation_of_fits {p : Bytes} {rest : List Bytes} {u : Byte} {c : Bool} {s : State}
    (h : p.length ≤ 65535) :
    startOperation p rest u c s = .next
      ((({ s with batch := p :: rest, bpos := 0, fUnit := u, fConf := c } : State).withPacket u c p 0
        (totalLessOne (p :: rest))).setPc ⟨.sof, 0, false⟩) := by
  simp [startOperation, loadPacket_of_fits h]

/-- An operation begins exactly when its first payload fits. -/
theorem startOperation_eq_next {p : Bytes} {rest : List Bytes} {u : Byte} {c : Bool} {s t : State}
    (h : startOperation p rest u c s = .next t) : p.length ≤ maxPay := by
  simp only [startOperation, andThen_eq_next] at h
  obtain ⟨v, hv, -⟩ := h
  exact (loadPacket_eq_next.1 hv).1

/-- Queueing a payload either overflows or appends. -/
theorem appendPending_cases (depth : Nat) (p : Bytes) (s : State) :
    (depth ≤ s.pending.length ∧
      appendPending depth p s = .next (s.complete (.err ⟨.queueOverflow, none⟩))) ∨
    (s.pending.length < depth ∧ appendPending depth p s = .next ((s.pushPending p).complete .ok)) := by
  unfold appendPending raise
  split
  · exact .inl ⟨by assumption, rfl⟩
  · exact .inr ⟨by omega, rfl⟩

/-- An operation with a command ends in the encoder's error or goes on with the payload. -/
theorem withPayload_cases (cmd : Command) (s : State) (k : Bytes → Step) :
    (cmd.expressible = false ∧ withPayload cmd s k = .refused .notExpressible) ∨
    (∃ e, cmd.expressible = true ∧ encodeCmd cmd = .err e ∧ withPayload cmd s k = .next (s.complete (.err e))) ∨
    (∃ p, cmd.expressible = true ∧ encodeCmd cmd = .ok p ∧ withPayload cmd s k = k p) := by
  unfold withPayload raise
  cases hx : cmd.expressible
  · simp
  · cases he : encodeCmd cmd <;> simp

/-- Dropping the next input changes only the inputs and the count of draws. -/
theorem dropInput_eq (s : State) :
    s.dropInput = { s with inputs := s.inputs.tail, draws := if s.inputs = [] then s.draws + 1 else s.draws } := by
  unfold State.dropInput
  split <;> simp_all

@[simp] theorem hostOpOf_toInstr (op : HostOp) : hostOpOf (toInstr op) = some op := by
  cases op <;> rfl

end Sys2Proof.Machine
end

