-- ==== Sys2Proof/Laws/PerInstr.lean ====
section
/-! SUPPORT. Laws of the instructions as syntax, one lemma per constructor. -/

namespace Sys2Proof.Laws.EncodedLength

/-- The word of a well-formed instruction fits a payload (30_encoding.md rule R64). -/
def Statement (i : Instr) : Prop := i.wellFormed = true → (encode i).2.length ≤ 65535

theorem windows (ws : List Window) : (ws.flatMap windowBytes).length = 8 * ws.length := by
  induction ws with
  | nil => rfl
  | cons w ws ih =>
    rw [List.flatMap_cons, List.length_append, ih, List.length_cons]
    have : (windowBytes w).length = 8 := rfl
    omega

theorem division (ws : List Window) : Statement (.division ws) := by
  intro h
  have h : ws.length ≤ 255 := by simpa [Instr.wellFormed] using h
  have := windows ws
  simp only [encode, layoutDivision, List.length_append, List.length_cons, List.length_nil, this]
  omega

theorem scrollingText (a : ScrollingArgs) : Statement (.scrollingText a) := by
  intro h
  simp [Instr.wellFormed, ScrollingArgs.wellFormed] at h
  simp [encode, layoutScrolling, le16]
  omega

theorem image (a : ImageArgs) : Statement (.image a) := by
  intro h
  simp [Instr.wellFormed, ImageArgs.wellFormed] at h
  simp [encode, layoutImage, le16]
  omega

theorem staticText (a : StaticArgs) : Statement (.staticText a) := by
  intro h
  simp [Instr.wellFormed, StaticArgs.wellFormed] at h
  simp [encode, layoutStatic, textBytes, le16]
  omega

theorem clock (a : ClockArgs) : Statement (.clock a) := by
  intro h
  simp [Instr.wellFormed, ClockArgs.wellFormed] at h
  simp [encode, layoutClock, textBytes, le16]
  omega

theorem exit : Statement .exit := fun _ => by decide
theorem save : Statement .save := fun _ => by decide
theorem reset : Statement .reset := fun _ => by decide

theorem raw (bs : Bytes) : Statement (.raw bs) := fun h => by
  have h : bs.length ≤ 65535 := by simpa [Instr.wellFormed] using h
  exact h

theorem reserved8 (t : Bytes) : Statement (.reserved8 t) := fun h => by
  have h : t.length ≤ 65534 := by simpa [Instr.wellFormed] using h
  exact Nat.succ_le_succ h

theorem reserved9 (t : Bytes) : Statement (.reserved9 t) := fun h => by
  have h : t.length ≤ 65534 := by simpa [Instr.wellFormed] using h
  exact Nat.succ_le_succ h

theorem reserved10 (t : Bytes) : Statement (.reserved10 t) := fun h => by
  have h : t.length ≤ 65534 := by simpa [Instr.wellFormed] using h
  exact Nat.succ_le_succ h

theorem reserved11 (t : Bytes) : Statement (.reserved11 t) := fun h => by
  have h : t.length ≤ 65534 := by simpa [Instr.wellFormed] using h
  exact Nat.succ_le_succ h

theorem ftCell (c : BitVec 3) (z : BitVec 4) (a : BitVec 7) : Statement (.ftCell c z a) :=
  fun _ => by simp [encode, layoutCell]

theorem header (u : Byte) (c : Bool) (l h i t : Byte) : Statement (.header u c l h i t) :=
  fun _ => by simp [encode, layoutHeader]

theorem checksumField (lo hi : Byte) : Statement (.checksumField lo hi) := fun _ => by simp [encode]
theorem sof : Statement .sof := fun _ => by decide
theorem eof : Statement .eof := fun _ => by decide
theorem escAA : Statement .escAA := fun _ => by decide
theorem escAE : Statement .escAE := fun _ => by decide
theorem escA5 : Statement .escA5 := fun _ => by decide
theorem literal (b : Byte) : Statement (.literal b) := fun _ => by simp [encode]
theorem beginQueue : Statement .beginQueue := fun _ => by simp [encode]
theorem enqueue (cmd : Command) : Statement (.enqueue cmd) := fun _ => by simp [encode]
theorem flush (u : Byte) (c : Bool) : Statement (.flush u c) := fun _ => by simp [encode]
theorem send (u : Byte) (c : Bool) (cmd : Command) : Statement (.send u c cmd) := fun _ => by simp [encode]
theorem stepSof (a : Answer) : Statement (.stepSof a) := fun _ => by simp [encode]
theorem stepHdr (a : Answer) : Statement (.stepHdr a) := fun _ => by simp [encode]
theorem stepPay (a : Answer) : Statement (.stepPay a) := fun _ => by simp [encode]
theorem stepEsc2 (p : Phase) (a : Answer) : Statement (.stepEsc2 p a) := fun _ => by simp [encode]
theorem stepCkl (a : Answer) : Statement (.stepCkl a) := fun _ => by simp [encode]
theorem stepCkh (a : Answer) : Statement (.stepCkh a) := fun _ => by simp [encode]
theorem stepEnd (a : Answer) : Statement (.stepEnd a) := fun _ => by simp [encode]
theorem encodeCmd (cmd : Command) : Statement (.encodeCmd cmd) := fun _ => by simp [encode]
theorem formatText (t : List Nat) (c z : Byte) : Statement (.formatText t c z) := fun _ => by simp [encode]
theorem asciiBytes (t : List Nat) : Statement (.asciiBytes t) := fun _ => by simp [encode]
theorem checkLen (bs : Bytes) : Statement (.checkLen bs) := fun _ => by simp [encode]
theorem rgbOfColor (c : Byte) : Statement (.rgbOfColor c) := fun _ => by simp [encode]
theorem buildHeader (u : Byte) (c : Bool) (l : Half) (i t : Byte) : Statement (.buildHeader u c l i t) :=
  fun _ => by simp [encode]
theorem checksum (bs : Bytes) : Statement (.checksum bs) := fun _ => by simp [encode]
theorem checksumBytes (bs : Bytes) : Statement (.checksumBytes bs) := fun _ => by simp [encode]
theorem escape (bs : Bytes) : Statement (.escape bs) := fun _ => by simp [encode]
theorem frame (bs : Bytes) : Statement (.frame bs) := fun _ => by simp [encode]
theorem makeFrame (u : Byte) (c : Bool) (p : Bytes) (i t : Byte) : Statement (.makeFrame u c p i t) :=
  fun _ => by simp [encode]
theorem unescape (bs : Bytes) : Statement (.unescape bs) := fun _ => by simp [encode]
theorem loadPacket (u : Byte) (c : Bool) (p : Bytes) (i t : Byte) : Statement (.loadPacket u c p i t) :=
  fun _ => by simp [encode]
theorem execSummary (op : HostOp) (q : Bool) (P : List Bytes) (k : Option (Nat × Byte)) :
    Statement (.execSummary op q P k) := fun _ => by simp [encode]

end Sys2Proof.Laws.EncodedLength
end

