-- ==== Sys2Proof/Laws/Sequencer.lean ====
section
/-! SUPPORT. What a sequencer step can do, said once per kind of step, under the conditions that make it run. -/

namespace Sys2Proof.Machine

variable {s : State}

/-- A summed byte that is not reserved leaves bare, is added once, and the position moves (rules R174, R175). -/
theorem acceptSummed_plain {b : Byte} {q : Pc} (hc : s.cur = some b) (hr : reserved b = false)
    (hn : nextPos s.plen.toNat s.pc = some q) :
    acceptSummed s = .next (((s.addToAcc b).emit b).setPc q) := by
  simp [acceptSummed, hc, emitBody, hr, advance, hn]

/-- A summed byte that is reserved sends the prefix byte first, is added once, and `idx` holds. -/
theorem acceptSummed_reserved {b : Byte} (hc : s.cur = some b) (hr : reserved b = true) :
    acceptSummed s = .next (((s.addToAcc b).emit 0xAA).setPc { s.pc with esc := true }) := by
  simp [acceptSummed, hc, emitBody, hr]

/-- A checksum byte that is not reserved leaves bare; `acc` stays (rule R177). -/
theorem acceptChecksum_plain {b : Byte} {q : Pc} (hc : s.cur = some b) (hr : reserved b = false)
    (hn : nextPos s.plen.toNat s.pc = some q) :
    acceptChecksum s = .next ((s.emit b).setPc q) := by
  simp [acceptChecksum, hc, emitBody, hr, advance, hn]

theorem acceptChecksum_reserved {b : Byte} (hc : s.cur = some b) (hr : reserved b = true) :
    acceptChecksum s = .next ((s.emit 0xAA).setPc { s.pc with esc := true }) := by
  simp [acceptChecksum, hc, emitBody, hr]

/-- The second byte of a pair leaves and the position moves; `acc` stays (rule R176). -/
theorem acceptPair_next {b : Byte} {q : Pc} (hc : s.cur = some b) (hn : nextPos s.plen.toNat s.pc = some q) :
    acceptPair s = .next ((s.emit (b &&& 0x0F)).setPc q) := by
  simp [acceptPair, hc, advance, hn]

/-- The end delimiter of the last packet ends the operation (rules R178, R180). -/
theorem acceptEnd_last (h : ¬ s.bpos.toNat + 1 < s.batch.length) :
    acceptEnd s = .next ((s.emit 0xAE).finish .ok) := by
  simp [acceptEnd, h]

/-- The end delimiter of an earlier packet loads the next one (rules R178, R172). -/
theorem acceptEnd_more {p : Bytes} (hp : s.batch[s.bpos.toNat + 1]? = some p) (hl : p.length ≤ 65535) :
    acceptEnd s = .next (((({ s.emit 0xAE with bpos := s.bpos + 1 } : State).withPacket s.fUnit s.fConf p
      (BitVec.ofNat 8 (s.bpos.toNat + 1)) (totalLessOne s.batch))).setPc ⟨.sof, 0, false⟩) := by
  have h : s.bpos.toNat + 1 < s.batch.length := by
    by_contra hc
    rw [List.getElem?_eq_none (by omega)] at hp
    cases hp
  simp only [acceptEnd, h, if_true, hp, loadPacket_of_fits hl, andThen_next]

/-! Where the sequencer stands in a state that meets the invariant. -/

/-- In a body phase there is a current byte. -/
theorem State.Inv.cur_some (hi : s.Inv) (hb : s.pc.phase.isBody = true) : ∃ b, s.cur = some b := by
  have hp := hi.position
  unfold State.positionOk at hp
  unfold State.cur
  cases hph : s.pc.phase <;> simp only [hph] at hp hb ⊢
  · cases hb
  · cases hb
  · have h8 : s.pc.idx.toNat ≤ 8 := by simpa using hp
    generalize s.pc.idx.toNat = n at h8 ⊢
    have : n = 0 ∨ n = 1 ∨ n = 2 ∨ n = 3 ∨ n = 4 ∨ n = 5 ∨ n = 6 ∨ n = 7 ∨ n = 8 := by omega
    rcases this with rfl | rfl | rfl | rfl | rfl | rfl | rfl | rfl | rfl <;> exact ⟨_, rfl⟩
  · have hl := hi.loaded (by simp [hph])
    have hlt : s.pc.idx.toNat < s.plen.toNat := by simpa using hp
    simp only [State.memRead, hlt, if_true]
    rw [hl.buffer _ hlt, List.getElem?_eq_getElem (by rw [← hl.length]; exact hlt)]
    exact ⟨_, rfl⟩
  · exact ⟨_, rfl⟩
  · exact ⟨_, rfl⟩
  · cases hb

/-- In a body phase there is a successor position. -/
theorem State.Inv.nextPos_some (hi : s.Inv) (hb : s.pc.phase.isBody = true) :
    ∃ q, nextPos s.plen.toNat s.pc = some q := by
  have hp := hi.position
  unfold State.positionOk at hp
  unfold nextPos
  cases hph : s.pc.phase <;> simp only [hph] at hp hb ⊢
  · cases hb
  · cases hb
  · have h8 : s.pc.idx.toNat ≤ 8 := by simpa using hp
    split
    · exact ⟨_, rfl⟩
    · rw [if_pos (by omega)]
      split <;> exact ⟨_, rfl⟩
  · have hlt : s.pc.idx.toNat < s.plen.toNat := by simpa using hp
    split
    · exact ⟨_, rfl⟩
    · rw [if_pos (by omega)]
      exact ⟨_, rfl⟩
  · exact ⟨_, rfl⟩
  · exact ⟨_, rfl⟩
  · cases hb

/-- `esc` is set in a body phase only (rule R33 g). -/
theorem State.Inv.esc_body (hi : s.Inv) (he : s.pc.esc = true) : s.pc.phase.isBody = true := by
  obtain ⟨b, hc, -⟩ := hi.pair he
  unfold State.cur at hc
  cases hph : s.pc.phase <;> simp only [hph] at hc ⊢ <;> first | rfl | cases hc

/-- Outside a packet no byte is owed. -/
theorem State.Inv.esc_false (hi : s.Inv) (hb : s.pc.phase.isBody = false) : s.pc.esc = false := by
  cases he : s.pc.esc
  · rfl
  · rw [hi.esc_body he] at hb
    cases hb

/-! The kinds of steps on `accept`, in a state that meets the invariant and is busy. -/

/-- The five things an accepted byte can do: start a frame, send a body byte bare, send the first byte of a pair, send the
second, or end a frame. -/
inductive AcceptCase (s t : State) : Prop where
  | start (hp : s.pc.phase = .sof) (he : s.pc.esc = false)
      (ht : t = ((s.emit 0xA5).setAcc 0).setPc ⟨.hdr, 0, false⟩)
  | plain (b : Byte) (q : Pc) (hb : s.pc.phase.isBody = true) (he : s.pc.esc = false) (hc : s.cur = some b)
      (hr : reserved b = false) (hn : nextPos s.plen.toNat s.pc = some q)
      (ht : t = (((if s.pc.phase = .hdr ∨ s.pc.phase = .pay then s.addToAcc b else s).emit b).setPc q))
  | first (b : Byte) (hb : s.pc.phase.isBody = true) (he : s.pc.esc = false) (hc : s.cur = some b)
      (hr : reserved b = true)
      (ht : t = (((if s.pc.phase = .hdr ∨ s.pc.phase = .pay then s.addToAcc b else s).emit 0xAA).setPc
        { s.pc with esc := true }))
  | second (b : Byte) (q : Pc) (hb : s.pc.phase.isBody = true) (he : s.pc.esc = true) (hc : s.cur = some b)
      (hr : reserved b = true) (hn : nextPos s.plen.toNat s.pc = some q)
      (ht : t = (s.emit (b &&& 0x0F)).setPc q)
  | more (p : Bytes) (hp : s.pc.phase = .fin) (he : s.pc.esc = false)
      (hb : s.batch[s.bpos.toNat + 1]? = some p) (hl : p.length ≤ 65535)
      (ht : t = ((({ s.emit 0xAE with bpos := s.bpos + 1 } : State).withPacket s.fUnit s.fConf p
        (BitVec.ofNat 8 (s.bpos.toNat + 1)) (totalLessOne s.batch))).setPc ⟨.sof, 0, false⟩)
  | last (hp : s.pc.phase = .fin) (he : s.pc.esc = false) (hb : ¬ s.bpos.toNat + 1 < s.batch.length)
      (ht : t = (s.emit 0xAE).finish .ok)

/-- A busy sequencer that meets the invariant takes an accepted byte, in one of these ways. -/
theorem accept_cases (hi : s.Inv) (hb : s.pc.phase ≠ .idle) :
    ∃ t, sequencerStep .accept s = .next t ∧ AcceptCase s t := by
  cases he : s.pc.esc
  · cases hph : s.pc.phase
    · exact absurd hph hb
    · exact ⟨_, by simp [sequencerStep, hph, execStepSof, atPhase, answered, acceptSof], .start hph he rfl⟩
    all_goals try
      (obtain ⟨b, hc⟩ := hi.cur_some (by rw [hph]; rfl)
       obtain ⟨q, hq⟩ := hi.nextPos_some (by rw [hph]; rfl)
       cases hr : reserved b
       · refine ⟨_, ?_, .plain b q (by rw [hph]; rfl) he hc hr hq rfl⟩
         simp [sequencerStep, hph, he, execStepHdr, execStepPay, execStepCkl, execStepCkh, atPosition, answered,
           acceptSummed_plain hc hr hq, acceptChecksum_plain hc hr hq]
       · refine ⟨_, ?_, .first b (by rw [hph]; rfl) he hc hr rfl⟩
         simp [sequencerStep, hph, he, execStepHdr, execStepPay, execStepCkl, execStepCkh, atPosition, answered,
           acceptSummed_reserved hc hr, acceptChecksum_reserved hc hr])
    by_cases hm : s.bpos.toNat + 1 < s.batch.length
    · have hg := List.getElem?_eq_getElem hm
      have hl := hi.batchLengths _ (List.getElem_mem hm)
      refine ⟨_, ?_, .more _ hph he hg hl rfl⟩
      simp only [sequencerStep, hph, execStepEnd, atPhase, answered, if_true]
      exact acceptEnd_more hg hl
    · refine ⟨_, ?_, .last hph he hm rfl⟩
      simp only [sequencerStep, hph, execStepEnd, atPhase, answered, if_true]
      exact acceptEnd_last hm
  · have hbody := hi.esc_body he
    obtain ⟨b, hc, hr⟩ := hi.pair he
    obtain ⟨q, hq⟩ := hi.nextPos_some hbody
    refine ⟨_, ?_, .second b q hbody he hc hr hq rfl⟩
    cases hph : s.pc.phase <;> simp only [hph] at hbody <;> first
      | (cases hbody; done)
      | simp [sequencerStep, hph, he, execStepEsc2, atPosition, answered, acceptPair_next hc hq]

/-! The clock and the words of the sequencer. -/

/-- The sequencer's step is the run of the instruction of its own position, or nothing at `IDLE`. -/
theorem sequencerStep_eq (a : Answer) (s : State) :
    sequencerStep a s = match sequencerInstr a s.pc with
      | some i => exec i s
      | none => .next s := by
  unfold sequencerStep sequencerInstr
  cases hp : s.pc.phase <;> cases he : s.pc.esc <;> rfl

/-- The sequencer has an instruction in every position but `IDLE`, so no clock edge presents a word that is none. -/
theorem sequencerInstr_isSome (a : Answer) (pc : Pc) : (sequencerInstr a pc).isSome = true ↔ pc.phase ≠ .idle := by
  unfold sequencerInstr
  cases pc.phase <;> cases pc.esc <;> simp

/-- A sequencer word decodes by its phase and its `esc`. -/
theorem decode_seqWord (a : Answer) (p : Phase) (e : Bool) :
    decode (.seqStep a) [seqWord p e] = if e then pairStep p a else plainStep p a := by
  cases p <;> cases e <;> rfl

/-- The instruction of a position is the one its table word decodes to, where the table has that word. -/
theorem sequencerInstr_of_decode {a : Answer} {pc : Pc} {i : Instr}
    (h : decode (.seqStep a) [seqWord pc.phase pc.esc] = .ok i) : sequencerInstr a pc = some i := by
  rw [decode_seqWord] at h
  unfold sequencerInstr
  cases hp : pc.phase <;> cases he : pc.esc <;> simp_all [pairStep, plainStep, Phase.isBody]

end Sys2Proof.Machine
end

