-- ==== Sys2Proof/Tests/Slice0.lean ====
section
/-! SUPPORT. Tests. Words are written out from 30_encoding.md and spec/opcode_table.json; expected results are the vectors of
95_test_vectors.md (named in each docstring) and the trace of 43_sequencer.md rule R188. The last part shows, for every
statement with hypotheses, values that meet them. -/

namespace Sys2Proof.Tests

open Sys2Proof.Machine

/-! ## Well-formedness: one ill-formed term for each check -/

def scr (window : Byte) (ft : Bytes) : ScrollingArgs := ⟨window, 0, 0, 0, 0, ft⟩
def img (window : Byte) (bytes : Bytes) : ImageArgs := ⟨window, 0, 0, 0, 0, 0, bytes⟩
def sta (window : Byte) (text : List Nat) : StaticArgs := ⟨window, 0, 0, 0, 0, 0, 0, 0, 0, 0, text⟩
def noContent : ContentFlags := ⟨false, false, false, false, false, false, false, false⟩
def clk (window size : Byte) (text : List Nat) : ClockArgs :=
  ⟨window, 0, 0, .flags false true false, noContent, size, 0, 0, 0, text⟩

/-- Long operands, for the length checks. -/
def long (n : Nat) : Bytes := List.replicate n 0x00
def longT (n : Nat) : List Nat := List.replicate n 0
def longW (n : Nat) : List Window := List.replicate n ⟨0, 0, 0, 0⟩
def longQ (n : Nat) : List Bytes := List.replicate n []
@[simp] theorem long_length (n : Nat) : (long n).length = n := List.length_replicate
@[simp] theorem longT_length (n : Nat) : (longT n).length = n := List.length_replicate
@[simp] theorem longW_length (n : Nat) : (longW n).length = n := List.length_replicate
@[simp] theorem longQ_length (n : Nat) : (longQ n).length = n := List.length_replicate

theorem test_wf_division : (Instr.division (longW 256)).wellFormed = false := by
  simp [Instr.wellFormed]
theorem test_wf_scrolling_window : (Instr.scrollingText (scr 8 [])).wellFormed = false := by decide
theorem test_wf_scrolling_length : (Instr.scrollingText (scr 0 (long 65526))).wellFormed = false := by
  simp [Instr.wellFormed, ScrollingArgs.wellFormed, scr]
theorem test_wf_image_window : (Instr.image (img 8 [])).wellFormed = false := by decide
theorem test_wf_image_length : (Instr.image (img 0 (long 65526))).wellFormed = false := by
  simp [Instr.wellFormed, ImageArgs.wellFormed, img]
theorem test_wf_static_window : (Instr.staticText (sta 8 [])).wellFormed = false := by decide
theorem test_wf_static_ascii : (Instr.staticText (sta 0 [128])).wellFormed = false := by decide
theorem test_wf_static_length : (Instr.staticText (sta 0 (longT 65520))).wellFormed = false := by
  simp [Instr.wellFormed, StaticArgs.wellFormed, sta]
theorem test_wf_clock_window : (Instr.clock (clk 8 0 [])).wellFormed = false := by decide
theorem test_wf_clock_size : (Instr.clock (clk 0 8 [])).wellFormed = false := by decide
theorem test_wf_clock_ascii : (Instr.clock (clk 0 0 [65, 128])).wellFormed = false := by decide
theorem test_wf_clock_length : (Instr.clock (clk 0 0 (longT 65525))).wellFormed = false := by
  simp [Instr.wellFormed, ClockArgs.wellFormed, clk]
theorem test_wf_raw : (Instr.raw (long 65536)).wellFormed = false := by simp [Instr.wellFormed]
theorem test_wf_reserved8 : (Instr.reserved8 (long 65535)).wellFormed = false := by simp [Instr.wellFormed]
theorem test_wf_reserved9 : (Instr.reserved9 (long 65535)).wellFormed = false := by simp [Instr.wellFormed]
theorem test_wf_reserved10 : (Instr.reserved10 (long 65535)).wellFormed = false := by
  simp [Instr.wellFormed]
theorem test_wf_reserved11 : (Instr.reserved11 (long 65535)).wellFormed = false := by
  simp [Instr.wellFormed]
theorem test_wf_cell : (Instr.ftCell 0 0 0).wellFormed = false := by decide
theorem test_wf_literal : (Instr.literal 0xAE).wellFormed = false := by decide
theorem test_wf_pair_phase : (Instr.stepEsc2 .sof .accept).wellFormed = false := by decide
theorem test_wf_enqueue : (Instr.enqueue (.division (longW 256))).wellFormed = false := by
  simp [Instr.wellFormed, Command.expressible]
theorem test_wf_send : (Instr.send 0 false (.division (longW 256))).wellFormed = false := by
  simp [Instr.wellFormed, Command.expressible]
theorem test_wf_encodeCmd : (Instr.encodeCmd (.division (longW 256))).wellFormed = false := by
  simp [Instr.wellFormed, Command.expressible]
theorem test_wf_makeFrame : (Instr.makeFrame 0 false (long 65536) 0 0).wellFormed = false := by
  simp [Instr.wellFormed]
theorem test_wf_loadPacket : (Instr.loadPacket 0 false (long 65536) 0 0).wellFormed = false := by
  simp [Instr.wellFormed]
theorem test_wf_exec : (Instr.execSummary (.enqueue (.division (longW 256))) true [] none).wellFormed =
    false := by
  simp [Instr.wellFormed, HostOp.expressible, Command.expressible]

/-! ## Decoding: words written out from the spec -/

/-- V4. -/
theorem test_decode_division : decode .payload [0x01, 0x01, 0x01, 0x02, 0x03, 0x04, 0x05, 0x06, 0x07, 0x08] =
    .ok (.division [⟨0x0102, 0x0304, 0x0506, 0x0708⟩]) := by decide
/-- V5. -/
theorem test_decode_scrolling : decode .payload
    [0x02, 0x01, 0x0B, 0x01, 0x03, 0x02, 0x01, 0x10, 0x00, 0x48, 0x10, 0x00, 0x69, 0x00, 0x00, 0x00] =
    .ok (.scrollingText ⟨1, 11, 1, 3, 0x0102, [0x10, 0x00, 0x48, 0x10, 0x00, 0x69]⟩) := by decide
/-- V8. -/
theorem test_decode_image : decode .payload
    [0x03, 0x00, 0x05, 0x0A, 0x00, 0x01, 0x02, 0x01, 0x04, 0x03, 0xDE, 0xAD] =
    .ok (.image ⟨0, 5, 10, 1, 0x0102, 0x0304, [0xDE, 0xAD]⟩) := by decide
/-- V10. -/
theorem test_decode_static : decode .payload
    [0x04, 0x01, 0x01, 0x00, 0x00, 0x00, 0x00, 0x40, 0x00, 0x10, 0x00, 0x02, 0xFF, 0x00, 0x00, 0x4F, 0x4B, 0x00] =
    .ok (.staticText ⟨0, 1, 0, 0, 64, 16, 2, 0xFF, 0, 0, [0x4F, 0x4B]⟩) := by decide
/-- V12. -/
theorem test_decode_clock : decode .payload
    [0x05, 0x05, 0x00, 0x00, 0x05, 0x3F, 0x02, 0x00, 0xFF, 0x00, 0x54, 0x00] =
    .ok (.clock ⟨0, 5, 0, .flags true true true, ⟨true, true, true, true, true, true, false, false⟩, 2, 0, 0xFF, 0,
      [0x54]⟩) := by decide
theorem test_decode_exit : decode .payload [0b00000110] = .ok .exit := by decide
theorem test_decode_save : decode .payload [0b00000111, 0b00000000, 0b00000000, 0b00000000] = .ok .save := by decide
theorem test_decode_reset : decode .payload [0b00000111, 0b00000001, 0b00000000, 0b00000000] = .ok .reset := by decide
theorem test_decode_save_mode_2 : decode .payload [0x07, 0x02, 0x00, 0x00] = .ok (.raw [0x07, 0x02, 0x00, 0x00]) := by
  decide
/-- V18. -/
theorem test_decode_raw : decode .payload [0xAA, 0xA5, 0xAE] = .ok (.raw [0xAA, 0xA5, 0xAE]) := by decide
theorem test_decode_raw_too_long : decode .payload (long 65536) = .ok (.raw (long 65536)) := by
  simp [decode, decodePayload]
theorem test_decode_reserved : decode .payload [0x08, 0x01] = .ok (.reserved8 [0x01]) ∧
    decode .payload [0x09] = .ok (.reserved9 []) ∧ decode .payload [0x0A] = .ok (.reserved10 []) ∧
    decode .payload [0x0B, 0x0B] = .ok (.reserved11 [0x0B]) := by decide
theorem test_decode_cell : decode .cell [0b01011010, 0b00000000, 0b01100001] = .ok (.ftCell 0b101 0b1010 0b1100001) := by
  decide
theorem test_decode_cell_bad : decode .cell [0x80, 0x00, 0x00] = .error .notACell ∧
    decode .cell [0x10, 0x01, 0x00] = .error .notACell ∧ decode .cell [0x10, 0x00, 0x80] = .error .notACell := by decide
/-- HD2. -/
theorem test_decode_header : decode .header [0b01101000, 0b00110010, 0xFF, 0b01111011, 0b00000001, 0x34, 0x12, 2, 5] =
    .ok (.header 0xFF true 0x34 0x12 2 5) := by decide
theorem test_decode_header_bad : decode .header [0x68, 0x32, 0xFF, 0x7B, 0x02, 0, 0, 0, 0] = .error .notAHeader := by
  decide
theorem test_decode_checksum : decode .checksum [0x99, 0x01] = .ok (.checksumField 0x99 0x01) := by decide
theorem test_decode_wire : decode .wire [0b10100101] = .ok .sof ∧ decode .wire [0b10101110] = .ok .eof ∧
    decode .wire [0b10101010, 0b00001010] = .ok .escAA ∧ decode .wire [0b10101010, 0b00001110] = .ok .escAE ∧
    decode .wire [0b10101010, 0b00000101] = .ok .escA5 ∧ decode .wire [0xA4] = .ok (.literal 0xA4) := by decide
theorem test_decode_wire_bad : decode .wire [0xAA] = .error .notAWireSymbol ∧
    decode .wire [0xAA, 0x06] = .error .notAWireSymbol ∧ decode .wire [] = .error .notAWireSymbol := by decide
theorem test_decode_host : decode (.hostOp ⟨3, true, .exit⟩) [0b00] = .ok .beginQueue ∧
    decode (.hostOp ⟨3, true, .exit⟩) [0b01] = .ok (.enqueue .exit) ∧
    decode (.hostOp ⟨3, true, .exit⟩) [0b10] = .ok (.flush 3 true) ∧
    decode (.hostOp ⟨3, true, .exit⟩) [0b11] = .ok (.send 3 true .exit) ∧
    decode (.hostOp ⟨3, true, .exit⟩) [0b100] = .error .notAHostCode := by decide
theorem test_decode_steps : decode (.seqStep .stall) [0b0010] = .ok (.stepSof .stall) ∧
    decode (.seqStep .stall) [0b0100] = .ok (.stepHdr .stall) ∧ decode (.seqStep .stall) [0b0110] = .ok (.stepPay .stall) ∧
    decode (.seqStep .stall) [0b1000] = .ok (.stepCkl .stall) ∧ decode (.seqStep .stall) [0b1010] = .ok (.stepCkh .stall) ∧
    decode (.seqStep .stall) [0b1100] = .ok (.stepEnd .stall) := by decide
theorem test_decode_pair_steps : decode (.seqStep .stall) [0b0101] = .ok (.stepEsc2 .hdr .stall) ∧
    decode (.seqStep .stall) [0b0111] = .ok (.stepEsc2 .pay .stall) ∧
    decode (.seqStep .stall) [0b1001] = .ok (.stepEsc2 .ckl .stall) ∧
    decode (.seqStep .stall) [0b1011] = .ok (.stepEsc2 .ckh .stall) ∧
    decode (.seqStep .stall) [0b0011] = .error .notAStep ∧ decode (.seqStep .stall) [0b1110] = .error .notAStep := by decide
theorem test_decode_function : decode (.function (.checksum [0x68])) [] = .ok (.checksum [0x68]) ∧
    decode (.function .exit) [] = .error .notAFunction := by decide
/-- The table's words, byte 0 in the high position. -/
theorem test_table_words : decodeTableWord 16 0x0300 = some (.image ⟨0, 0, 0, 0, 0, 0, []⟩) ∧
    decodeTableWord 32 0x07010000 = some .reset ∧ decodeTableWord 24 0x7F0041 = some (.ftCell 7 15 0x41) ∧
    decodeTableWord 16 0xAA0E = some .escAE ∧ decodeTableWord 8 0xAE = some .eof ∧
    decodeTableWord 72 0x6832FF7B0134120205 = some (.header 0xFF true 0x34 0x12 2 5) := by decide

/-! ## States -/

/-- Idle, with a queue. -/
def idleWith (q : Bool) (P : List Bytes) : State := { State.reset with queueEnabled := q, pending := P }

/-- The packet of `SEND u=1 c=0 RAW[8E]` in flight (rule R188), at a position, with a checksum so far. -/
def sending (p : Pc) (a : Half) : State :=
  { (({ State.reset with batch := [[0x8E]], fUnit := 1 } : State).withPacket 1 false [0x8E] 0 0) with pc := p, acc := a }

/-- A packet with a reserved unit and payload byte in flight. -/
def sendingA5 (p : Pc) (a : Half) : State :=
  { (({ State.reset with batch := [[0xAA]], fUnit := 0xA5 } : State).withPacket 0xA5 false [0xAA] 0 0) with
    pc := p, acc := a }

/-- A direct SEND or FLUSH begun at reset. -/
def loaded (unit : Byte) (p : Bytes) : State :=
  (({ State.reset with batch := [p], fUnit := unit } : State).withPacket unit false p 0 0).setPc ⟨.sof, 0, false⟩

/-! ## One step of each instruction -/

/-- The outcome is this next state. -/
def goesTo (r : Machine.Step) (t : State) : Bool :=
  match r with
  | .next s => decide (s = t)
  | .fault _ | .refused _ => false

/-- The outcome is this refusal. -/
def isRefused (r : Machine.Step) (e : Refusal) : Bool :=
  match r with
  | .refused f => decide (f = e)
  | .fault _ | .next _ => false

section
set_option maxRecDepth 4000

theorem test_division : goesTo (exec (.division [⟨0, 0, 64, 8⟩, ⟨0, 8, 64, 8⟩]) .reset)
    (State.reset.withBytes
    [1, 2, 0, 0, 0, 0, 0, 0x40, 0, 8, 0, 0, 0, 8, 0, 0x40, 0, 8]) = true := by decide  -- V3
theorem test_scrollingText : goesTo (exec (.scrollingText ⟨0, 200, 3, 255, 0xFFFF, [1, 2]⟩) .reset)
    (State.reset.withBytes
    [2, 0, 0xC8, 3, 0xFF, 0xFF, 0xFF, 1, 2, 0, 0, 0]) = true := by decide  -- V7
theorem test_scrollingText_window : goesTo (exec (.scrollingText (scr 8 [])) .reset)
    (State.reset.withError .invalidWindow 8) = true := by decide  -- X1
theorem test_image : goesTo (exec (.image ⟨0, 5, 10, 1, 0x0102, 0x0304, [0xDE, 0xAD]⟩) .reset)
    (State.reset.withBytes
    [3, 0, 5, 0x0A, 0, 1, 2, 1, 4, 3, 0xDE, 0xAD]) = true := by decide  -- V8
theorem test_image_window : goesTo (exec (.image (img 8 [])) .reset)
    (State.reset.withError .invalidWindow 8) = true := by decide  -- X2
theorem test_staticText : goesTo (exec (.staticText ⟨3, 2, 1, 2, 3, 4, 200, 1, 2, 3, []⟩) .reset)
    (State.reset.withBytes
    [4, 1, 2, 1, 0, 2, 0, 3, 0, 4, 0, 0xC8, 1, 2, 3, 0]) = true := by decide  -- V11
theorem test_staticText_code : goesTo (exec (.staticText (sta 0 [0x80])) .reset)
    (State.reset.withError .encodingError 0x80) = true := by decide  -- X8
theorem test_clock : goesTo (exec (.clock ⟨7, 0, 9, .flags false false false, ⟨false, false, false, false, false, false, false,
    true⟩, 7, 1, 2, 3, []⟩) .reset)
    (State.reset.withBytes [5, 0, 0, 9, 2, 0x80, 7, 1, 2, 3, 0]) = true := by decide  -- V13
theorem test_clock_order : goesTo (exec (.clock (clk 0 8 [0x80])) .reset)
    (State.reset.withError .invalidFontSize 8) = true := by decide  -- X13
theorem test_exit : goesTo (exec .exit .reset)
    (State.reset.withBytes [6]) = true := by decide  -- V15
theorem test_save : goesTo (exec .save .reset)
    (State.reset.withBytes [7, 0, 0, 0]) = true := by decide  -- V16
theorem test_reset : goesTo (exec .reset .reset)
    (State.reset.withBytes [7, 1, 0, 0]) = true := by decide  -- V17
theorem test_raw : goesTo (exec (.raw []) .reset)
    (State.reset.withBytes []) = true := by decide  -- V19
theorem test_raw_too_large : exec (.raw (long 65536)) .reset =
    .next (State.reset.withError .payloadTooLarge 65536) := by
  simp [exec, execRaw, delivers, encodeRaw, checkLen, errWith, Result.asBytes, State.deliver, State.withError]  -- X9
theorem test_reserved : goesTo (exec (.reserved8 [1]) .reset)
    (State.reset.withBytes [8, 1]) = true ∧
    goesTo (exec (.reserved9 [1]) .reset)
    (State.reset.withBytes [9, 1]) = true ∧
    goesTo (exec (.reserved10 [1]) .reset)
    (State.reset.withBytes [10, 1]) = true ∧
    goesTo (exec (.reserved11 [1]) .reset)
    (State.reset.withBytes [11, 1]) = true := by decide
theorem test_ftCell : goesTo (exec (.ftCell 2 3 0x41) .reset)
    (State.reset.withBytes [0x23, 0, 0x41]) = true := by decide  -- V23
theorem test_header : goesTo (exec (.header 0xAA true 0xFF 0xFF 0xFF 0xFF) .reset)
    (State.reset.withBytes
    [0x68, 0x32, 0xAA, 0x7B, 1, 0xFF, 0xFF, 0xFF, 0xFF]) = true := by decide  -- HD4
theorem test_checksumField : goesTo (exec (.checksumField 0x99 0x01) .reset)
    (State.reset.withBytes [0x99, 0x01]) = true := by decide
theorem test_encodeCmd : goesTo (exec (.encodeCmd (.persistence .reset)) .reset)
    (State.reset.withBytes [7, 1, 0, 0]) = true := by decide  -- V17
theorem test_formatText : goesTo (exec (.formatText [0x48, 0x69] 1 0) .reset)
    (State.reset.withBytes
    [0x10, 0, 0x48, 0x10, 0, 0x69]) = true := by decide  -- V20
theorem test_formatText_order : goesTo (exec (.formatText [0x80] 1 16) .reset)
    (State.reset.withError .invalidFontSize 16) = true := by decide  -- X14
theorem test_asciiBytes : goesTo (exec (.asciiBytes [0x48, 0xE9, 0x100]) .reset)
    (State.reset.withError .encodingError 0xE9) = true := by decide  -- X8
theorem test_checkLen : goesTo (exec (.checkLen [6]) .reset)
    (State.reset.withBytes [6]) = true := by decide
theorem test_buildHeader : goesTo (exec (.buildHeader 0xFF true 0x1234 2 5) .reset)
    (State.reset.withBytes
    [0x68, 0x32, 0xFF, 0x7B, 1, 0x34, 0x12, 2, 5]) = true := by decide  -- HD2
theorem test_checksum : goesTo (exec (.checksum [0x68, 0x32, 0xFF]) .reset)
    { State.reset with
    result := some (.ok (.number 0x0199)) } = true := by decide  -- CK2
theorem test_checksum_wraps : checksum (List.replicate 258 0xFF) = 0x00FE := by decide  -- CK4
theorem test_checksumBytes : goesTo (exec (.checksumBytes [0x68, 0x32, 0xFF]) .reset)
    (State.reset.withBytes [0x99, 0x01]) = true := by decide  -- CK2
theorem test_escape : goesTo (exec (.escape [0xA5, 0xAE, 0xAA]) .reset)
    (State.reset.withBytes
    [0xAA, 5, 0xAA, 0x0E, 0xAA, 0x0A]) = true := by decide  -- E11, AE-dependent
theorem test_escape_once : goesTo (exec (.escape [0xAA, 0x0A]) .reset)
    (State.reset.withBytes [0xAA, 0x0A, 0x0A]) = true := by decide  -- E9
theorem test_frame : goesTo (exec (.frame [0xA5]) .reset)
    (State.reset.withBytes [0xA5, 0xAA, 5, 0xAE]) = true := by decide
theorem test_makeFrame : goesTo (exec (.makeFrame 0xA5 false [0xAA, 0xA5, 0xAE] 0 0) .reset)
    (State.reset.withBytes
    [0xA5, 0x68, 0x32, 0xAA, 5, 0x7B, 0, 3, 0, 0, 0, 0xAA, 0x0A, 0xAA, 5, 0xAA, 0x0E, 0xBA, 3, 0xAE]) = true := by decide  -- F4, AE-dependent
theorem test_unescape : goesTo (exec (.unescape [0xAA, 0x0A, 5]) .reset)
    (State.reset.withBytes [0xAA, 5]) = true := by decide  -- E12
theorem test_loadPacket : goesTo (exec (.loadPacket 1 false [0x8E] 0 0) .reset)
    { State.reset with
    xUnit := 1, xLenLo := 1, plen := 1, pbuf := [(0, 0x8E)] } = true := by decide  -- R188
theorem test_rgbOfColor : exec (.rgbOfColor 5) .reset = .next { State.reset with
    result := some (.ok (.rgb Config.rgbOn 0 Config.rgbOn)) } := rfl  -- V26
theorem test_execSummary : exec (.execSummary (.flush 3 true) true [[6], [7, 0, 0, 0]] (some (0, 0x2A))) .reset =
    .next { State.reset with
      result := some (.ok (.summary true [] (.err ⟨.transport, some 0x2A⟩)
        [makeFrame 3 true [6] 0 1])) } := rfl  -- R159

theorem test_beginQueue : goesTo (exec .beginQueue (idleWith true [[6]]))
    { idleWith true [] with resp := [.ok] } = true := by decide  -- O3
theorem test_enqueue : exec (.enqueue .exit) (idleWith true []) = .next { idleWith true [[6]] with resp := [.ok] } := by
  have h : ¬ Config.qdepth ≤ 0 := by have := Config.qdepth_pos; omega
  simp [exec, execEnqueue, withPayload, Command.expressible, encodeCmd, encodeExit, layoutExit, idleWith, appendPending, h,
    State.pushPending, State.complete, State.reset, Response.code, Response.infoByte]
theorem test_enqueue_order : goesTo (exec (.enqueue (.scrollingText (scr 8 []))) (idleWith false []))
    { idleWith false [] with
    resp := [.err ⟨.invalidWindow, some 8⟩], errCode := 1 } = true := by decide  -- X15
theorem test_flush_misuse : goesTo (exec (.flush 1 false) (idleWith false []))
    { idleWith false [] with
    resp := [.err ⟨.queueMisuse, none⟩], errCode := 7 } = true := by decide  -- O6
theorem test_flush_loads : goesTo (exec (.flush 1 false) (idleWith true [[6]]))
    { loaded 1 [6] with
    queueEnabled := true } = true := by decide  -- O8
theorem test_send : goesTo (exec (.send 1 false .exit) .reset)
    (loaded 1 [6]) = true := by decide  -- O1, P1
theorem test_send_waits : goesTo (exec (.send 1 false .exit) (loaded 1 [6]))
    { loaded 1 [6] with
    port := [.send 1 false .exit] } = true := by decide  -- R157

theorem test_stepSof : goesTo (exec (.stepSof .accept) (sending ⟨.sof, 0, false⟩ 0x1234))
    { sending ⟨.hdr, 0, false⟩ 0 with
    wire := [0xA5] } = true := by decide  -- R188 step 1
theorem test_stepSof_fail : goesTo (exec (.stepSof (.fail 7)) (sending ⟨.sof, 0, false⟩ 0))
    { sending Pc.idle 0 with
    batch := [], resp := [.err ⟨.transport, some 7⟩], errCode := 8, errInfo := 7 } = true := by decide  -- T5
theorem test_stepHdr_pair : goesTo (exec (.stepHdr .accept) (sendingA5 ⟨.hdr, 2, false⟩ 0x009A))
    { sendingA5 ⟨.hdr, 2, true⟩ 0x013F with wire := [0xAA] } = true := by decide  -- T2 step 4
theorem test_stepHdr_last : goesTo (exec (.stepHdr .accept) (sending ⟨.hdr, 8, false⟩ 0x0117))
    { sending ⟨.pay, 0, false⟩ 0x0117 with wire := [0] } = true := by decide  -- R188 step 10
theorem test_stepPay : goesTo (exec (.stepPay .accept) (sending ⟨.pay, 0, false⟩ 0x0117))
    { sending ⟨.ckl, 0, false⟩ 0x01A5 with wire := [0x8E] } = true := by decide  -- R188 step 11
theorem test_stepPay_pair : goesTo (exec (.stepPay .accept) (sendingA5 ⟨.pay, 0, false⟩ 0x01BD))
    { sendingA5 ⟨.pay, 0, true⟩ 0x0267 with wire := [0xAA] } = true := by decide  -- T2 step 12
theorem test_stepCkl : goesTo (exec (.stepCkl .accept) (sending ⟨.ckl, 0, false⟩ 0x01A5))
    { sending ⟨.ckl, 0, true⟩ 0x01A5 with wire := [0xAA] } = true := by decide  -- R188 step 12
theorem test_stepEsc2 : goesTo (exec (.stepEsc2 .ckl .accept) (sending ⟨.ckl, 0, true⟩ 0x01A5))
    { sending ⟨.ckh, 0, false⟩ 0x01A5 with wire := [0x05] } = true := by decide  -- R188 step 13
theorem test_stepEsc2_fail : goesTo (exec (.stepEsc2 .ckl (.fail 1)) (sending ⟨.ckl, 0, true⟩ 0x01A5))
    { sending Pc.idle 0x01A5 with
      batch := [], resp := [.err ⟨.transport, some 1⟩], errCode := 8, errInfo := 1 } = true := by decide  -- T6
theorem test_stepCkh : goesTo (exec (.stepCkh .accept) (sending ⟨.ckh, 0, false⟩ 0x01A5))
    { sending ⟨.fin, 0, false⟩ 0x01A5 with wire := [0x01] } = true := by decide  -- R188 step 14
theorem test_stepEnd : goesTo (exec (.stepEnd .accept) (sending ⟨.fin, 0, false⟩ 0x01A5))
    { sending Pc.idle 0x01A5 with batch := [], wire := [0xAE], resp := [.ok] } = true := by decide  -- R188 step 15
theorem test_stepEnd_next : goesTo (exec (.stepEnd .accept) { sending ⟨.fin, 0, false⟩ 0 with
    batch := [[0x8E], [7, 0, 0, 0]] })
    { sending ⟨.sof, 0, false⟩ 0 with
      batch := [[0x8E], [7, 0, 0, 0]], bpos := 1, xLenLo := 4, xPidx := 1, xPtot := 1, plen := 4,
      pbuf := [(0, 7), (1, 0), (2, 0), (3, 0)], wire := [0xAE] } = true := by decide  -- P3, second packet

theorem test_sof : goesTo (exec .sof (sending ⟨.sof, 0, false⟩ 0))
    { sending ⟨.hdr, 0, false⟩ 0 with
    wire := [0xA5], result := some (.ok (.bytes [0xA5])) } = true := by decide
theorem test_eof : goesTo (exec .eof (sending ⟨.fin, 0, false⟩ 0))
    { sending Pc.idle 0 with
    batch := [], wire := [0xAE], resp := [.ok], result := some (.ok (.bytes [0xAE])) } = true := by decide
theorem test_escA5 : goesTo (exec .escA5 (sendingA5 ⟨.hdr, 2, false⟩ 0x009A))
    { sendingA5 ⟨.hdr, 3, false⟩ 0x013F with
    wire := [0xAA, 5], result := some (.ok (.bytes [0xAA, 5])) } = true := by decide  -- T2 steps 4, 5
theorem test_escAA : goesTo (exec .escAA (sendingA5 ⟨.pay, 0, false⟩ 0x01BD))
    { sendingA5 ⟨.ckl, 0, false⟩ 0x0267 with
    wire := [0xAA, 0x0A], result := some (.ok (.bytes [0xAA, 0x0A])) } = true := by decide  -- T2 steps 12, 13
theorem test_escAE : goesTo (exec .escAE (sending ⟨.ckl, 0, false⟩ 0x01AE))
    { sending ⟨.ckh, 0, false⟩ 0x01AE with
    wire := [0xAA, 0x0E], result := some (.ok (.bytes [0xAA, 0x0E])) } = true := by decide  -- F7, AE-dependent
theorem test_literal : goesTo (exec (.literal 0x8E) (sending ⟨.pay, 0, false⟩ 0x0117))
    { sending ⟨.ckl, 0, false⟩ 0x01A5 with wire := [0x8E], result := some (.ok (.bytes [0x8E])) } = true := by decide  -- R188 step 11
theorem test_literal_reserved : isRefused (exec (.literal 0xAA) .reset) .notALiteral = true := by decide

/-! The machine's step. -/

/-- R173 and R178 read no `esc`; R170: at IDLE the sequencer has no step. -/
theorem test_delimiter_reads_no_esc : goesTo (step { sending ⟨.sof, 0, true⟩ 7 with inputs := [.clock ⟨false, true, false, 0⟩] })
    { sending ⟨.hdr, 0, false⟩ 0 with wire := [0xA5] } = true := by decide
theorem test_idle_word : goesTo (step { State.reset with inputs := [.word (.seqStep .accept) [0b0000]] }) State.reset = true := by
  decide
/-- A clock edge runs the sequencer's own step. -/
theorem test_step_clock : goesTo (step { sending ⟨.pay, 0, false⟩ 0x0117 with inputs := [.clock ⟨false, true, false, 0⟩] })
    { sending ⟨.ckl, 0, false⟩ 0x01A5 with wire := [0x8E] } = true := by decide
/-- `rst` wins over the sink's answer. T8. -/
theorem test_step_reset : goesTo (step { sending ⟨.hdr, 3, false⟩ 0x009B with
    wire := [0xA5, 0x68, 0x32, 0x01], inputs := [.clock ⟨true, true, true, 9⟩] })
    { State.reset with pbuf := [(0, 0x8E)], wire := [0xA5, 0x68, 0x32, 0x01] } = true := by decide
/-- A placed word is the next instruction. -/
theorem test_withFetchWord : goesTo (step (State.reset.withFetchWord 32 0x07010000))
    (State.reset.withBytes [7, 1, 0, 0]) = true := by decide
/-- A sequencer step's word, from reset. -/
theorem test_withFetchWord_step : goesTo (step (State.reset.withFetchWord 4 0b0010))
    { loaded 0 [0] with
    wire := [0xA5], pc := ⟨.hdr, 0, false⟩ } = true := by decide
/-- The status registers while the second byte of a pair is owed in CKL, in queue mode: bits 5:3 = 4, ESC, QEN, BUSY. -/
theorem test_status : { sending ⟨.ckl, 0, true⟩ 0x01A5 with queueEnabled := true }.readStatus 0 = some 0b100111 := by decide

end

/-! ## Witnesses: values that meet the hypotheses of each statement, clause by clause -/

/-- An idle state with a queue meets the invariant. -/
theorem idleWith_inv (q : Bool) {P : List Bytes} (h1 : ∀ p ∈ P, p.length ≤ 65535) (h2 : P.length ≤ Config.qdepth) :
    (idleWith q P).Inv where
  conf := .inl rfl
  loaded := fun h => absurd rfl h
  pendingLengths := h1
  batchLengths := by simp [idleWith, State.reset]
  pendingDepth := h2
  batchDepth := by simp [idleWith, State.reset]
  idleBatch := ⟨fun _ => rfl, fun _ => rfl⟩
  idleBpos := fun _ => rfl
  position := rfl
  pair := by simp [idleWith, State.reset]
  buffer := rfl

theorem one_inv (q : Bool) : (idleWith q [[6]]).Inv :=
  idleWith_inv q (by simp) (by simpa using Config.qdepth_pos)

set_option maxRecDepth 4000 in
/-- A packet of one byte in flight, at a position that exists, meets the invariant. -/
theorem sending_inv (p : Pc) (a : Half) (hb : p.phase ≠ .idle) (hp : (sending p a).positionOk = true)
    (he : p.esc = true → ∃ b, (sending p a).cur = some b ∧ reserved b = true) : (sending p a).Inv where
  conf := .inl rfl
  loaded := fun _ =>
    ⟨Nat.zero_lt_one, rfl, rfl, rfl, rfl, rfl, rfl, fun a ha => by
      have : a = 0 := Nat.lt_one_iff.1 ha
      subst this
      rfl⟩
  pendingLengths := by simp [sending, State.withPacket, State.writeX, State.reset]
  batchLengths := by simp [sending, State.withPacket, State.writeX]
  pendingDepth := Nat.zero_le _
  batchDepth := Config.qdepth_pos
  idleBatch := ⟨fun h => absurd h hb, fun h => by cases h⟩
  idleBpos := fun _ => rfl
  position := hp
  pair := he
  buffer := rfl

theorem empty_inv (q : Bool) : (idleWith q []).Inv := idleWith_inv q (by simp) (Nat.zero_le _)

/-- What is placed to arrive is no part of the invariant. -/
theorem placed_inv {q : Bool} {P : List Bytes} (h : (idleWith q P).Inv) (l : List Input) :
    ({ idleWith q P with inputs := l } : State).Inv :=
  ⟨h.conf, fun x => absurd rfl x, h.pendingLengths, h.batchLengths, h.pendingDepth, h.batchDepth, h.idleBatch, h.idleBpos,
    h.position, h.pair, h.buffer⟩

theorem sending_sof_inv : (sending ⟨.sof, 0, false⟩ 0).Inv := sending_inv _ _ (by decide) (by decide) (by simp)
theorem sending_hdr_inv : (sending ⟨.hdr, 8, false⟩ 0).Inv := sending_inv _ _ (by decide) (by decide) (by simp)
theorem sending_pay_inv : (sending ⟨.pay, 0, false⟩ 0).Inv := sending_inv _ _ (by decide) (by decide) (by simp)
theorem sending_fin_inv : (sending ⟨.fin, 0, false⟩ 0).Inv := sending_inv _ _ (by decide) (by decide) (by simp)
theorem sending_pair_inv : (sending ⟨.ckl, 0, true⟩ 0x01A5).Inv :=
  sending_inv _ _ (by decide) (by decide) (fun _ => ⟨0xA5, by decide, by decide⟩)
theorem sending_ckl_inv (a : Half) : (sending ⟨.ckl, 0, false⟩ a).Inv := sending_inv _ _ (by decide) rfl (by simp)
theorem sending_ckh_inv (a : Half) : (sending ⟨.ckh, 0, false⟩ a).Inv := sending_inv _ _ (by decide) rfl (by simp)

theorem accepts_only (n : Nat) : noFailure (List.replicate n .accept) := by
  intro e h
  cases List.eq_of_mem_replicate h

theorem test_witness_division : (longW 255).length ≤ 255 ∧ ([] : List Window).length ≤ 255 := by simp
theorem test_witness_scrolling : 7 < (scr 8 []).window.toNat ∧
    ((scr 7 (long 65526)).window.toNat ≤ 7 ∧ 65525 < (scr 7 (long 65526)).ft.length) ∧
    ((scr 7 (long 65525)).window.toNat ≤ 7 ∧ (scr 7 (long 65525)).ft.length ≤ 65525) := by simp [scr]
theorem test_witness_image : 7 < (img 8 []).window.toNat ∧
    ((img 7 (long 65526)).window.toNat ≤ 7 ∧ 65525 < (img 7 (long 65526)).img.length) ∧
    ((img 7 (long 65525)).window.toNat ≤ 7 ∧ (img 7 (long 65525)).img.length ≤ 65525) := by simp [img]
theorem longT_ascii (n : Nat) : firstBad (longT n) = none := by simp [firstBad, longT]
theorem test_witness_static : 7 < (sta 8 []).window.toNat ∧
    ((sta 7 [127, 128]).window.toNat ≤ 7 ∧ firstBad (sta 7 [127, 128]).text = some 128) ∧
    ((sta 7 (longT 65520)).window.toNat ≤ 7 ∧ firstBad (sta 7 (longT 65520)).text = none ∧
      65519 < (sta 7 (longT 65520)).text.length) ∧
    ((sta 7 (longT 65519)).window.toNat ≤ 7 ∧ firstBad (sta 7 (longT 65519)).text = none ∧
      (sta 7 (longT 65519)).text.length ≤ 65519) := by
  simp only [sta, longT_ascii, longT_length]
  decide
theorem test_witness_clock : 7 < (clk 8 0 []).window.toNat ∧
    ((clk 7 8 []).window.toNat ≤ 7 ∧ 7 < (clk 7 8 []).fontSize.toNat) ∧
    ((clk 7 7 [128]).window.toNat ≤ 7 ∧ (clk 7 7 [128]).fontSize.toNat ≤ 7 ∧ firstBad (clk 7 7 [128]).text = some 128) ∧
    ((clk 7 7 (longT 65525)).window.toNat ≤ 7 ∧ (clk 7 7 (longT 65525)).fontSize.toNat ≤ 7 ∧
      firstBad (clk 7 7 (longT 65525)).text = none ∧ 65524 < (clk 7 7 (longT 65525)).text.length) ∧
    ((clk 7 7 (longT 65524)).window.toNat ≤ 7 ∧ (clk 7 7 (longT 65524)).fontSize.toNat ≤ 7 ∧
      firstBad (clk 7 7 (longT 65524)).text = none ∧ (clk 7 7 (longT 65524)).text.length ≤ 65524) := by
  simp only [clk, longT_ascii, longT_length]
  decide
/-- Both forms of `format_flags`. -/
theorem test_witness_clock_flags : (clk 0 0 []).format = .flags false true false ∧
    ({ clk 0 0 [] with format := .direct 0xFF } : ClockArgs).format = .direct 0xFF := ⟨rfl, rfl⟩
theorem test_witness_raw : (long 65535).length ≤ 65535 ∧ 65535 < (long 65536).length ∧ (long 65534).length ≤ 65534 ∧
    65534 < (long 65535).length := by simp
theorem test_witness_formatText : (1 : BitVec 3) ≠ 0 ∧ ((0x00#8).toNat < 1 ∨ 7 < (0x00#8).toNat) ∧
    ((0x08#8).toNat < 1 ∨ 7 < (0x08#8).toNat) ∧
    (1 ≤ (0x07#8).toNat ∧ (0x07#8).toNat ≤ 7 ∧ 15 < (0x10#8).toNat) ∧
    (1 ≤ (0x01#8).toNat ∧ (0x01#8).toNat ≤ 7 ∧ (0x0F#8).toNat ≤ 15 ∧ firstBad [127, 128] = some 128) ∧
    (1 ≤ (0x07#8).toNat ∧ (0x07#8).toNat ≤ 7 ∧ (0x0F#8).toNat ≤ 15 ∧ firstBad [127] = none) := by decide
theorem test_witness_ascii : firstBad [127, 128, 129] = some 128 ∧ firstBad [0, 127] = none ∧
    (long 65535).length ≤ 65535 ∧ 65535 < (long 65536).length := by
  refine ⟨by decide, by decide, ?_⟩
  simp
theorem test_witness_expressible : Command.expressible .exit = true ∧ Command.expressible (.division (longW 255)) = true ∧
    Command.expressible (.division (longW 256)) = false ∧ HostOp.expressible (.enqueue (.division (longW 255))) = true := by
  simp [Command.expressible, HostOp.expressible]
theorem test_witness_rgb : (1 ≤ (0x01#8).toNat ∧ (0x01#8).toNat ≤ 7) ∧ (1 ≤ (0x07#8).toNat ∧ (0x07#8).toNat ≤ 7) ∧
    ((0x00#8).toNat < 1 ∨ 7 < (0x00#8).toNat) ∧ ((0x08#8).toNat < 1 ∨ 7 < (0x08#8).toNat) := by decide
theorem test_witness_escape : escape [0xA4, 0xAA] = [0xA4] ++ 0xAA :: [0x0A] ∧ escape [0xA5] = escape [0xA5] := by decide
theorem test_witness_unescape : (∀ p, escape p ≠ [0xA5]) ∧ escape [0xA5] = [0xAA, 0x05] := by
  refine ⟨fun p h => ?_, rfl⟩
  cases p with
  | nil => cases h
  | cons b p =>
    simp only [escape, escapeByte] at h
    split at h <;> try cases h
    split at h <;> try cases h
    split at h <;> try cases h
    rename_i h5
    exact h5 (List.cons.inj h).1
theorem test_witness_packet : State.reset.pc.phase = .idle ∧ (long 65535).length ≤ 65535 ∧ ([] : Bytes).length ≤ 65535 := by
  refine ⟨rfl, ?_⟩
  simp
/-- `exec`: an error and a payload of the encoder; a full and a free queue; the sink's answers at the ends of their ranges. -/
theorem test_witness_summary : (∃ e, encodeCmd (.scrollingText (scr 8 [])) = .err e) ∧ (∃ p, encodeCmd .exit = .ok p) ∧
    (List.replicate Config.qdepth ([] : Bytes)).length = Config.qdepth ∧ ([] : List Bytes).length < Config.qdepth ∧
    (some (0, (7 : Byte)) = some (0, 7) ∧ 0 < [[(6 : Byte)]].length) ∧
    (∀ n e, some (1, (7 : Byte)) = some (n, e) → [[(6 : Byte)]].length ≤ n) ∧
    (∀ e : Byte, (none : Option (Nat × Byte)) ≠ some (0, e)) := by
  refine ⟨⟨_, rfl⟩, ⟨_, rfl⟩, List.length_replicate, Config.qdepth_pos, ⟨rfl, by decide⟩, ?_, by simp⟩
  intro n e h
  cases h
  decide
theorem test_witness_refused : State.reset.pc.phase ≠ .sof ∧ (sending ⟨.hdr, 0, true⟩ 0).pc.esc = true ∧
    State.reset.pc.esc = false ∧ 255 < (longW 256).length ∧ 65535 < (long 65536).length ∧
    (sending ⟨.fin, 0, false⟩ 0).pc.phase ≠ .idle ∧ State.reset.pc.phase = .idle := by
  refine ⟨by decide, by decide, by decide, by simp, by simp, by decide, by decide⟩
/-- Too many windows, for a SEND in queue mode and for one at IDLE. -/
theorem test_witness_refused_send : 255 < (longW 256).length ∧ (idleWith true []).queueEnabled = true ∧
    (State.reset.queueEnabled = false ∧ State.reset.pc.phase = .idle) := by simp [idleWith, State.reset]
/-- Every position a STEP row is not taken in is shut out by its phase or its `esc`. -/
theorem test_witness_refused_steps : (sending ⟨.hdr, 0, true⟩ 0).pc.phase ≠ .pay ∧
    (sending ⟨.ckl, 0, false⟩ 0).pc.phase ≠ .ckh ∧ (sending ⟨.ckh, 0, false⟩ 0).pc.phase ≠ .fin ∧
    (sending ⟨.fin, 0, false⟩ 0).pc.phase ≠ .hdr ∧ (sending ⟨.pay, 0, false⟩ 0).pc.phase ≠ .ckl := by decide
/-- ENQUEUE and a queued SEND: outside queue mode, on a full queue, and on a free one. -/
theorem test_witness_enqueue : (idleWith false []).queueEnabled = false ∧
    ((idleWith true (List.replicate Config.qdepth [])).queueEnabled = true ∧
      (idleWith true (List.replicate Config.qdepth [])).pending.length = Config.qdepth) ∧
    ((idleWith true []).queueEnabled = true ∧ (idleWith true []).pending.length < Config.qdepth) :=
  ⟨rfl, ⟨rfl, List.length_replicate⟩, rfl, Config.qdepth_pos⟩
/-- A command for each kind of error the encoder gives, each of them expressible. -/
theorem test_witness_encoder_errors :
    (encodeCmd (.scrollingText (scr 8 [])) = .err ⟨.invalidWindow, some 8⟩ ∧ encodeCmd (.clock (clk 0 8 [])) = .err ⟨.invalidFontSize, some 8⟩ ∧
      (∃ n, encodeCmd (.staticText (sta 0 [128])) = .err ⟨.encodingError, n⟩) ∧
      ∃ n, encodeCmd (.raw (long 65536)) = .err ⟨.payloadTooLarge, n⟩) ∧
    Command.expressible (.scrollingText (scr 8 [])) = true ∧ Command.expressible (.clock (clk 0 8 [])) = true ∧
    Command.expressible (.staticText (sta 0 [128])) = true ∧ Command.expressible (.raw (long 65536)) = true :=
  ⟨⟨rfl, rfl, ⟨_, rfl⟩, _, by simp [encodeCmd, encodeRaw, checkLen]; rfl⟩, rfl, rfl, rfl, rfl⟩
theorem test_witness_send : Command.expressible .exit = true ∧ State.reset.queueEnabled = false ∧
    State.reset.pc.phase = .idle ∧ encodeCmd .exit = .ok [6] ∧ (∃ e, encodeCmd (.image (img 8 [])) = .err e) :=
  ⟨rfl, rfl, rfl, rfl, ⟨_, rfl⟩⟩
theorem test_witness_flush : (idleWith false []).queueEnabled = false ∧ (idleWith true []).pending = [] ∧
    (idleWith true (long 65535 :: longQ 255)).pending = long 65535 :: longQ 255 ∧
    (long 65535).length ≤ 65535 ∧ (idleWith true (long 65535 :: longQ 255)).pending.length ≤ 256 ∧
    (idleWith true (long 65535 :: longQ 255)).pc.phase = .idle := by
  refine ⟨rfl, rfl, rfl, by simp, ?_, rfl⟩
  simp [idleWith]
/-- A FLUSH, and a direct SEND, at the head of the port of a busy block. -/
theorem test_witness_waits :
    let s : State := { sending ⟨.hdr, 2, false⟩ 0 with port := [.flush 1 true, .beginQueue], inputs := [.host] }
    let u : State := { sending ⟨.hdr, 2, false⟩ 0 with port := [.send 1 true .exit], inputs := [.host] }
    s.pc.phase ≠ .idle ∧ s.port = .flush 1 true :: [.beginQueue] ∧ s.inputs = .host :: [] ∧
    u.pc.phase ≠ .idle ∧ u.port = .send 1 true .exit :: [] ∧ u.queueEnabled = false := by decide
/-- An operation accepted while a frame is leaving (P4, line 4, with BEGIN_QUEUE). -/
theorem test_witness_in_flight : (sending ⟨.hdr, 2, false⟩ 0).pc.phase ≠ .idle ∧
    ∃ t, exec (toInstr .beginQueue) (sending ⟨.hdr, 2, false⟩ 0) = .next t := ⟨by decide, _, rfl⟩

theorem test_witness_stepSof : (sending ⟨.sof, 0, false⟩ 0).pc.phase = .sof ∧ (sending ⟨.sof, 0, false⟩ 0).pc.esc = false :=
  ⟨rfl, rfl⟩
/-- A header byte that is reserved, one that is not, the last one before a payload, and the last one of an empty packet. -/
theorem test_witness_stepHdr : (sendingA5 ⟨.hdr, 2, false⟩ 0).readX 2 = some 0xA5 ∧
    (sendingA5 ⟨.hdr, 0, false⟩ 0).readX 0 = some 0x68 ∧ (sendingA5 ⟨.hdr, 8, false⟩ 0).readX 8 = some 0 ∧
    ({ sendingA5 ⟨.hdr, 8, false⟩ 0 with plen := 0 } : State).readX 8 = some 0 := by decide
/-- The last payload byte, bare and reserved; `idx < plen`. -/
theorem test_witness_stepPay : (sending ⟨.pay, 0, false⟩ 0).pbuf.read 0 = some 0x8E ∧
    (sendingA5 ⟨.pay, 0, false⟩ 0).pbuf.read 0 = some 0xAA ∧
    (sending ⟨.pay, 0, false⟩ 0).pc.idx.toNat < (sending ⟨.pay, 0, false⟩ 0).plen.toNat := by decide
theorem test_witness_stepEsc2 : (sending ⟨.ckl, 0, true⟩ 0x01A5).Inv ∧ (sending ⟨.ckl, 0, true⟩ 0x01A5).pc.esc = true ∧
    (sending ⟨.ckl, 0, true⟩ 0x01A5).cur = some 0xA5 := ⟨sending_pair_inv, rfl, by decide⟩
theorem test_witness_checksum_steps : (sending ⟨.ckl, 0, false⟩ 0x01A5).pc.esc = false ∧
    (sending ⟨.ckl, 0, false⟩ 0x01A5).pc.phase = .ckl ∧ (sending ⟨.ckh, 0, false⟩ 0xA516).pc.phase = .ckh := ⟨rfl, rfl, rfl⟩
/-- The last packet, and the last but one of a group of 256. -/
theorem test_witness_stepEnd : (sending ⟨.fin, 0, false⟩ 0).batch.length ≤ (sending ⟨.fin, 0, false⟩ 0).bpos.toNat + 1 ∧
    (let s : State := { sending ⟨.fin, 0, false⟩ 0 with batch := longQ 255 ++ [long 65535], bpos := 254 }
     s.pc.phase = .fin ∧ s.pc.esc = false ∧ s.batch[s.bpos.toNat + 1]? = some (long 65535) ∧ (long 65535).length ≤ 65535 ∧
      s.batch.length ≤ 256) := by
  refine ⟨by decide, rfl, rfl, ?_, by simp, by simp⟩
  show (longQ 255 ++ [long 65535])[255]? = some (long 65535)
  rw [List.getElem?_append_right (by simp)]
  simp
theorem test_witness_stall : (sending ⟨.pay, 0, false⟩ 0).pc.esc = false ∧ (sending ⟨.ckl, 0, true⟩ 0x01A5).pc.esc = true ∧
    (sending ⟨.ckl, 0, true⟩ 0x01A5).Inv := ⟨rfl, rfl, sending_pair_inv⟩
theorem test_witness_failure : (sending ⟨.sof, 0, false⟩ 0).Inv ∧ (sending ⟨.sof, 0, false⟩ 0).pc.phase ≠ .idle ∧
    (sending ⟨.fin, 0, false⟩ 0).Inv ∧ (sending ⟨.fin, 0, false⟩ 0).pc.phase ≠ .idle :=
  ⟨sending_sof_inv, by decide, sending_fin_inv, by decide⟩
/-- Each phase, the position at its end, and an accepted step. -/
theorem test_witness_offer : (sending ⟨.sof, 0, false⟩ 0).Inv ∧ (sending ⟨.hdr, 8, false⟩ 0).Inv ∧
    (sending ⟨.pay, 0, false⟩ 0).Inv ∧ (sending ⟨.ckl, 0, true⟩ 0x01A5).Inv ∧ (sending ⟨.ckh, 0, false⟩ 0xA516).Inv ∧
    (sending ⟨.fin, 0, false⟩ 0).Inv ∧ (idleWith false []).Inv ∧
    (∃ t, sequencerStep .accept (sending ⟨.sof, 0, false⟩ 0) = .next t) :=
  ⟨sending_sof_inv, sending_hdr_inv, sending_pay_inv, sending_pair_inv, sending_ckh_inv _, sending_fin_inv,
    empty_inv _, _, rfl⟩
/-- No wire symbol is offered at IDLE; at the same byte with a pair half sent the symbol is not offered either. -/
theorem test_witness_not_offered : State.reset.pc.phase ≠ .sof ∧ State.reset.pc.phase ≠ .fin ∧ State.reset.cur ≠ some 0xAA ∧
    State.reset.cur ≠ some 0xAE ∧ State.reset.cur ≠ some 0xA5 ∧
    ((sending ⟨.ckl, 0, true⟩ 0x01A5).cur = some 0xA5 ∧ (sending ⟨.ckl, 0, true⟩ 0x01A5).pc.esc = true) ∧
    ((0xA4 : Byte) ≠ 0xA5 ∧ (0xA4 : Byte) ≠ 0xAA ∧ (0xA4 : Byte) ≠ 0xAE ∧ State.reset.cur ≠ some 0xA4) := by decide
theorem test_witness_offered : ((sending ⟨.ckl, 0, false⟩ 0x01AA).Inv ∧ (sending ⟨.ckl, 0, false⟩ 0x01AA).cur = some 0xAA) ∧
    ((sending ⟨.ckl, 0, false⟩ 0x01AE).Inv ∧ (sending ⟨.ckl, 0, false⟩ 0x01AE).cur = some 0xAE) ∧
    ((sending ⟨.ckh, 0, false⟩ 0xA516).Inv ∧ (sending ⟨.ckh, 0, false⟩ 0xA516).cur = some 0xA5) ∧
    ((sending ⟨.pay, 0, false⟩ 0).Inv ∧ (sending ⟨.pay, 0, false⟩ 0).cur = some 0x8E) :=
  ⟨⟨sending_ckl_inv _, by decide⟩, ⟨sending_ckl_inv _, by decide⟩, ⟨sending_ckh_inv _, by decide⟩,
    sending_pay_inv, by decide⟩
/-- SOF and EOF where they are offered: the start of a packet, the end of the last one, the end of the last but one of 256. -/
theorem test_witness_offered_markers :
    ((sending ⟨.sof, 0, false⟩ 0).pc.phase = .sof ∧ (sending ⟨.sof, 0, false⟩ 0).pc.esc = false) ∧
    ((sending ⟨.fin, 0, false⟩ 0).pc.phase = .fin ∧ (sending ⟨.fin, 0, false⟩ 0).pc.esc = false ∧
      (sending ⟨.fin, 0, false⟩ 0).batch.length ≤ (sending ⟨.fin, 0, false⟩ 0).bpos.toNat + 1) ∧
    (let s : State := { sending ⟨.fin, 0, false⟩ 0 with batch := longQ 255 ++ [long 65535], bpos := 254 }
     s.pc.phase = .fin ∧ s.pc.esc = false ∧ s.batch[s.bpos.toNat + 1]? = some (long 65535) ∧ (long 65535).length ≤ 65535 ∧
      s.batch.length ≤ 256) := ⟨⟨rfl, rfl⟩, ⟨rfl, rfl, test_witness_stepEnd.1⟩, test_witness_stepEnd.2⟩

section
set_option maxRecDepth 4000

/-- R188: fifteen bytes taken, a stall in between. -/
theorem test_witness_one_packet : (sending ⟨.sof, 0, false⟩ 0).Inv ∧ (sending ⟨.sof, 0, false⟩ 0).pc = ⟨.sof, 0, false⟩ ∧
    noFailure (.stall :: List.replicate 15 .accept) ∧
    accepts (.stall :: List.replicate 15 .accept) = (makeFrame 1 (0x00#8 == 0x01#8) [0x8E] 0 0).length ∧
    (sending ⟨.sof, 0, false⟩ 0).payload = [0x8E] :=
  ⟨sending_sof_inv, rfl, fun e h => accepts_only 15 e ((List.mem_cons.1 h).resolve_left (by simp)), by decide, by decide⟩
/-- P1. -/
theorem test_witness_direct_send :
    let s : State := { idleWith false [] with
      inputs := .issue (.send 1 false .exit) :: .host :: clocks (List.replicate 14 .accept) }
    s.Inv ∧ encodeCmd .exit = .ok [6] ∧ s.queueEnabled = false ∧ s.pc.phase = .idle ∧ s.port = [] ∧
    noFailure (List.replicate 14 .accept) ∧ accepts (List.replicate 14 .accept) = (makeFrame 1 false [6] 0 0).length :=
  ⟨placed_inv (empty_inv false) _, rfl, rfl, rfl, rfl, accepts_only _, by decide⟩
/-- O8. -/
theorem test_witness_flush_group :
    let s : State := { idleWith true [[6]] with
      inputs := .issue (.flush 1 false) :: .host :: clocks (List.replicate 14 .accept) }
    s.Inv ∧ s.queueEnabled = true ∧ s.pc.phase = .idle ∧ s.pending ≠ [] ∧ s.port = [] ∧
    noFailure (List.replicate 14 .accept) ∧
    accepts (List.replicate 14 .accept) = (s.pending.mapIdx fun i p =>
      makeFrame 1 false p (BitVec.ofNat 8 i) (BitVec.ofNat 8 (s.pending.length - 1))).flatten.length :=
  ⟨placed_inv (one_inv true) _, rfl, rfl,
    by decide, rfl, accepts_only _, by decide⟩
/-- T5 and T7, by a FLUSH: the failure at the first offer, and at the offer of the last end delimiter. -/
theorem test_witness_failed_flush : noFailure [] ∧ noFailure (List.replicate 13 .accept) ∧
    accepts [] < (([[(6 : Byte)]].mapIdx fun i p => makeFrame 1 false p (BitVec.ofNat 8 i) 0).flatten).length ∧
    accepts (List.replicate 13 .accept) <
      (([[(6 : Byte)]].mapIdx fun i p => makeFrame 1 false p (BitVec.ofNat 8 i) 0).flatten).length :=
  ⟨accepts_only 0, accepts_only 13, by decide, by decide⟩

end

theorem test_witness_summary_run : (idleWith true [[6]]).Inv ∧ HostOp.expressible (.flush 1 false) = true ∧
    (idleWith true [[6]]).pc.phase = .idle ∧ (idleWith true [[6]]).port = [] := ⟨one_inv true, rfl, rfl, rfl⟩
/-- The bound: 22 accepted bytes for a payload of one byte. -/
theorem test_witness_completion : (sending ⟨.sof, 0, false⟩ 0).Inv ∧ (sending ⟨.sof, 0, false⟩ 0).pc.phase ≠ .idle ∧
    (sending ⟨.sof, 0, false⟩ 0).bpos = 0 ∧ noFailure (List.replicate 22 .accept) ∧
    ((sending ⟨.sof, 0, false⟩ 0).batch.map fun p => 2 * p.length + 20).sum ≤ accepts (List.replicate 22 .accept) :=
  ⟨sending_sof_inv, by decide, rfl, accepts_only _, by decide⟩
theorem test_witness_reset_edge : (⟨true, true, true, 9⟩ : Pins).rst = true ∧
    ({ State.reset with inputs := [.clock ⟨true, true, true, 9⟩] } : State).inputs = .clock ⟨true, true, true, 9⟩ :: [] :=
  ⟨rfl, rfl⟩
theorem test_witness_registers : ((2 = 2 ∨ (4 ≤ 2 ∧ 2 ≤ 8)) ∧ (4 = 2 ∨ (4 ≤ 4 ∧ 4 ≤ 8)) ∧ (8 = 2 ∨ (4 ≤ 8 ∧ 8 ≤ 8))) ∧
    (2 : Nat) ≠ 3 ∧ (State.reset.readX 8).isSome = true ∧ (State.reset.readX 9).isSome = false := by decide
theorem test_witness_status : (sending ⟨.ckl, 0, true⟩ 0x01A5).Inv ∧ (5 ≤ 5) := ⟨sending_pair_inv, Nat.le_refl _⟩
/-- The pins and ERRV on both sides: idle and sending, without an error and after a failed FLUSH. -/
theorem test_witness_pins : ((sending ⟨.fin, 0, false⟩ 0).Inv ∧ (sending ⟨.fin, 0, false⟩ 0).txValid = true ∧
      (sending ⟨.fin, 0, false⟩ 0).txLast = true ∧ (sending ⟨.fin, 0, false⟩ 0).txData = some 0xAE) ∧
    ((idleWith false []).Inv ∧ (idleWith false []).txValid = false ∧ (idleWith false []).errv = false) ∧
    ({ idleWith false [] with errCode := 7 } : State).errv = true :=
  ⟨⟨sending_fin_inv, by decide, by decide, by decide⟩, ⟨empty_inv _, by decide, by decide⟩, by decide⟩
/-- A step from a state that meets the invariant, in queue mode, with no reset next. -/
theorem test_witness_step :
    let s : State := { idleWith true [[6]] with inputs := [.host] }
    s.Inv ∧ s.queueEnabled = true ∧ (∃ t, step s = .next t) ∧ s.resetNext = false :=
  ⟨placed_inv (one_inv true) _, rfl, ⟨_, rfl⟩, rfl⟩
/-- An instruction after which the wire has grown. -/
theorem test_witness_emits : ∃ t, exec (.stepSof .accept) (sending ⟨.sof, 0, false⟩ 0) = .next t ∧
    t.wire ≠ (sending ⟨.sof, 0, false⟩ 0).wire := ⟨_, rfl, by decide⟩
theorem test_witness_pure : (encode .exit).1 = .payload ∧ (encode (.ftCell 1 0 0)).1 = .cell ∧
    (encode (.header 0 false 0 0 0 0)).1 = .header ∧ (encode (.checksumField 0 0)).1 = .checksum ∧
    Instr.isFunction (.escape []) = true ∧ (∃ t, exec .exit State.reset = .next t) :=
  ⟨rfl, rfl, rfl, rfl, rfl, _, rfl⟩
theorem test_witness_clock_edge : (⟨false, false, true, 7⟩ : Pins).rst = false ∧ (sending ⟨.fin, 0, false⟩ 0).Inv ∧
    (sending ⟨.fin, 0, false⟩ 0).pc.phase ≠ .idle ∧ (idleWith false []).pc.phase = .idle :=
  ⟨rfl, sending_fin_inv, by decide, rfl⟩
/-- A word at an empty port, and behind a waiting operation. -/
theorem test_witness_decoded : decode .payload [0x06] = .ok .exit ∧ hostOpOf .exit = none ∧
    decode (.hostOp noOperands) [0b10] = .ok (.flush 0 false) ∧ hostOpOf (.flush 0 false) = some (.flush 0 false) ∧
    ({ State.reset with port := [.beginQueue] } : State).port ≠ [] ∧ State.reset.port = [] := by decide
/-- A word of the phase IDLE at IDLE; a word that is no instruction, busy and at IDLE. -/
theorem test_witness_words : (State.reset.pc.phase = .idle ∧ (0b0001#8).toNat < 2) ∧
    ((sending ⟨.hdr, 2, false⟩ 0).pc.phase ≠ .idle ∧ decode .wire [0xAA, 0x0B] = .error .notAWireSymbol) ∧
    (decode (.seqStep .accept) [0b1110] = .error .notAStep ∧ 2 ≤ (0b1110#8).toNat) := by decide
theorem test_witness_wellFormed : (Instr.scrollingText (scr 7 (long 65525))).wellFormed = true ∧
    (Instr.reserved11 (long 65534)).wellFormed = true ∧ (Instr.ftCell 7 15 127).wellFormed = true ∧
    (∀ bs, Instr.ftCell 7 15 127 ≠ .raw bs) := by
  refine ⟨?_, ?_, by decide, by simp⟩ <;> simp [Instr.wellFormed, ScrollingArgs.wellFormed, scr]
theorem test_witness_payload : (long 65535).length ≤ 65535 ∧ ([] : Bytes).length ≤ 65535 ∧ 65535 < (long 65536).length := by simp

end Sys2Proof.Tests
end

section
/-! SUPPORT. What one instruction and one step of the machine can do, said once in every state: the rows fall into a few kinds,
and a step runs an instruction, changes what waits outside only, resets, or rejects a word. -/

namespace Sys2Proof.Machine

variable {s t : State}

/-! ## What one instruction can do -/

/-- The outcomes of an instruction at a state, by kind. -/
inductive ExecCase (s : State) : Step → Prop
  /-- Any row whose operands or position the spec gives no meaning. -/
  | refused (e : Refusal) : ExecCase s (.refused e)
  /-- A pure row, and a wire symbol the sequencer does not offer. -/
  | recorded (r : Result FnValue) : ExecCase s (.next (s.deliver r))
  /-- A host operation that only completes: an error, or a FLUSH of an empty queue. -/
  | completed (r : Response) : ExecCase s (.next (s.complete r))
  /-- BEGIN_QUEUE. -/
  | begun : ExecCase s (.next (({ s with queueEnabled := true, pending := [] } : State).complete .ok))
  /-- ENQUEUE, and SEND in queue mode. -/
  | queued (p : Bytes) (hl : p.length ≤ 65535) (hd : s.pending.length < Config.qdepth) :
      ExecCase s (.next ((s.pushPending p).complete .ok))
  /-- SEND and FLUSH while the sequencer is busy. -/
  | waiting (op : HostOp) : ExecCase s (.next { s with port := op :: s.port })
  /-- The row `load_packet`. -/
  | packet (u : Byte) (c : Bool) (p : Bytes) (i k : Byte) (hp : s.pc.phase = .idle) (hl : p.length ≤ 65535) :
      ExecCase s (.next (s.withPacket u c p i k))
  /-- A direct SEND accepted. -/
  | sent (u : Byte) (c : Bool) (p : Bytes) (hl : p.length ≤ 65535) : ExecCase s (startOperation p [] u c s)
  /-- A FLUSH accepted. -/
  | flushed (u : Byte) (c : Bool) (p : Bytes) (rest : List Bytes) (hp : s.pending = p :: rest) :
      ExecCase s (startOperation p rest u c { s with pending := [] })
  /-- A STEP row at the sequencer's own position. -/
  | stepped (a : Answer) : ExecCase s (sequencerStep a s)
  /-- STEP_ESC2 named for a phase that has no body byte, in a state that stands there with `esc`. -/
  | misplaced (a : Answer) (hb : s.pc.phase.isBody = false) (he : s.pc.esc = true) :
      ExecCase s (answered a acceptPair s)
  /-- A wire symbol of one byte the sequencer offers. -/
  | symbol (r : Result FnValue) : ExecCase s (sequencerStep .accept (s.deliver r))
  /-- An escape pair the sequencer offers. -/
  | pair (r : Result FnValue) : ExecCase s (takePair (s.deliver r))

/-- A row that needs an expressible operand is refused or runs. -/
theorem ExecCase.of_guard {P : Prop} [Decidable P] {r : Step} (e : Refusal) (h : ExecCase s r) :
    ExecCase s (if P then r else .refused e) := by
  split
  · exact h
  · exact .refused e

theorem ExecCase.of_wireSymbol {bs : Bytes} {offered : Bool} {taken : State → Step}
    (h : ∀ r, ExecCase s (taken (s.deliver r))) : ExecCase s (wireSymbol bs offered taken s) := by
  unfold wireSymbol
  cases offered
  · exact .recorded _
  · exact h _

theorem ExecCase.of_withPayload {cmd : Command} {k : Bytes → Step}
    (h : ∀ p, p.length ≤ 65535 → ExecCase s (k p)) : ExecCase s (withPayload cmd s k) := by
  rcases withPayload_cases cmd s k with ⟨-, hr⟩ | ⟨e, -, -, hr⟩ | ⟨p, -, hp, hr⟩ <;> rw [hr]
  · exact .refused _
  · exact .completed _
  · exact h p (encodeCmd_length hp)

theorem ExecCase.of_appendPending {p : Bytes} (hl : p.length ≤ 65535) :
    ExecCase s (appendPending Config.qdepth p s) := by
  rcases appendPending_cases Config.qdepth p s with ⟨-, hr⟩ | ⟨hd, hr⟩ <;> rw [hr]
  · exact .completed _
  · exact .queued p hl hd

theorem execEnqueue_cases (cmd : Command) (s : State) : ExecCase s (execEnqueue cmd s) := by
  refine .of_withPayload fun p hl => ?_
  split
  · exact .of_appendPending hl
  · exact .completed _

theorem execFlush_cases (u : Byte) (c : Bool) (s : State) : ExecCase s (execFlush u c s) := by
  unfold execFlush acceptFlush
  split
  · exact .waiting _
  · split
    · split
      · exact .completed _
      · exact .flushed u c _ _ ‹_›
    · exact .completed _

theorem execSend_cases (u : Byte) (c : Bool) (cmd : Command) (s : State) : ExecCase s (execSend u c cmd s) := by
  unfold execSend
  split
  · exact .of_withPayload fun p hl => .of_appendPending hl
  · split
    · exact .waiting _
    · exact .of_withPayload fun p hl => .sent u c p hl

theorem execLoadPacket_cases (u : Byte) (c : Bool) (p : Bytes) (i k : Byte) (s : State) :
    ExecCase s (execLoadPacket u c p i k s) := by
  unfold execLoadPacket
  split
  · exact .refused _
  · rename_i hb
    have hp : s.pc.phase = .idle := by simpa [State.busy] using hb
    split
    · rename_i hl
      rw [loadPacket_of_fits hl]
      exact .packet u c p i k hp hl
    · exact .refused _

/-- At its own position a STEP row is the sequencer's step. -/
theorem ExecCase.of_atPhase {p : Phase} {a : Answer} {r : Step} (h : s.pc.phase = p → r = sequencerStep a s) :
    ExecCase s (atPhase p s r) := by
  unfold atPhase
  split
  · rw [h ‹_›]
    exact .stepped a
  · exact .refused _

theorem ExecCase.of_atPosition {p : Phase} {a : Answer} {r : Step}
    (h : s.pc.phase = p → s.pc.esc = false → r = sequencerStep a s) : ExecCase s (atPosition p false s r) := by
  unfold atPosition
  split
  · rename_i hpos
    rw [h hpos.1 hpos.2]
    exact .stepped a
  · exact .refused _

theorem execStepEsc2_cases (p : Phase) (a : Answer) (s : State) : ExecCase s (execStepEsc2 p a s) := by
  unfold execStepEsc2 atPosition
  split
  · rename_i hpos
    obtain ⟨hp, he⟩ := hpos
    cases hb : p.isBody
    · exact .misplaced a (hp ▸ hb) he
    · have hs : sequencerStep a s = answered a acceptPair s := by
        cases p <;> simp [Phase.isBody] at hb <;>
          simp [sequencerStep, hp, he, execStepEsc2, atPosition]
      rw [← hs]
      exact .stepped a
  · exact .refused _

/-- Every instruction, in every state, answers in one of these ways. -/
theorem exec_cases (i : Instr) (s : State) : ExecCase s (exec i s) := by
  cases i with
  | division ws => exact .of_guard _ (.recorded _)
  | scrollingText | image | staticText | clock | exit | save | reset | raw => exact .recorded _
  | reserved8 | reserved9 | reserved10 | reserved11 | ftCell | header | checksumField => exact .recorded _
  | sof | eof => exact .of_wireSymbol fun r => .symbol r
  | escAA | escAE | escA5 => exact .of_wireSymbol fun r => .pair r
  | literal b =>
    simp only [exec, execLiteral]
    split
    · exact .refused _
    · exact .of_wireSymbol fun r => .symbol r
  | beginQueue => exact .begun
  | enqueue cmd => exact execEnqueue_cases cmd s
  | flush u c => exact execFlush_cases u c s
  | send u c cmd => exact execSend_cases u c cmd s
  | stepSof a | stepEnd a =>
    exact .of_atPhase (a := a) fun hp => by simp [sequencerStep, hp, execStepSof, execStepEnd, atPhase]
  | stepHdr a | stepPay a | stepCkl a | stepCkh a =>
    exact .of_atPosition (a := a) fun hp he => by
      simp [sequencerStep, hp, he, execStepHdr, execStepPay, execStepCkl, execStepCkh, atPosition]
  | stepEsc2 p a => exact execStepEsc2_cases p a s
  | encodeCmd cmd => exact .of_guard _ (.recorded _)
  | formatText | asciiBytes | checkLen | rgbOfColor | buildHeader => exact .recorded _
  | checksum | checksumBytes | escape | frame | unescape => exact .recorded _
  | makeFrame => exact .of_guard _ (.recorded _)
  | loadPacket u c p i k => exact execLoadPacket_cases u c p i k s
  | execSummary => exact .of_guard _ (.recorded _)

/-! ## What one step can do -/

/-- The block itself is the same: only what waits outside differs. -/
def SameBlock (s t : State) : Prop := t = { s with port := t.port, inputs := t.inputs, draws := t.draws }

theorem sameBlock_dropInput (s : State) : SameBlock s s.dropInput := by
  unfold SameBlock
  rw [dropInput_eq]

theorem SameBlock.withPort (h : SameBlock s t) (l : List HostOp) : SameBlock s { t with port := l } := by
  unfold SameBlock at h ⊢
  rw [h]

/-- What the next input selects, by kind. -/
inductive FetchCase (s : State) : Fetched → Prop
  | run (i : Instr) (u : State) (hu : SameBlock s u) : FetchCase s (.run i u)
  | quiet (u : State) (hu : SameBlock s u) : FetchCase s (.quiet u)
  | reset (u : State) (hu : SameBlock s u) (hr : s.resetNext = true) : FetchCase s (.quiet u.resetEdge)
  | rejected (e : DecodeError) : FetchCase s (.reject e)

theorem fetchClock_cases {p : Pins} (hn : s.nextInput = .clock p) (ht : SameBlock s t) :
    FetchCase s (fetchClock p t) := by
  unfold fetchClock
  split
  · exact .reset t ht (by simpa [State.resetNext, hn])
  · split
    · exact .run _ t ht
    · exact .quiet t ht

theorem fetchHost_cases (ht : SameBlock s t) : FetchCase s (fetchHost t) := by
  unfold fetchHost
  split
  · exact .run _ _ (ht.withPort _)
  · exact .quiet t ht

theorem fetchWord_cases (ch : Channel) (bs : Bytes) (ht : SameBlock s t) : FetchCase s (fetchWord ch bs t) := by
  unfold fetchWord
  split
  · split
    · exact .quiet _ (ht.withPort _)
    · exact .run _ t ht
  · split
    · exact .quiet t ht
    · exact .rejected _

/-- Every step, whatever the next input is, finds one of these. -/
theorem fetch_cases (s : State) : FetchCase s (fetch s) := by
  have hd := sameBlock_dropInput s
  unfold fetch
  cases hn : s.nextInput with
  | clock p => exact fetchClock_cases hn hd
  | issue op => exact .quiet _ (hd.withPort _)
  | host => exact fetchHost_cases hd
  | word ch bs => exact fetchWord_cases ch bs hd

end Sys2Proof.Machine
end

section
/-! SUPPORT. Queue mode under every kind of step: the sequencer leaves `queue_enabled` in every state, and a host operation can
only set it (10_state.md rule R33 h). -/

namespace Sys2Proof.Machine

variable {s t : State}

/-! ## What a sequencer step answers, in every state -/

theorem advance_eq_next : advance s = .next t ↔ ∃ q, nextPos s.plen.toNat s.pc = some q ∧ t = s.setPc q := by
  unfold advance
  cases nextPos s.plen.toNat s.pc <;> simp [eq_comm]

/-- A body byte's step writes `acc`, the wire log and the position, and nothing else. -/
def BodyMove (s t : State) : Prop := ∃ (v : Half) (w : Byte) (q : Pc), t = ((s.setAcc v).emit w).setPc q

theorem bodyMove_of_emitBody {b : Byte} {v : Half} (h : emitBody b (s.setAcc v) = .next t) : BodyMove s t := by
  unfold emitBody at h
  split at h
  · cases h
    exact ⟨v, 0xAA, _, rfl⟩
  · obtain ⟨q, -, rfl⟩ := advance_eq_next.1 h
    exact ⟨v, b, q, rfl⟩

theorem bodyMove_of_acceptSummed (h : acceptSummed s = .next t) : BodyMove s t := by
  unfold acceptSummed at h
  split at h
  · exact bodyMove_of_emitBody h
  · cases h

theorem bodyMove_of_acceptChecksum (h : acceptChecksum s = .next t) : BodyMove s t := by
  unfold acceptChecksum at h
  split at h
  · exact bodyMove_of_emitBody (v := s.acc) h
  · cases h

theorem bodyMove_of_acceptPair (h : acceptPair s = .next t) : BodyMove s t := by
  unfold acceptPair at h
  split at h
  · obtain ⟨q, -, rfl⟩ := advance_eq_next.1 h
    exact ⟨s.acc, _, q, rfl⟩
  · cases h

/-! ## Queue mode -/

/-- A next state `f` answers is in queue mode exactly when the state before is. -/
def LeavesQueueMode (f : State → Step) : Prop := ∀ s t, f s = .next t → t.queueEnabled = s.queueEnabled

theorem LeavesQueueMode.of_bodyMove {f : State → Step} (h : ∀ s t, f s = .next t → BodyMove s t) :
    LeavesQueueMode f := by
  intro s t hf
  obtain ⟨v, w, q, rfl⟩ := h s t hf
  rfl

theorem LeavesQueueMode.andThen {f g : State → Step} (hf : LeavesQueueMode f) (hg : LeavesQueueMode g) :
    LeavesQueueMode fun s => andThen (f s) g := by
  intro s t h
  obtain ⟨u, hu, ht⟩ := andThen_eq_next.1 h
  exact (hg u t ht).trans (hf s u hu)

theorem leavesQueueMode_acceptSof : LeavesQueueMode acceptSof := by
  intro s t h
  cases h
  rfl

theorem leavesQueueMode_acceptEnd : LeavesQueueMode acceptEnd := by
  intro s t h
  unfold acceptEnd at h
  split at h
  · split at h
    · obtain ⟨u, hu, hv⟩ := andThen_eq_next.1 h
      obtain ⟨-, rfl⟩ := loadPacket_eq_next.1 hu
      cases hv
      rfl
    · cases h
  · cases h
    rfl

theorem leavesQueueMode_answered (a : Answer) {f : State → Step} (hf : LeavesQueueMode f) :
    LeavesQueueMode (answered a f) := by
  intro s t h
  cases a with
  | accept => exact hf s t h
  | stall => cases h; rfl
  | fail e => cases h; rfl

theorem atPhase_eq_next {p : Phase} {r : Step} : atPhase p s r = .next t ↔ s.pc.phase = p ∧ r = .next t := by
  unfold atPhase
  split <;> simp_all

theorem atPosition_eq_next {p : Phase} {e : Bool} {r : Step} :
    atPosition p e s r = .next t ↔ (s.pc.phase = p ∧ s.pc.esc = e) ∧ r = .next t := by
  unfold atPosition
  split <;> simp_all

theorem leavesQueueMode_sequencerStep (a : Answer) : LeavesQueueMode (sequencerStep a) := by
  have summed := leavesQueueMode_answered a (.of_bodyMove @bodyMove_of_acceptSummed)
  have checksum := leavesQueueMode_answered a (.of_bodyMove @bodyMove_of_acceptChecksum)
  have pair := leavesQueueMode_answered a (.of_bodyMove @bodyMove_of_acceptPair)
  intro s t h
  unfold sequencerStep at h
  split at h
  · cases h; rfl
  · exact leavesQueueMode_answered a leavesQueueMode_acceptSof s t (atPhase_eq_next.1 h).2
  · exact summed s t (atPosition_eq_next.1 h).2
  · exact summed s t (atPosition_eq_next.1 h).2
  · exact checksum s t (atPosition_eq_next.1 h).2
  · exact checksum s t (atPosition_eq_next.1 h).2
  · exact leavesQueueMode_answered a leavesQueueMode_acceptEnd s t (atPhase_eq_next.1 h).2
  · exact pair s t (atPosition_eq_next.1 h).2

theorem leavesQueueMode_startOperation (p : Bytes) (rest : List Bytes) (u : Byte) (c : Bool) :
    LeavesQueueMode (startOperation p rest u c) := by
  intro s t h
  rw [startOperation_of_fits (startOperation_eq_next h)] at h
  cases h
  rfl

/-- No instruction leaves queue mode. -/
theorem ExecCase.keeps_queueMode {r : Step} (h : ExecCase s r) (hq : s.queueEnabled = true) (hr : r = .next t) :
    t.queueEnabled = true := by
  cases h with
  | refused => cases hr
  | recorded | completed | queued | waiting | packet => cases hr; exact hq
  | begun => cases hr; rfl
  | sent => exact (leavesQueueMode_startOperation _ _ _ _ _ _ hr).trans hq
  | flushed => exact (leavesQueueMode_startOperation _ _ _ _ _ _ hr).trans hq
  | stepped a => exact (leavesQueueMode_sequencerStep a _ _ hr).trans hq
  | misplaced a =>
    exact (leavesQueueMode_answered a (.of_bodyMove @bodyMove_of_acceptPair) _ _ hr).trans hq
  | symbol => exact (leavesQueueMode_sequencerStep _ _ _ hr).trans hq
  | pair =>
    have hs := leavesQueueMode_sequencerStep .accept
    exact ((hs.andThen hs) _ _ hr).trans hq

theorem SameBlock.queueEnabled (h : SameBlock s t) : t.queueEnabled = s.queueEnabled := by
  rw [h]

/-- Settles O51, by the kinds of a step: only the reset edge writes `queue_enabled` back to false. -/
theorem queueModeLeftByResetOnly : Obligations.QueueModeLeftByResetOnly := by
  intro s t hq h hr
  unfold step at h
  have hc := fetch_cases s
  generalize fetch s = f at h hc
  cases hc with
  | run i u hu => exact (exec_cases i u).keeps_queueMode (hu.queueEnabled.trans hq) h
  | quiet u hu =>
    cases h
    exact hu.queueEnabled.trans hq
  | reset u hu hrst => simp [hrst] at hr
  | rejected e => cases h

end Sys2Proof.Machine
end

section
/-! SUPPORT. The invariant `State.Inv` under the operations of the model: an idle state, the start of a packet, a move inside a
packet, and an event outside the packet (10_state.md rule R33). -/

namespace Sys2Proof.Machine

variable {s t : State}

/-! ## The numbers a packet load writes -/

theorem lowByte_toNat (v : Half) : (lowByte v).toNat = v.toNat % 256 := by
  simp [lowByte]

theorem highByte_toNat (v : Half) : (highByte v).toNat = v.toNat / 256 := by
  have := v.isLt
  simp [highByte, Nat.shiftRight_eq_div_pow]
  omega

/-- The two length bytes are the length, for a payload that fits. -/
theorem lengthBytes_ofNat {n : Nat} (h : n ≤ 65535) :
    (highByte (BitVec.ofNat 16 n)).toNat * 256 + (lowByte (BitVec.ofNat 16 n)).toNat = n := by
  rw [highByte_toNat, lowByte_toNat, BitVec.toNat_ofNat]
  omega

theorem plen_toNat_ofNat {n : Nat} (h : n ≤ 65535) : (BitVec.ofNat 17 n).toNat = n := by
  rw [BitVec.toNat_ofNat]
  omega

theorem totalLessOne_toNat {ps : List Bytes} (h0 : 0 < ps.length) (h : ps.length ≤ 256) :
    (totalLessOne ps).toNat + 1 = ps.length := by
  unfold totalLessOne
  rw [BitVec.toNat_ofNat]
  omega

theorem confByte_cases (c : Bool) : confByte c = 0x00 ∨ confByte c = 0x01 := by
  cases c
  · exact .inl rfl
  · exact .inr rfl

/-! ## An idle state -/

/-- The clauses of the invariant about the queue and `PBUF`, which hold in every phase. -/
structure State.Stored (s : State) : Prop where
  pendingLengths : ∀ p ∈ s.pending, p.length ≤ 65535
  pendingDepth : s.pending.length ≤ Config.qdepth
  buffer : s.pbuf.wf = true

theorem State.Inv.stored (h : s.Inv) : s.Stored := ⟨h.pendingLengths, h.pendingDepth, h.buffer⟩

/-- At `(IDLE, 0, 0)` with no group, the invariant is about `CONF`, the queue and `PBUF` alone. -/
theorem State.Inv.of_idle (hpc : s.pc = Pc.idle) (hb : s.batch = []) (hp : s.bpos = 0)
    (hc : s.xConf = 0x00 ∨ s.xConf = 0x01) (hs : s.Stored) : s.Inv where
  conf := hc
  loaded h := absurd (by rw [hpc]) h
  pendingLengths := hs.pendingLengths
  batchLengths := by simp [hb]
  pendingDepth := hs.pendingDepth
  batchDepth := by simp [hb]
  idleBatch := by simp [hpc, hb]
  idleBpos _ := hp
  position := by simp [State.positionOk, hpc]
  pair h := by simp [hpc] at h
  buffer := hs.buffer

/-- Reset keeps `PBUF` and takes the values of rule R32 elsewhere. -/
theorem State.resetEdge_inv (h : s.pbuf.wf = true) : s.resetEdge.Inv :=
  .of_idle rfl rfl rfl (.inl rfl) ⟨by simp [State.resetEdge, State.reset], Nat.zero_le _, h⟩

theorem State.Inv.finish (h : s.Inv) (r : Response) : (s.finish r).Inv :=
  .of_idle rfl rfl rfl h.conf ⟨h.pendingLengths, h.pendingDepth, h.buffer⟩

/-- In an idle state that meets the invariant the position is `(IDLE, 0, 0)`. -/
theorem State.Inv.pc_idle (h : s.Inv) (hp : s.pc.phase = .idle) : s.pc = Pc.idle := by
  have hi : s.pc.idx = 0 := by simpa [State.positionOk, hp] using h.position
  have he := h.esc_false (by rw [hp]; rfl)
  cases hpc : s.pc
  simp_all

/-! ## The start of a packet -/

/-- Before its payload `p` is loaded as packet `bpos`, a group stands in the batch. -/
structure State.AtPacket (s : State) (p : Bytes) : Prop where
  stored : s.Stored
  batchLengths : ∀ q ∈ s.batch, q.length ≤ 65535
  batchDepth : s.batch.length ≤ Config.qdepth
  packet : s.batch[s.bpos.toNat]? = some p

theorem State.AtPacket.length_le {p : Bytes} (h : s.AtPacket p) : p.length ≤ 65535 :=
  h.batchLengths p (List.mem_of_getElem? h.packet)

theorem State.AtPacket.bpos_lt {p : Bytes} (h : s.AtPacket p) : s.bpos.toNat < s.batch.length :=
  (List.getElem?_eq_some_iff.1 h.packet).1

/-- The state in which the packet `p` of the group is loaded and stands at its start delimiter. -/
def State.startPacket (s : State) (p : Bytes) (i : Byte) : State :=
  (s.withPacket s.fUnit s.fConf p i (totalLessOne s.batch)).setPc ⟨.sof, 0, false⟩

theorem State.AtPacket.loaded {p : Bytes} {i : Byte} (h : s.AtPacket p) (hi : i.toNat = s.bpos.toNat) :
    (s.startPacket p i).Loaded := by
  have hl := h.length_le
  have hlt := h.bpos_lt
  have hplen : (s.startPacket p i).plen.toNat = p.length := plen_toNat_ofNat hl
  have hpacket : (s.startPacket p i).packet = p := by
    simp [State.packet, State.startPacket, List.getD_eq_getElem?_getD, h.packet]
  exact {
    inBatch := hlt
    length := by rw [hplen, hpacket]
    lengthBytes := by rw [hplen]; exact lengthBytes_ofNat hl
    index := hi
    total := totalLessOne_toNat (by omega) (h.batchDepth.trans Config.qdepth_le)
    unit := rfl
    conf := rfl
    buffer := by
      intro a ha
      rw [hplen] at ha
      rw [hpacket]
      simpa [State.startPacket] using Memory.read_writeBlock_inside s.pbuf p 0 a ha }

theorem State.AtPacket.inv {p : Bytes} {i : Byte} (h : s.AtPacket p) (hi : i.toNat = s.bpos.toNat) :
    (s.startPacket p i).Inv where
  conf := confByte_cases s.fConf
  loaded _ := h.loaded hi
  pendingLengths := h.stored.pendingLengths
  batchLengths := h.batchLengths
  pendingDepth := h.stored.pendingDepth
  batchDepth := h.batchDepth
  idleBatch := by
    have hlt := h.bpos_lt
    have hne : s.batch ≠ [] := by
      rintro hb
      simp [hb] at hlt
    simpa [State.startPacket] using hne
  idleBpos hp := by cases hp
  position := rfl
  pair he := by cases he
  buffer := Memory.writeBlock_wf h.stored.buffer (by simpa [maxPay] using h.length_le)

/-! ## A change that leaves the packet and the queues alone -/

/-- `t` holds the same packet, group and queue: it differs in `acc`, the position and what no rule of the invariant reads. -/
def SamePacket (s t : State) : Prop :=
  t = { s with
    acc := t.acc, pc := t.pc, queueEnabled := t.queueEnabled, errCode := t.errCode, errInfo := t.errInfo,
    wire := t.wire, resp := t.resp, port := t.port, inputs := t.inputs, draws := t.draws, result := t.result }

theorem SamePacket.loaded (h : SamePacket s t) (hl : s.Loaded) : t.Loaded := by
  rw [h]
  exact ⟨hl.inBatch, hl.length, hl.lengthBytes, hl.index, hl.total, hl.unit, hl.conf, hl.buffer⟩

theorem SamePacket.positionOk (h : SamePacket s t) (hp : t.pc.phase = s.pc.phase) (hi : t.pc.idx = s.pc.idx) :
    t.positionOk = s.positionOk := by
  have hplen : t.plen = s.plen := by rw [h]
  simp only [State.positionOk, hp, hi, hplen]

/-- Such a change keeps the invariant when the new position meets its own clauses and `IDLE` is neither entered nor left. -/
theorem SamePacket.inv (h : SamePacket s t) (hs : s.Inv) (hidle : t.pc.phase = .idle ↔ s.pc.phase = .idle)
    (hpos : t.positionOk = true) (hpair : t.pc.esc = true → ∃ b, t.cur = some b ∧ reserved b = true) : t.Inv where
  conf := by rw [h]; exact hs.conf
  loaded hp := h.loaded (hs.loaded (hp ∘ hidle.2))
  pendingLengths := by rw [h]; exact hs.pendingLengths
  batchLengths := by rw [h]; exact hs.batchLengths
  pendingDepth := by rw [h]; exact hs.pendingDepth
  batchDepth := by rw [h]; exact hs.batchDepth
  idleBatch := by
    rw [hidle, hs.idleBatch, h]
  idleBpos hp := by
    have := hs.idleBpos (hidle.1 hp)
    rw [h]
    exact this
  position := hpos
  pair := hpair
  buffer := by rw [h]; exact hs.buffer

/-- The invariant does not read the logs, `ERR`, queue mode, what waits outside or the recorded result. -/
theorem SamePacket.inv_of_unmoved (h : SamePacket s t) (hs : s.Inv) (hacc : t.acc = s.acc) (hpc : t.pc = s.pc) :
    t.Inv := by
  refine h.inv hs (by rw [hpc]) ?_ ?_
  · have := hs.position
    rw [h, hacc, hpc]
    exact this
  · have := hs.pair
    rw [h, hacc, hpc]
    exact this

theorem SameBlock.inv (h : SameBlock s t) (hs : s.Inv) : t.Inv := by
  have hp : SamePacket s t := by
    unfold SamePacket
    rw [h]
  exact hp.inv_of_unmoved hs (by rw [h]) (by rw [h])

theorem State.Inv.deliver (hs : s.Inv) (r : Result FnValue) : (s.deliver r).Inv :=
  SamePacket.inv_of_unmoved (s := s) rfl hs rfl rfl

theorem State.Inv.complete (hs : s.Inv) (r : Response) : (s.complete r).Inv :=
  SamePacket.inv_of_unmoved (s := s) rfl hs rfl rfl

/-! ## The queue -/

/-- The queue may be replaced by any other that meets rule R33 (d) and (e). -/
theorem State.Inv.withPending (hs : s.Inv) {P : List Bytes} (hl : ∀ p ∈ P, p.length ≤ 65535)
    (hd : P.length ≤ Config.qdepth) : ({ s with pending := P } : State).Inv where
  conf := hs.conf
  loaded hp :=
    have hl := hs.loaded hp
    ⟨hl.inBatch, hl.length, hl.lengthBytes, hl.index, hl.total, hl.unit, hl.conf, hl.buffer⟩
  pendingLengths := hl
  batchLengths := hs.batchLengths
  pendingDepth := hd
  batchDepth := hs.batchDepth
  idleBatch := hs.idleBatch
  idleBpos := hs.idleBpos
  position := hs.position
  pair := hs.pair
  buffer := hs.buffer

theorem State.Inv.pushPending (hs : s.Inv) {p : Bytes} (hl : p.length ≤ 65535)
    (hd : s.pending.length < Config.qdepth) : (s.pushPending p).Inv := by
  refine hs.withPending (fun q hq => ?_) (by simpa using hd)
  rcases List.mem_append.1 hq with hq | hq
  · exact hs.pendingLengths q hq
  · rw [List.mem_singleton.1 hq]
    exact hl

/-- `load_packet` at `IDLE`. -/
theorem State.Inv.withPacket (hs : s.Inv) (hp : s.pc.phase = .idle) {u : Byte} {c : Bool} {p : Bytes} {i k : Byte}
    (hl : p.length ≤ 65535) : (s.withPacket u c p i k).Inv :=
  .of_idle (hs.pc_idle hp) (hs.idleBatch.1 hp) (hs.idleBpos hp) (confByte_cases c)
    ⟨hs.pendingLengths, hs.pendingDepth, Memory.writeBlock_wf hs.buffer (by simpa [maxPay] using hl)⟩

end Sys2Proof.Machine
end

section
/-! SUPPORT. Every step from a state that meets the invariant: it does not fault, and a next state meets the invariant. -/

namespace Sys2Proof.Machine

variable {s t : State}

/-- The outcome is no fault, and a next state it gives meets `P`. -/
def Meets (P : State → Prop) : Step → Prop
  | .next t => P t
  | .fault _ => False
  | .refused _ => True

theorem Meets.andThen {P Q : State → Prop} {r : Step} {f : State → Step} (h : Meets P r)
    (hf : ∀ u, P u → Meets Q (f u)) : Meets Q (andThen r f) := by
  cases r with
  | next u => exact hf u h
  | fault e => exact h
  | refused e => exact h

/-! ## The sequencer -/

/-- The successor of a body position is a position of rule R23, busy and with no byte owed. -/
theorem nextPos_ok {pc : Pc} (h : nextPos t.plen.toNat pc = some t.pc) :
    t.pc.phase ≠ .idle ∧ t.pc.esc = false ∧ t.positionOk = true := by
  unfold nextPos at h
  unfold State.positionOk
  generalize t.pc = q at h ⊢
  cases hp : pc.phase <;> simp only [hp] at h
  case hdr =>
    split at h
    · cases h
      have := pc.idx.isLt
      simp [BitVec.toNat_add]
      omega
    · split at h
      · split at h <;> cases h <;> simp
        omega
      · cases h
  case pay =>
    split at h
    · cases h
      simp [BitVec.toNat_add]
      omega
    · split at h <;> cases h
      simp
  all_goals cases h <;> simp

/-- Adding the current byte to `acc`, in `HDR` and `PAY`, changes no current byte. -/
theorem cur_of_summed {b w : Byte} {e : Bool} :
    (((if s.pc.phase = .hdr ∨ s.pc.phase = .pay then s.addToAcc b else s).emit w).setPc
      { s.pc with esc := e }).cur = s.cur := by
  unfold State.cur
  cases hp : s.pc.phase <;> simp [hp] <;> rfl

theorem samePacket_of_summed {P : Prop} [Decidable P] {b w : Byte} {q : Pc} :
    SamePacket s (((if P then s.addToAcc b else s).emit w).setPc q) := by
  split <;> rfl

/-- A move to the successor position keeps the invariant. -/
theorem SamePacket.inv_of_nextPos (h : SamePacket s t) (hs : s.Inv) (hb : s.pc.phase.isBody = true)
    (hn : nextPos s.plen.toNat s.pc = some t.pc) : t.Inv := by
  have hplen : s.plen = t.plen := by rw [h]
  obtain ⟨hbusy, he, hpos⟩ := nextPos_ok (hplen ▸ hn)
  have hne : s.pc.phase ≠ .idle := by
    intro hp
    rw [hp] at hb
    cases hb
  exact h.inv hs (by simp [hbusy, hne]) hpos (by simp [he])

/-- An accepted byte keeps the invariant, whichever kind of step it is. -/
theorem AcceptCase.inv (h : AcceptCase s t) (hs : s.Inv) : t.Inv := by
  cases h with
  | start hp he ht =>
    subst ht
    exact SamePacket.inv (s := s) rfl hs (by simp [hp]) rfl (by simp)
  | plain b q hb he hc hr hn ht =>
    subst ht
    exact samePacket_of_summed.inv_of_nextPos hs hb hn
  | first b hb he hc hr ht =>
    subst ht
    exact samePacket_of_summed.inv hs (by simp) ((samePacket_of_summed.positionOk rfl rfl).trans hs.position)
      fun _ => ⟨b, cur_of_summed.trans hc, hr⟩
  | second b q hb he hc hr hn ht =>
    subst ht
    exact SamePacket.inv_of_nextPos (s := s) rfl hs hb hn
  | more p hp he hb hl ht =>
    subst ht
    have hd := hs.batchDepth.trans Config.qdepth_le
    have hlt := (List.getElem?_eq_some_iff.1 hb).1
    have hpos : (s.bpos + 1).toNat = s.bpos.toNat + 1 := by
      simp [BitVec.toNat_add]
      omega
    have h : State.AtPacket { s.emit 0xAE with bpos := s.bpos + 1 } p :=
      ⟨⟨hs.pendingLengths, hs.pendingDepth, hs.buffer⟩, hs.batchLengths, hs.batchDepth, hpos ▸ hb⟩
    refine h.inv ?_
    rw [hpos, BitVec.toNat_ofNat]
    omega
  | last hp he hb ht =>
    subst ht
    exact State.Inv.finish (s := s.emit 0xAE) (SamePacket.inv_of_unmoved (s := s) rfl hs rfl rfl) .ok

theorem sequencerStep_idle (a : Answer) (h : s.pc.phase = .idle) : sequencerStep a s = .next s := by
  simp [sequencerStep, h]

/-- A busy sequencer answers a stall and a failure alike in every position; only an accepted byte depends on it. -/
theorem sequencerStep_answered (a : Answer) (h : s.pc.phase ≠ .idle) :
    sequencerStep a s = answered a (sequencerStep .accept) s := by
  cases a with
  | accept => rfl
  | stall | fail e =>
    simp only [answered, sequencerStep]
    split
    case h_1 => contradiction
    all_goals simp_all [execStepSof, execStepHdr, execStepPay, execStepCkl, execStepCkh, execStepEnd, execStepEsc2,
      atPhase, atPosition, answered]

theorem sequencerStep_meets_inv (hs : s.Inv) (a : Answer) : Meets State.Inv (sequencerStep a s) := by
  by_cases hp : s.pc.phase = .idle
  · rw [sequencerStep_idle a hp]
    exact hs
  · rw [sequencerStep_answered a hp]
    cases a with
    | accept =>
      obtain ⟨t, ht, hcase⟩ := accept_cases hs hp
      simp only [answered, ht]
      exact hcase.inv hs
    | stall => exact hs
    | fail e => exact hs.finish _

/-! ## Host operations -/

/-- A group taken at `IDLE` starts with its first packet. -/
theorem startOperation_meets_inv {p : Bytes} {rest : List Bytes} {u : Byte} {c : Bool} (hs : s.Stored)
    (hl : ∀ q ∈ p :: rest, q.length ≤ 65535) (hd : (p :: rest).length ≤ Config.qdepth) :
    Meets State.Inv (startOperation p rest u c s) := by
  rw [startOperation_of_fits (hl p List.mem_cons_self)]
  have h : State.AtPacket { s with batch := p :: rest, bpos := 0, fUnit := u, fConf := c } p :=
    ⟨⟨hs.pendingLengths, hs.pendingDepth, hs.buffer⟩, hl, hd, rfl⟩
  exact h.inv rfl

/-- Every instruction, from a state that meets the invariant, keeps it and does not fault. -/
theorem ExecCase.meets_inv {r : Step} (h : ExecCase s r) (hs : s.Inv) : Meets State.Inv r := by
  cases h with
  | refused e => trivial
  | recorded r => exact hs.deliver r
  | completed r => exact hs.complete r
  | begun =>
    have hq := hs.withPending (P := []) (by simp) (Nat.zero_le _)
    exact SamePacket.inv_of_unmoved (s := { s with pending := [] }) rfl hq rfl rfl
  | queued p hl hd => exact (hs.pushPending hl hd).complete .ok
  | waiting op => exact SameBlock.inv (s := s) rfl hs
  | packet u c p i k hp hl => exact hs.withPacket hp hl
  | sent u c p hl => exact startOperation_meets_inv hs.stored (by simpa using hl) Config.qdepth_pos
  | flushed u c p rest hp =>
    refine startOperation_meets_inv ⟨by simp, Nat.zero_le _, hs.buffer⟩ ?_ ?_
    · exact hp ▸ hs.pendingLengths
    · exact hp ▸ hs.pendingDepth
  | stepped a => exact sequencerStep_meets_inv hs a
  | misplaced a hb he => exact absurd he (by simp [hs.esc_false hb])
  | symbol r => exact sequencerStep_meets_inv (hs.deliver r) .accept
  | pair r =>
    exact (sequencerStep_meets_inv (hs.deliver r) .accept).andThen fun u hu => sequencerStep_meets_inv hu .accept

/-! ## The step -/

/-- A step from a state that meets the invariant does not fault, and a next state meets the invariant. -/
theorem step_meets_inv (hs : s.Inv) : Meets State.Inv (step s) := by
  unfold step
  have hc := fetch_cases s
  generalize fetch s = f at hc
  cases hc with
  | run i u hu => exact (exec_cases i u).meets_inv (hu.inv hs)
  | quiet u hu => exact hu.inv hs
  | reset u hu hr => exact State.resetEdge_inv (hu.inv hs).buffer
  | rejected e => trivial

/-- Settles O49: the state after reset is a reset edge's state. -/
theorem invariantAfterReset : Obligations.InvariantAfterReset :=
  State.resetEdge_inv Memory.wf_reset

/-- Settles O50, by the kinds of a step: each keeps the invariant. -/
theorem stepKeepsInvariant : Obligations.StepKeepsInvariant := by
  intro s t hs ht
  have := step_meets_inv hs
  rwa [ht] at this

/-- Settles O55: no kind of step faults where the invariant holds. -/
theorem noFaultFromInvariant : Obligations.NoFaultFromInvariant := by
  intro s e hs he
  have := step_meets_inv hs
  rwa [he] at this

end Sys2Proof.Machine
end

section
/-! SUPPORT. The statements about single states and rows: reset, the header registers, the status registers and pins, a packet
load, and what is refused. -/

namespace Sys2Proof.Machine

variable {s : State}

/-- Settles O45, by evaluating the fixed state. -/
theorem resetValues : Obligations.ResetValues := by
  unfold Obligations.ResetValues
  decide

/-! ## Header registers -/

/-- The header registers have the numbers 0 to 8. -/
theorem State.readX_isSome (s : State) (i : Nat) : (s.readX i).isSome = true ↔ i ≤ 8 := by
  match i with
  | 0 | 1 | 2 | 3 | 4 | 5 | 6 | 7 | 8 => simp [State.readX]
  | _ + 9 => simp [State.readX]

/-- Settles O47, from the laws of a read after a write. -/
theorem hardwiredHeaderRegisters : Obligations.HardwiredHeaderRegisters := by
  intro s v i j
  exact ⟨rfl, rfl, rfl, rfl, rfl, rfl, s.readX_writeX_same v i, s.readX_writeX_other v i j, s.readX_isSome i⟩

/-! ## Status registers and pins -/

/-- The bits of `STATUS`, for every value of its four fields (10_state.md rule R25). -/
theorem status_bits (busy qen esc : Bool) (phase : BitVec 3) :
    let st := BitVec.ofNat 16 (busy.toNat + 2 * qen.toNat + 4 * esc.toNat + 8 * phase.toNat)
    st.getLsbD 0 = busy ∧ st.getLsbD 1 = qen ∧ st.getLsbD 2 = esc ∧ st.extractLsb' 3 3 = phase ∧ st.toNat < 64 := by
  revert busy qen esc phase
  decide

/-- The fields of `ERR` (10_state.md rule R25). -/
theorem err_fields (code : BitVec 4) (info : Byte) :
    let er := BitVec.ofNat 16 (code.toNat + 256 * info.toNat)
    er.extractLsb' 0 4 = code ∧ er.extractLsb' 8 8 = info ∧ er.extractLsb' 4 4 = 0 := by
  have hc := code.isLt
  have hi := info.isLt
  refine ⟨?_, ?_, ?_⟩ <;> apply BitVec.eq_of_toNat_eq <;>
    simp [BitVec.extractLsb'_toNat, Nat.shiftRight_eq_div_pow] <;> omega

/-- A count of at most 256 payloads reads as it is (10_state.md rule R33 e). -/
theorem count_toNat {ps : List Bytes} (h : ps.length ≤ Config.qdepth) :
    (BitVec.ofNat 16 (ps.length % 512)).toNat = ps.length := by
  have := h.trans Config.qdepth_le
  rw [BitVec.toNat_ofNat]
  omega

theorem State.bposReg_toNat (s : State) : s.bposReg.toNat = s.bpos.toNat := by
  have := s.bpos.isLt
  simp [State.bposReg]
  omega

theorem State.busy_iff : s.busy = true ↔ s.pc.phase ≠ .idle := by
  simp [State.busy]

/-- A busy sequencer offers a byte in every position (43_sequencer.md rule R171). -/
theorem State.Inv.offer_isSome (hs : s.Inv) (hb : s.pc.phase ≠ .idle) : s.offer.isSome = true := by
  have body (h : s.pc.phase.isBody = true) : (s.cur.map (offerOf s.pc.esc)).isSome = true := by
    obtain ⟨b, hc⟩ := hs.cur_some h
    simp [hc]
  unfold State.offer
  cases hp : s.pc.phase with
  | idle => exact absurd hp hb
  | sof | fin => rfl
  | hdr | pay | ckl | ckh => exact body (by rw [hp]; rfl)

theorem State.offer_idle (hp : s.pc.phase = .idle) : s.offer = none := by
  simp [State.offer, hp]

/-- Settles O48: the packed fields for every value they can take, the counts and the offer by the invariant. -/
theorem statusRegisterFields : Obligations.StatusRegisterFields := by
  intro s hs
  obtain ⟨hbusy, hqen, hesc, hphase, hlt⟩ := status_bits s.busy s.qen s.escFlag (phaseCode s.pc.phase)
  obtain ⟨hcode, hinfo, hzero⟩ := err_fields s.errCode s.errInfo
  refine ⟨s.statusReg, s.errReg, s.qcountReg, s.bposReg, s.bcountReg, rfl, rfl, rfl, rfl, rfl, ?_, hbusy, hqen, hesc,
    hphase, hlt, hcode, hinfo, hzero, count_toNat hs.pendingDepth, s.bposReg_toNat, count_toNat hs.batchDepth,
    State.busy_iff, rfl, rfl, ?_, State.busy_iff, by simp [State.txLast], ?_, ?_⟩
  · intro n hn
    match n, hn with
    | _ + 5, _ => rfl
  · show s.errv = true ↔ (BitVec.ofNat 16 (s.errCode.toNat + 256 * s.errInfo.toNat)).extractLsb' 0 4 ≠ 0
    rw [hcode]
    simp [State.errv]
  · intro hv
    exact ⟨rfl, hs.offer_isSome (State.busy_iff.1 hv)⟩
  · intro hv
    exact State.offer_idle (by simpa [State.txValid, State.busy] using hv)

/-! ## A packet load -/

theorem lowByte_ofNat (n : Nat) : lowByte (BitVec.ofNat 16 n) = BitVec.ofNat 8 (n % 256) := by
  apply BitVec.eq_of_toNat_eq
  rw [lowByte_toNat, BitVec.toNat_ofNat, BitVec.toNat_ofNat]
  omega

theorem highByte_ofNat {n : Nat} (h : n ≤ 65535) : highByte (BitVec.ofNat 16 n) = BitVec.ofNat 8 (n / 256) := by
  apply BitVec.eq_of_toNat_eq
  rw [highByte_toNat, BitVec.toNat_ofNat, BitVec.toNat_ofNat]
  omega

theorem execLoadPacket_idle {u : Byte} {c : Bool} {p : Bytes} {i k : Byte} (hp : s.pc.phase = .idle)
    (hl : p.length ≤ 65535) : execLoadPacket u c p i k s = .next (s.withPacket u c p i k) := by
  simp [execLoadPacket, State.busy, hp, maxPay, hl, loadPacket_of_fits hl]

/-- Settles O19, from the field laws of a packet load and the two read laws of a written block. -/
theorem loadPacketLoadsRegistersAndBuffer : Obligations.LoadPacketLoadsRegistersAndBuffer := by
  intro u c p i k s hp hl
  refine ⟨s.withPacket u c p i k, execLoadPacket_idle hp hl, rfl, rfl, rfl, rfl, rfl, ?_, ?_, rfl, rfl,
    plen_toNat_ofNat hl, ?_, ?_, rfl⟩
  · exact congrArg some (lowByte_ofNat p.length)
  · exact congrArg some (highByte_ofNat hl)
  · intro a ha
    simpa using Memory.read_writeBlock_inside s.pbuf p 0 a ha
  · intro a ha
    exact Memory.read_writeBlock_outside s.pbuf p 0 a (.inr (by simpa using ha))

/-! ## What is refused -/

theorem atPhase_refused {p : Phase} {r : Step} (h : s.pc.phase ≠ p) : atPhase p s r = .refused .stepNotEnabled :=
  if_neg h

theorem atPosition_bare_refused {p : Phase} {r : Step} (h : s.pc.phase ≠ p ∨ s.pc.esc = true) :
    atPosition p false s r = .refused .stepNotEnabled :=
  if_neg (by simpa [imp_iff_not_or] using h)

theorem atPosition_pair_refused {p : Phase} {r : Step} (h : s.pc.phase ≠ p ∨ s.pc.esc = false) :
    atPosition p true s r = .refused .stepNotEnabled :=
  if_neg (by simpa [imp_iff_not_or] using h)

theorem withPayload_refused {cmd : Command} {k : Bytes → Step} (h : cmd.expressible = false) :
    withPayload cmd s k = .refused .notExpressible := by
  simp [withPayload, h]

theorem division_not_expressible {ws : List Window} (h : 255 < ws.length) :
    (Command.division ws).expressible = false := by
  simpa [Command.expressible] using h

/-- A SEND that does not wait is refused where its command cannot be expressed. -/
theorem execSend_refused {u : Byte} {c : Bool} {cmd : Command} (h : cmd.expressible = false)
    (hs : s.queueEnabled = true ∨ s.pc.phase = .idle) : execSend u c cmd s = .refused .notExpressible := by
  unfold execSend
  split
  · exact withPayload_refused h
  · rename_i hq
    have hidle := hs.resolve_left hq
    rw [if_neg (by simp [State.busy, hidle])]
    exact withPayload_refused h

/-- Settles O21: each row's own guard fails. -/
theorem whatCannotBePresentedIsRefused : Obligations.WhatCannotBePresentedIsRefused := by
  refine ⟨fun a s p => ⟨atPhase_refused, atPosition_bare_refused, atPosition_bare_refused, atPosition_bare_refused,
    atPosition_bare_refused, atPhase_refused, atPosition_pair_refused⟩,
    fun ws u c p i k s => ⟨fun hw => ?_, ?_, ?_, ?_, ?_⟩⟩
  · have hx := division_not_expressible hw
    have hguard : ¬ (Command.division ws).expressible = true := by simp [hx]
    exact ⟨if_neg (by omega), if_neg hguard, withPayload_refused hx, execSend_refused hx,
      fun q P f => ⟨if_neg hguard, if_neg hguard⟩⟩
  · intro hu
    exact if_pos (by simpa [reserved, or_assoc] using hu)
  · intro hl
    exact if_neg (by simpa [maxPay] using hl)
  · intro hb
    exact if_pos (State.busy_iff.2 hb)
  · intro hp hl
    show execLoadPacket u c p i k s = _
    unfold execLoadPacket
    rw [if_neg (by simp [State.busy, hp]), if_neg (by simpa [maxPay] using hl)]

end Sys2Proof.Machine
end

section
/-! SUPPORT. The wire log under every kind of step: a sequencer step adds at most one byte at its end, two for a pair, and every
other row leaves it (20_memory.md rule R52). -/

namespace Sys2Proof.Machine

variable {s t : State}

/-! ## What a sequencer step answers, in every state -/

/-- The next states of a sequencer step, by kind, whether or not the state meets the invariant. -/
inductive SequencerMove (s : State) : State → Prop
  /-- A stall, and any answer at `IDLE`. -/
  | unmoved : SequencerMove s s
  /-- A failure of the sink. -/
  | aborted (e : Byte) : SequencerMove s (s.abort e)
  /-- The start delimiter or a body byte. -/
  | moved (v : Half) (w : Byte) (q : Pc) : SequencerMove s (((s.setAcc v).emit w).setPc q)
  /-- The end delimiter of a packet that is not the last of its group. -/
  | nextPacket (p : Bytes) (i : Byte) :
      SequencerMove s ((({ s.emit 0xAE with bpos := s.bpos + 1 } : State).withPacket s.fUnit s.fConf p i
        (totalLessOne s.batch)).setPc ⟨.sof, 0, false⟩)
  /-- The end delimiter of the last packet. -/
  | finished : SequencerMove s ((s.emit 0xAE).finish .ok)

theorem BodyMove.sequencerMove (h : BodyMove s t) : SequencerMove s t := by
  obtain ⟨v, w, q, rfl⟩ := h
  exact .moved v w q

theorem sequencerMove_of_acceptSof (h : acceptSof s = .next t) : SequencerMove s t := by
  cases h
  exact .moved 0 0xA5 _

theorem sequencerMove_of_acceptEnd (h : acceptEnd s = .next t) : SequencerMove s t := by
  unfold acceptEnd at h
  split at h
  · split at h
    · obtain ⟨u, hu, hv⟩ := andThen_eq_next.1 h
      obtain ⟨-, rfl⟩ := loadPacket_eq_next.1 hu
      cases hv
      exact .nextPacket _ _
    · cases h
  · cases h
    exact .finished

theorem sequencerMove_of_answered {a : Answer} {f : State → Step} (hf : f s = .next t → SequencerMove s t)
    (h : answered a f s = .next t) : SequencerMove s t := by
  cases a with
  | accept => exact hf h
  | stall => cases h; exact .unmoved
  | fail e => cases h; exact .aborted e

theorem sequencerMove_of_answered_pair {a : Answer} (h : answered a acceptPair s = .next t) : SequencerMove s t :=
  sequencerMove_of_answered (fun h => (bodyMove_of_acceptPair h).sequencerMove) h

theorem sequencerMove_of_sequencerStep {a : Answer} (h : sequencerStep a s = .next t) : SequencerMove s t := by
  have summed (h : answered a acceptSummed s = .next t) : SequencerMove s t :=
    sequencerMove_of_answered (fun h => (bodyMove_of_acceptSummed h).sequencerMove) h
  have checksum (h : answered a acceptChecksum s = .next t) : SequencerMove s t :=
    sequencerMove_of_answered (fun h => (bodyMove_of_acceptChecksum h).sequencerMove) h
  unfold sequencerStep at h
  split at h
  · cases h; exact .unmoved
  · exact sequencerMove_of_answered sequencerMove_of_acceptSof (atPhase_eq_next.1 h).2
  · exact summed (atPosition_eq_next.1 h).2
  · exact summed (atPosition_eq_next.1 h).2
  · exact checksum (atPosition_eq_next.1 h).2
  · exact checksum (atPosition_eq_next.1 h).2
  · exact sequencerMove_of_answered sequencerMove_of_acceptEnd (atPhase_eq_next.1 h).2
  · exact sequencerMove_of_answered_pair (atPosition_eq_next.1 h).2

/-! ## Rows that leave the wire log -/

/-- A next state that `r` answers has the wire log of `s`. -/
def KeepsWire (s : State) (r : Step) : Prop := ∀ t, r = .next t → t.wire = s.wire

theorem keepsWire_next : KeepsWire s (.next t) ↔ t.wire = s.wire := by
  simp [KeepsWire]

theorem keepsWire_refused (e : Refusal) : KeepsWire s (.refused e) := nofun

theorem KeepsWire.deliver (r : Result FnValue) : KeepsWire s (.next (s.deliver r)) :=
  keepsWire_next.2 rfl

theorem KeepsWire.complete (r : Response) : KeepsWire s (.next (s.complete r)) :=
  keepsWire_next.2 rfl

theorem KeepsWire.ite_refused {P : Prop} [Decidable P] {r : Step} (e : Refusal) (h : KeepsWire s r) :
    KeepsWire s (if P then r else .refused e) := by
  split
  · exact h
  · exact keepsWire_refused e

theorem keepsWire_withPayload {cmd : Command} {k : Bytes → Step} (h : ∀ p, KeepsWire s (k p)) :
    KeepsWire s (withPayload cmd s k) := by
  rcases withPayload_cases cmd s k with ⟨-, hr⟩ | ⟨e, -, -, hr⟩ | ⟨p, -, -, hr⟩ <;> rw [hr]
  · exact keepsWire_refused _
  · exact .complete _
  · exact h p

theorem keepsWire_appendPending (depth : Nat) (p : Bytes) : KeepsWire s (appendPending depth p s) := by
  rcases appendPending_cases depth p s with ⟨-, hr⟩ | ⟨-, hr⟩ <;> rw [hr]
  · exact .complete _
  · exact keepsWire_next.2 rfl

theorem keepsWire_startOperation (p : Bytes) (rest : List Bytes) (u : Byte) (c : Bool) :
    KeepsWire s (startOperation p rest u c s) := by
  intro t h
  rw [startOperation_of_fits (startOperation_eq_next h)] at h
  cases h
  rfl

theorem keepsWire_execEnqueue (cmd : Command) : KeepsWire s (execEnqueue cmd s) := by
  refine keepsWire_withPayload fun p => ?_
  split
  · exact keepsWire_appendPending _ p
  · exact .complete _

theorem keepsWire_acceptFlush (u : Byte) (c : Bool) : KeepsWire s (acceptFlush u c s) := by
  unfold acceptFlush
  split
  · split
    · exact .complete _
    · exact keepsWire_startOperation (s := { s with pending := [] }) _ _ u c
  · exact .complete _

theorem keepsWire_execFlush (u : Byte) (c : Bool) : KeepsWire s (execFlush u c s) := by
  unfold execFlush
  split
  · exact keepsWire_next.2 rfl
  · exact keepsWire_acceptFlush u c

theorem keepsWire_execSend (u : Byte) (c : Bool) (cmd : Command) : KeepsWire s (execSend u c cmd s) := by
  unfold execSend
  split
  · exact keepsWire_withPayload fun p => keepsWire_appendPending _ p
  · split
    · exact keepsWire_next.2 rfl
    · exact keepsWire_withPayload fun p => keepsWire_startOperation p [] u c

theorem keepsWire_execLoadPacket (u : Byte) (c : Bool) (p : Bytes) (i k : Byte) :
    KeepsWire s (execLoadPacket u c p i k s) := by
  unfold execLoadPacket
  split
  · exact keepsWire_refused _
  · refine .ite_refused _ fun t h => ?_
    obtain ⟨-, rfl⟩ := loadPacket_eq_next.1 h
    rfl

/-! ## The wire log only grows -/

theorem SequencerMove.wire_prefix (h : SequencerMove s t) : s.wire <+: t.wire := by
  cases h with
  | unmoved | aborted => exact List.prefix_rfl
  | moved | nextPacket | finished => exact List.prefix_append _ _

theorem wire_prefix_of_takePair (h : takePair s = .next t) : s.wire <+: t.wire := by
  obtain ⟨u, hu, ht⟩ := andThen_eq_next.1 h
  exact (sequencerMove_of_sequencerStep hu).wire_prefix.trans (sequencerMove_of_sequencerStep ht).wire_prefix

theorem KeepsWire.wire_prefix {r : Step} (h : KeepsWire s r) (hr : r = .next t) : s.wire <+: t.wire :=
  h t hr ▸ List.prefix_rfl

/-- No instruction takes back a byte. -/
theorem ExecCase.wire_prefix {r : Step} (h : ExecCase s r) (hr : r = .next t) : s.wire <+: t.wire := by
  cases h with
  | refused => cases hr
  | recorded | completed | begun | queued | waiting | packet => cases hr; exact List.prefix_rfl
  | sent u c p => exact (keepsWire_startOperation p [] u c).wire_prefix hr
  | flushed u c p rest => exact (keepsWire_startOperation (s := { s with pending := [] }) p rest u c).wire_prefix hr
  | stepped => exact (sequencerMove_of_sequencerStep hr).wire_prefix
  | misplaced => exact (sequencerMove_of_answered_pair hr).wire_prefix
  | symbol r => exact (sequencerMove_of_sequencerStep (s := s.deliver r) hr).wire_prefix
  | pair r => exact wire_prefix_of_takePair (s := s.deliver r) hr

theorem SameBlock.wire (h : SameBlock s t) : t.wire = s.wire := by
  rw [h]

/-- Settles O52, by the kinds of a step: only an instruction touches the wire log, and it appends. -/
theorem wireOnlyGrows : Obligations.WireOnlyGrows := by
  intro s t h
  suffices hp : s.wire <+: t.wire from hp.imp fun _ => Eq.symm
  unfold step at h
  have hc := fetch_cases s
  generalize fetch s = f at h hc
  cases hc with
  | run i u hu => exact hu.wire ▸ (exec_cases i u).wire_prefix h
  | quiet u hu =>
    cases h
    exact hu.wire ▸ List.prefix_rfl
  | reset u hu =>
    cases h
    exact hu.wire ▸ List.prefix_rfl (l := u.wire)
  | rejected => cases h

/-! ## Who emits -/

theorem State.cur_idle (hp : s.pc.phase = .idle) : s.cur = none := by
  simp [State.cur, hp]

/-- At `IDLE` there is no byte to emit, on any answer. -/
theorem keepsWire_answered_pair_idle (a : Answer) (hp : s.pc.phase = .idle) :
    KeepsWire s (answered a acceptPair s) := by
  cases a with
  | accept =>
    intro t h
    simp [answered, acceptPair, State.cur_idle hp] at h
  | stall | fail => exact keepsWire_next.2 rfl

theorem takePair_idle (hp : s.pc.phase = .idle) : takePair s = .next s := by
  simp [takePair, sequencerStep_idle _ hp]

/-- At `IDLE` no instruction emits. -/
theorem ExecCase.keepsWire_idle {r : Step} (h : ExecCase s r) (hp : s.pc.phase = .idle) : KeepsWire s r := by
  cases h with
  | refused e => exact keepsWire_refused e
  | recorded | completed | begun | queued | waiting | packet => exact keepsWire_next.2 rfl
  | sent u c p => exact keepsWire_startOperation p [] u c
  | flushed u c p rest => exact keepsWire_startOperation (s := { s with pending := [] }) p rest u c
  | stepped a => exact sequencerStep_idle a hp ▸ keepsWire_next.2 rfl
  | misplaced a => exact keepsWire_answered_pair_idle a hp
  | symbol r => exact sequencerStep_idle (s := s.deliver r) .accept hp ▸ .deliver r
  | pair r => exact takePair_idle (s := s.deliver r) hp ▸ .deliver r

/-- Settles O53: at `IDLE` no instruction emits, and in no state does a row that is neither a STEP row nor a wire symbol. A wire
symbol is the sequencer's own step where it is offered (log entry 11). -/
theorem onlyTheSequencerEmits : Obligations.OnlyTheSequencerEmits := by
  intro i s t h hw
  refine ⟨fun hp => hw ((exec_cases i s).keepsWire_idle hp t h), ?_⟩
  by_contra hi
  suffices hk : KeepsWire s (exec i s) from hw (hk t h)
  cases i with
  | stepSof | stepHdr | stepPay | stepCkl | stepCkh | stepEnd | stepEsc2 => simp at hi
  | sof | eof | escAA | escAE | escA5 | literal => simp at hi
  | scrollingText | image | staticText | clock | exit | save | reset | raw => exact .deliver _
  | reserved8 | reserved9 | reserved10 | reserved11 | ftCell | header | checksumField => exact .deliver _
  | formatText | asciiBytes | checkLen | rgbOfColor | buildHeader => exact .deliver _
  | checksum | checksumBytes | escape | frame | unescape => exact .deliver _
  | division | encodeCmd | makeFrame | execSummary => exact .ite_refused _ (.deliver _)
  | beginQueue => exact keepsWire_next.2 rfl
  | enqueue cmd => exact keepsWire_execEnqueue cmd
  | flush u c => exact keepsWire_execFlush u c
  | send u c cmd => exact keepsWire_execSend u c cmd
  | loadPacket u c p i k => exact keepsWire_execLoadPacket u c p i k

end Sys2Proof.Machine
end

section
/-! SUPPORT. The decoder and the encoder against each other (30_encoding.md): the fields of the payload formats, each format both
ways, and the words of the other encoding spaces. -/

namespace Sys2Proof.Machine

/-! ## Fields -/

@[simp] theorem joinHalf_highByte_lowByte (v : Half) : joinHalf (highByte v) (lowByte v) = v :=
  (BitVec.extractLsb'_append_extractLsb'_eq_extractLsb' (by rfl)).trans BitVec.extractLsb'_eq_self

@[simp] theorem highByte_joinHalf (hi lo : Byte) : highByte (joinHalf hi lo) = hi :=
  BitVec.extractLsb'_append_eq_left

@[simp] theorem lowByte_joinHalf (hi lo : Byte) : lowByte (joinHalf hi lo) = lo :=
  BitVec.extractLsb'_append_eq_right

theorem formatByte_parseFormat (b : Byte) : formatByte (parseFormat b) = b := by
  decide +revert

theorem contentByte_parseContent (b : Byte) : contentByte (parseContent b) = b := by
  decide +revert

theorem parseContent_contentByte (c : ContentFlags) : parseContent (contentByte c) = c := by
  obtain ⟨_, _, _, _, _, _, _, _⟩ := c
  decide +revert

/-! ## Windows, trailers and text -/

theorem parseWindows_flatMap (ws : List Window) : parseWindows ws.length (ws.flatMap windowBytes) = some ws := by
  induction ws with
  | nil => rfl
  | cons w ws ih => simp [windowBytes, be16, parseWindows, ih]

theorem of_parseWindows {n : Nat} {bs : Bytes} {ws : List Window} (h : parseWindows n bs = some ws) :
    ws.length = n ∧ ws.flatMap windowBytes = bs := by
  fun_induction parseWindows n bs generalizing ws with
  | case1 => cases h; exact ⟨rfl, rfl⟩
  | case2 | case4 => cases h
  | case3 n x1 x0 y1 y0 w1 w0 h1 h0 rest ih =>
    obtain ⟨vs, hvs, rfl⟩ := Option.map_eq_some_iff.1 h
    obtain ⟨hn, hb⟩ := ih hvs
    simp [windowBytes, be16, hn, hb]

theorem beforeZeros_eq_some {n : Nat} {bs t : Bytes} :
    beforeZeros n bs = some t ↔ t ++ List.replicate n 0x00#8 = bs := by
  unfold beforeZeros
  constructor
  · intro h
    split at h
    · next hz => cases h; rw [← hz, List.take_append_drop]
    · cases h
  · rintro rfl
    simp

theorem textBytes_toNat (bs : Bytes) : textBytes (bs.map BitVec.toNat) = bs := by
  induction bs with
  | nil => rfl
  | cons b bs ih => simpa [textBytes] using ih

theorem length_textBytes (t : List Nat) : (textBytes t).length = t.length :=
  List.length_map _

theorem toNat_textBytes {t : List Nat} (h : asciiText t = true) : (textBytes t).map BitVec.toNat = t := by
  rw [textBytes, List.map_map]
  refine (List.map_congr_left fun c hc => ?_).trans (List.map_id t)
  have : c ≤ 127 := by simpa using List.all_eq_true.1 h c hc
  simp
  omega

theorem asciiText_toNat (bs : Bytes) : asciiText (bs.map BitVec.toNat) = bs.all fun b => decide (b.toNat ≤ 127) := by
  simp [asciiText, List.all_map, Function.comp_def]

/-- The text decoder accepts exactly the encodings of ASCII texts. -/
theorem parseText_eq_some {bs : Bytes} {t : List Nat} :
    parseText bs = some t ↔ asciiText t = true ∧ textBytes t ++ [0x00#8] = bs := by
  unfold parseText
  constructor
  · intro h
    split at h
    · next u hu =>
      rw [← asciiText_toNat] at h
      split at h
      · next ha =>
        cases h
        exact ⟨ha, (textBytes_toNat u).symm ▸ beforeZeros_eq_some.1 hu⟩
      · cases h
    · cases h
  · rintro ⟨ha, hb⟩
    have hz : beforeZeros 1 bs = some (textBytes t) := beforeZeros_eq_some.2 hb
    simp [hz, ← asciiText_toNat, toNat_textBytes ha, ha]

/-! ## The field ranges of the payload formats -/

theorem wellFormed_division {ws : List Window} : (Instr.division ws).wellFormed = true ↔ ws.length ≤ 255 :=
  decide_eq_true_iff

theorem wellFormed_scrollingText {a : ScrollingArgs} :
    (Instr.scrollingText a).wellFormed = true ↔ a.window.toNat ≤ 7 ∧ a.ft.length ≤ 65525 := by
  simp [Instr.wellFormed, ScrollingArgs.wellFormed]

theorem wellFormed_image {a : ImageArgs} :
    (Instr.image a).wellFormed = true ↔ a.window.toNat ≤ 7 ∧ a.img.length ≤ 65525 := by
  simp [Instr.wellFormed, ImageArgs.wellFormed]

theorem wellFormed_staticText {a : StaticArgs} : (Instr.staticText a).wellFormed = true ↔
    a.window.toNat ≤ 7 ∧ asciiText a.text = true ∧ a.text.length ≤ 65519 := by
  simp [Instr.wellFormed, StaticArgs.wellFormed, and_assoc]

theorem wellFormed_clock {a : ClockArgs} : (Instr.clock a).wellFormed = true ↔
    a.window.toNat ≤ 7 ∧ a.fontSize.toNat ≤ 7 ∧ asciiText a.text = true ∧ a.text.length ≤ 65524 := by
  simp [Instr.wellFormed, ClockArgs.wellFormed, and_assoc]

/-! ## What a payload's reading encodes to -/

/-- A reading of a payload that loses nothing: it encodes to the same bytes, and is well formed when they fit a packet. -/
def Reads (bs : Bytes) (i : Instr) : Prop := encode i = (.payload, bs) ∧ (bs.length ≤ 65535 → i.wellFormed = true)

variable {op : Byte} {rest : Bytes} {i : Instr}

theorem reads_of_parseDivision (h : parseDivision rest = some i) : Reads (0x01#8 :: rest) i := by
  unfold parseDivision at h
  split at h
  · next count rest =>
    obtain ⟨ws, hws, rfl⟩ := Option.map_eq_some_iff.1 h
    obtain ⟨hn, hb⟩ := of_parseWindows hws
    have hc : ws.length ≤ 255 := hn ▸ Nat.le_of_lt_succ count.isLt
    exact ⟨by simp [encode, layoutDivision, hn, hb], fun _ => wellFormed_division.2 hc⟩
  · cases h

theorem reads_of_parseScrolling (h : parseScrolling rest = some i) : Reads (0x02#8 :: rest) i := by
  unfold parseScrolling at h
  split at h
  · split at h
    · next ft hft =>
      split at h
      · next hw =>
        cases h
        obtain rfl := beforeZeros_eq_some.1 hft
        refine ⟨by simp [encode, layoutScrolling, le16], fun hl => wellFormed_scrollingText.2 ⟨hw, ?_⟩⟩
        simp only [List.length_cons, List.length_append, List.length_replicate] at hl ⊢
        omega
      · cases h
    · cases h
  · cases h

theorem reads_of_parseImage (h : parseImage rest = some i) : Reads (0x03#8 :: rest) i := by
  unfold parseImage at h
  split at h
  · split at h
    · next hm =>
      cases h
      subst hm
      refine ⟨by simp [encode, layoutImage, le16], fun hl => wellFormed_image.2 ⟨Nat.zero_le 7, ?_⟩⟩
      simp only [List.length_cons] at hl ⊢
      omega
    · cases h
  · cases h

theorem reads_of_parseStatic (h : parseStatic rest = some i) : Reads (0x04#8 :: rest) i := by
  unfold parseStatic at h
  split at h
  · split at h
    · next hm =>
      obtain ⟨t, ht, rfl⟩ := Option.map_eq_some_iff.1 h
      obtain ⟨ha, rfl⟩ := parseText_eq_some.1 ht
      subst hm
      refine ⟨by simp [encode, layoutStatic, le16], fun hl => wellFormed_staticText.2 ⟨Nat.zero_le 7, ha, ?_⟩⟩
      simp only [List.length_cons, List.length_append, List.length_nil, length_textBytes] at hl ⊢
      omega
    · cases h
  · cases h

theorem reads_of_parseClock (h : parseClock rest = some i) : Reads (0x05#8 :: rest) i := by
  unfold parseClock at h
  split at h
  · split at h
    · next hs =>
      obtain ⟨t, ht, rfl⟩ := Option.map_eq_some_iff.1 h
      obtain ⟨ha, rfl⟩ := parseText_eq_some.1 ht
      refine ⟨by simp [encode, layoutClock, le16, formatByte_parseFormat, contentByte_parseContent], fun hl =>
        wellFormed_clock.2 ⟨Nat.zero_le 7, hs, ha, ?_⟩⟩
      simp only [List.length_cons, List.length_append, List.length_nil, length_textBytes] at hl ⊢
      omega
    · cases h
  · cases h

theorem reads_of_parseExit (h : parseExit rest = some i) : Reads (0x06#8 :: rest) i := by
  unfold parseExit at h
  split at h
  · cases h
    exact ⟨rfl, fun _ => rfl⟩
  · cases h

theorem reads_of_parsePersistence (h : parsePersistence rest = some i) : Reads (0x07#8 :: rest) i := by
  unfold parsePersistence at h
  split at h
  · next hr => cases h; exact ⟨hr ▸ rfl, fun _ => rfl⟩
  · split at h
    · next hr => cases h; exact ⟨hr ▸ rfl, fun _ => rfl⟩
    · cases h

/-- Whatever the opcode selects is read without loss (rule R77). -/
theorem reads_of_parseCommand (h : parseCommand op rest = some i) : Reads (op :: rest) i := by
  have hop {n : Nat} (hn : op.toNat = n) : op = BitVec.ofNat 8 n := by rw [← hn, BitVec.ofNat_toNat, BitVec.setWidth_eq]
  unfold parseCommand at h
  split at h
  · next hn => exact hop hn ▸ reads_of_parseDivision h
  · next hn => exact hop hn ▸ reads_of_parseScrolling h
  · next hn => exact hop hn ▸ reads_of_parseImage h
  · next hn => exact hop hn ▸ reads_of_parseStatic h
  · next hn => exact hop hn ▸ reads_of_parseClock h
  · next hn => exact hop hn ▸ reads_of_parseExit h
  · next hn => exact hop hn ▸ reads_of_parsePersistence h
  iterate 4
    next hn =>
      cases h
      exact ⟨by rw [hop hn]; rfl, fun hl => decide_eq_true (Nat.le_of_succ_le_succ hl)⟩
  · cases h

/-- A payload that fits a packet has a reading: the command whose format it has, else RAW. -/
theorem decodePayload_reads {bs : Bytes} (hl : bs.length ≤ 65535) : ∃ i, decodePayload bs = .ok i ∧ Reads bs i := by
  have hraw : Reads bs (.raw bs) := ⟨rfl, fun h => decide_eq_true h⟩
  unfold decodePayload
  rw [if_pos hl]
  split
  · next op rest =>
    cases hp : parseCommand op rest with
    | none => exact ⟨_, rfl, hraw⟩
    | some i => exact ⟨i, rfl, reads_of_parseCommand hp⟩
  · exact ⟨_, rfl, hraw⟩

/-- RAW answers a payload that does not fit a packet (60_exceptions.md rule R206). -/
theorem exec_raw_tooLarge {bs : Bytes} (h : 65535 < bs.length) (s : State) :
    exec (.raw bs) s = .next (s.withError .payloadTooLarge bs.length) := by
  simp [exec, execRaw, delivers, encodeRaw, checkLen, h, errWith, Result.asBytes, State.deliver, State.withError]

/-- Settles O59, from the formats read backwards: a payload that fits is read without loss, a longer one is RAW. -/
theorem encodeOfDecodedPayload : Obligations.EncodeOfDecodedPayload := by
  intro bs
  by_cases hl : bs.length ≤ 65535
  · obtain ⟨i, hd, he, hw⟩ := decodePayload_reads hl
    exact ⟨i, hd, he, hw, fun s hs => absurd hl (Nat.not_le.2 hs)⟩
  · exact ⟨.raw bs, if_neg hl, rfl, fun h => absurd h hl, fun s hs => exec_raw_tooLarge hs s⟩

/-! ## What the word of an instruction decodes to -/

/-- The word decodes to what it keeps of the instruction. -/
def DecodesBack (i : Instr) : Prop := decode (encode i).1 (encode i).2 = .ok i.encoded

theorem decodePayload_of_parseCommand (hl : (op :: rest).length ≤ 65535) (h : parseCommand op rest = some i) :
    decodePayload (op :: rest) = .ok i := by
  simp only [decodePayload, if_pos hl, h, Option.getD_some]

theorem decodesBack_division {ws : List Window} (h : (Instr.division ws).wellFormed = true) :
    DecodesBack (.division ws) := by
  refine decodePayload_of_parseCommand (Laws.EncodedLength.division ws h) ?_
  have hn : (BitVec.ofNat 8 ws.length).toNat = ws.length :=
    Nat.mod_eq_of_lt (Nat.lt_succ_of_le (wellFormed_division.1 h))
  simp [parseCommand, parseDivision, hn, parseWindows_flatMap, Instr.encoded]

theorem decodesBack_scrollingText {a : ScrollingArgs} (h : (Instr.scrollingText a).wellFormed = true) :
    DecodesBack (.scrollingText a) := by
  refine decodePayload_of_parseCommand (Laws.EncodedLength.scrollingText a h) ?_
  have hz : beforeZeros 3 (a.ft ++ [0x00#8, 0x00#8, 0x00#8]) = some a.ft := beforeZeros_eq_some.2 rfl
  have hw := (wellFormed_scrollingText.1 h).1
  simp [parseCommand, parseScrolling, le16, hz, hw, Instr.encoded]

theorem decodesBack_image {a : ImageArgs} (h : (Instr.image a).wellFormed = true) : DecodesBack (.image a) := by
  refine decodePayload_of_parseCommand (Laws.EncodedLength.image a h) ?_
  simp [parseCommand, parseImage, le16, Instr.encoded]

theorem decodesBack_staticText {a : StaticArgs} (h : (Instr.staticText a).wellFormed = true) :
    DecodesBack (.staticText a) := by
  refine decodePayload_of_parseCommand (Laws.EncodedLength.staticText a h) ?_
  obtain ⟨-, ha, -⟩ := wellFormed_staticText.1 h
  have ht := parseText_eq_some.2 ⟨ha, rfl⟩
  simp [parseCommand, parseStatic, le16, ht, Instr.encoded]

theorem decodesBack_clock {a : ClockArgs} (h : (Instr.clock a).wellFormed = true) : DecodesBack (.clock a) := by
  refine decodePayload_of_parseCommand (Laws.EncodedLength.clock a h) ?_
  obtain ⟨-, hs, ha, -⟩ := wellFormed_clock.1 h
  have ht := parseText_eq_some.2 ⟨ha, rfl⟩
  simp [parseCommand, parseClock, le16, hs, ht, parseContent_contentByte, Instr.encoded]

/-- Colour and size stand in separate bits of the first byte of a cell (rule R72). -/
theorem colourSizeByte_fields (c : BitVec 3) (z : BitVec 4) :
    (colourSizeByte (c.setWidth 8) (z.setWidth 8)).toNat < 128 ∧
    (colourSizeByte (c.setWidth 8) (z.setWidth 8)).extractLsb' 4 3 = c ∧
    (colourSizeByte (c.setWidth 8) (z.setWidth 8)).extractLsb' 0 4 = z := by
  decide +revert

theorem decodesBack_ftCell (c : BitVec 3) (z : BitVec 4) (a : BitVec 7) : DecodesBack (.ftCell c z a) := by
  obtain ⟨hlt, hc, hz⟩ := colourSizeByte_fields c z
  have hlt' : (a.setWidth 8).toNat < 128 := by
    rw [BitVec.toNat_setWidth]
    omega
  have ha : (a.setWidth 8).extractLsb' 0 7 = a := by
    rw [← BitVec.setWidth_eq_extractLsb' (by decide), BitVec.setWidth_setWidth_of_le _ (by decide), BitVec.setWidth_eq]
  simp only [DecodesBack, encode, layoutCell, decode, decodeCell, hlt, hlt', hc, hz, ha, Instr.encoded, and_self, if_true]

theorem decodesBack_literal {b : Byte} (h : reserved b = false) : DecodesBack (.literal b) := by
  simp only [reserved, Bool.or_eq_false_iff, beq_eq_false_iff_ne, ne_eq] at h
  obtain ⟨⟨hA5, hAA⟩, hAE⟩ := h
  simp [DecodesBack, encode, decode, decodeWire, hA5, hAA, hAE, Instr.encoded]

theorem decodesBack_stepEsc2 {p : Phase} (h : p.isBody = true) (a : Answer) : DecodesBack (.stepEsc2 p a) := by
  simp [DecodesBack, encode, decode_seqWord, pairStep, h, Instr.encoded]

/-- Settles O58: the payload formats by their own lemmas, the fixed words and the functions by evaluation. -/
theorem decodeOfEncode : Obligations.DecodeOfEncode := by
  intro i h hraw
  change DecodesBack i
  cases i with
  | division => exact decodesBack_division h
  | scrollingText => exact decodesBack_scrollingText h
  | image => exact decodesBack_image h
  | staticText => exact decodesBack_staticText h
  | clock => exact decodesBack_clock h
  | exit | save | reset => rfl
  | raw bs => exact absurd rfl (hraw bs)
  | reserved8 t => exact decodePayload_of_parseCommand (Laws.EncodedLength.reserved8 t h) rfl
  | reserved9 t => exact decodePayload_of_parseCommand (Laws.EncodedLength.reserved9 t h) rfl
  | reserved10 t => exact decodePayload_of_parseCommand (Laws.EncodedLength.reserved10 t h) rfl
  | reserved11 t => exact decodePayload_of_parseCommand (Laws.EncodedLength.reserved11 t h) rfl
  | ftCell c z a => exact decodesBack_ftCell c z a
  | header u c => cases c <;> rfl
  | literal b => exact decodesBack_literal (by simpa [Instr.wellFormed] using h)
  | stepEsc2 p a => exact decodesBack_stepEsc2 h a
  | checksumField | sof | eof | escAA | escAE | escA5 => rfl
  | beginQueue | enqueue | flush | send => rfl
  | stepSof | stepHdr | stepPay | stepCkl | stepCkh | stepEnd => rfl
  | encodeCmd | formatText | asciiBytes | checkLen | rgbOfColor | buildHeader | checksum | checksumBytes => rfl
  | escape | frame | makeFrame | unescape | loadPacket | execSummary => rfl

/-- Settles O60, by evaluating the fixed words. -/
theorem wordsDecodeAsTheSpecWritesThem : Obligations.WordsDecodeAsTheSpecWritesThem := by
  unfold Obligations.WordsDecodeAsTheSpecWritesThem
  decide

end Sys2Proof.Machine
end

section
/-! SUPPORT. The command encoder's parts, said once: what a recorded result is, the checks in their order, the text operands, and
the byte sequences of the payload formats in the spec's own spelling (40_commands.md, 30_encoding.md). -/

namespace Sys2Proof.Machine

variable {s : State}

/-! ## Recording a result -/

@[simp] theorem delivers_ok (b : Bytes) (s : State) : delivers (.ok b) s = .next (s.withBytes b) := rfl

@[simp] theorem delivers_errWith (k : ErrKind) (n : Nat) (s : State) :
    delivers (.err (errWith k n)) s = .next (s.withError k n) := rfl

@[simp] theorem Result.ok_bind {α β : Type} (a : α) (f : α → Result β) : (Result.ok a).bind f = f a := rfl

@[simp] theorem Result.err_bind {α β : Type} (e : ErrInfo) (f : α → Result β) : (Result.err e).bind f = .err e := rfl

/-! ## The checks -/

theorem checkWindow_of_le {α : Type} {w : Byte} {k : Result α} (h : w.toNat ≤ 7) : checkWindow w k = k :=
  if_neg (Nat.not_lt.2 h)

theorem delivers_checkWindow_of_lt {w : Byte} {k : Result Bytes} (h : 7 < w.toNat) :
    delivers (checkWindow w k) s = .next (s.withError .invalidWindow w.toNat) := by
  rw [checkWindow, if_pos h, delivers_errWith]

theorem delivers_checkLen_of_le {p : Bytes} (h : p.length ≤ 65535) :
    delivers (checkLen p) s = .next (s.withBytes p) := by
  rw [checkLen, if_neg (Nat.not_lt.2 h), delivers_ok]

theorem delivers_checkLen_of_lt {p : Bytes} (h : 65535 < p.length) :
    delivers (checkLen p) s = .next (s.withError .payloadTooLarge p.length) := by
  rw [checkLen, if_pos h, delivers_errWith]

/-! ## Text operands -/

theorem asciiBytes_of_firstBad {t : List Nat} {c : Nat} (h : firstBad t = some c) :
    asciiBytes t = .err (errWith .encodingError c) :=
  asciiBytes_of_bad h

theorem asciiBytes_of_firstBad_none {t : List Nat} (h : firstBad t = none) : asciiBytes t = .ok (textBytes t) := by
  refine asciiBytes_of_ascii fun c hc => Nat.not_lt.1 fun hbad => ?_
  exact List.find?_eq_none.1 h c hc (decide_eq_true hbad)

/-! ## Two-byte fields -/

theorem lowByte_eq_lowOf (v : Half) : lowByte v = lowOf v := by
  apply BitVec.eq_of_toNat_eq
  rw [lowByte_toNat, lowOf, BitVec.toNat_ofNat, Nat.mod_mod]

theorem highByte_eq_highOf (v : Half) : highByte v = highOf v := by
  have hlt : v.toNat / 256 < 256 := Nat.div_lt_of_lt_mul v.isLt
  apply BitVec.eq_of_toNat_eq
  rw [highByte_toNat, highOf, BitVec.toNat_ofNat, Nat.mod_eq_of_lt hlt]

theorem le16_eq (v : Half) : le16 v = [lowOf v, highOf v] := by
  rw [le16, lowByte_eq_lowOf, highByte_eq_highOf]

theorem be16_eq (v : Half) : be16 v = [highOf v, lowOf v] := by
  rw [be16, lowByte_eq_lowOf, highByte_eq_highOf]

/-! ## The payload formats -/

/-- A window is the only operand sent high byte first (20_memory.md rule R41). -/
theorem windowBytes_eq (w : Window) : windowBytes w =
    [highOf w.x, lowOf w.x, highOf w.y, lowOf w.y, highOf w.w, lowOf w.w, highOf w.h, lowOf w.h] := by
  simp [windowBytes, be16_eq]

theorem layoutScrolling_eq (a : ScrollingArgs) : layoutScrolling a =
    [0x02#8, a.window, a.effect, a.alignment, a.speed, lowOf a.stayTime, highOf a.stayTime] ++ a.ft ++
      [0x00#8, 0x00#8, 0x00#8] := by
  simp [layoutScrolling, le16_eq]

theorem length_layoutScrolling (a : ScrollingArgs) : (layoutScrolling a).length = 10 + a.ft.length := by
  simp [layoutScrolling_eq]
  omega

theorem layoutImage_eq (a : ImageArgs) : layoutImage a =
    [0x03#8, 0x00#8, a.speed, lowOf a.stayTime, highOf a.stayTime, a.format, lowOf a.x, highOf a.x, lowOf a.y,
      highOf a.y] ++ a.img := by
  simp [layoutImage, le16_eq]

theorem length_layoutImage (a : ImageArgs) : (layoutImage a).length = 10 + a.img.length := by
  simp [layoutImage_eq]
  omega

theorem layoutStatic_eq (a : StaticArgs) (t : Bytes) : layoutStatic a t =
    [0x04#8, 0x01#8, a.alignment, lowOf a.x, highOf a.x, lowOf a.y, highOf a.y, lowOf a.width, highOf a.width,
      lowOf a.height, highOf a.height, a.fontSize, a.red, a.green, a.blue] ++ t ++ [0x00#8] := by
  simp [layoutStatic, le16_eq]

theorem length_layoutStatic (a : StaticArgs) (t : Bytes) : (layoutStatic a t).length = 16 + t.length := by
  simp [layoutStatic_eq]
  omega

theorem layoutClock_eq (a : ClockArgs) (t : Bytes) : layoutClock a t =
    [0x05#8, lowOf a.stayTime, highOf a.stayTime, a.calendar, formatByte a.format, contentByte a.content, a.fontSize,
      a.red, a.green, a.blue] ++ t ++ [0x00#8] := by
  simp [layoutClock, le16_eq]

theorem length_layoutClock (a : ClockArgs) (t : Bytes) : (layoutClock a t).length = 11 + t.length := by
  simp [layoutClock_eq]
  omega

/-! ## The flag bytes of Clock (30_encoding.md rule R74) -/

theorem formatByte_flags (h24 year4 multiline : Bool) :
    (formatByte (.flags h24 year4 multiline)).getLsbD 0 = h24 ∧
    (formatByte (.flags h24 year4 multiline)).getLsbD 1 = !year4 ∧
    (formatByte (.flags h24 year4 multiline)).getLsbD 2 = multiline ∧
    (formatByte (.flags h24 year4 multiline)).toNat < 8 := by
  decide +revert

/-- The content flags are the bits of their byte, as the decoder reads them back. -/
theorem contentByte_bits (c : ContentFlags) :
    (contentByte c).getLsbD 0 = c.year ∧ (contentByte c).getLsbD 1 = c.month ∧ (contentByte c).getLsbD 2 = c.day ∧
    (contentByte c).getLsbD 3 = c.hour ∧ (contentByte c).getLsbD 4 = c.minute ∧ (contentByte c).getLsbD 5 = c.second ∧
    (contentByte c).getLsbD 6 = c.week ∧ (contentByte c).getLsbD 7 = c.pointer :=
  ContentFlags.mk.inj (parseContent_contentByte c)

/-! ## Formatted text -/

theorem exists_eq_setWidth {b : Byte} {n : Nat} (hn : n ≤ 8) (h : b.toNat < 2 ^ n) : ∃ c : BitVec n, b = c.setWidth 8 := by
  refine ⟨b.setWidth n, BitVec.eq_of_toNat_eq ?_⟩
  rw [BitVec.toNat_setWidth_of_le hn, BitVec.toNat_setWidth, Nat.mod_eq_of_lt h]

theorem colourSizeByte_setWidth (c : BitVec 3) (z : BitVec 4) : colourSizeByte (c.setWidth 8) (z.setWidth 8) =
    BitVec.ofNat 8 (16 * (c.setWidth 8).toNat + (z.setWidth 8).toNat) := by
  decide +revert

/-- In the validated ranges colour and size stand in separate bits, and the XOR is a sum (30_encoding.md rule R73). -/
theorem colourSizeByte_eq {color size : Byte} (hc : color.toNat ≤ 7) (hz : size.toNat ≤ 15) :
    colourSizeByte color size = BitVec.ofNat 8 (16 * color.toNat + size.toNat) := by
  obtain ⟨c, rfl⟩ := exists_eq_setWidth (n := 3) (by decide) (Nat.lt_succ_of_le hc)
  obtain ⟨z, rfl⟩ := exists_eq_setWidth (n := 4) (by decide) (Nat.lt_succ_of_le hz)
  exact colourSizeByte_setWidth c z

theorem cells_textBytes (b : Byte) (t : List Nat) :
    cells b (textBytes t) = t.flatMap fun c => [b, 0x00#8, BitVec.ofNat 8 c] :=
  List.flatMap_map ..

theorem length_cells (b : Byte) (t : Bytes) : (cells b t).length = 3 * t.length := by
  induction t with
  | nil => rfl
  | cons c t ih =>
    have hcell : (layoutCell b c).length = 3 := rfl
    rw [cells, List.flatMap_cons, List.length_append, hcell, ← cells, ih, List.length_cons]
    omega

theorem delivers_formatText_of_bad_colour {text : List Nat} {color size : Byte}
    (h : color.toNat < 1 ∨ 7 < color.toNat) :
    delivers (formatText text color size) s = .next (s.withError .invalidColor color.toNat) := by
  rw [formatText, if_pos h, delivers_errWith]

theorem delivers_formatText_of_bad_size {text : List Nat} {color size : Byte} (h1 : 1 ≤ color.toNat)
    (h7 : color.toNat ≤ 7) (hz : 15 < size.toNat) :
    delivers (formatText text color size) s = .next (s.withError .invalidFontSize size.toNat) := by
  rw [formatText, if_neg (by omega), if_pos hz, delivers_errWith]

/-- Past the checks of colour and size, formatted text is the cells of the text's bytes. -/
theorem formatText_of_valid {text : List Nat} {color size : Byte} (h1 : 1 ≤ color.toNat) (h7 : color.toNat ≤ 7)
    (hz : size.toNat ≤ 15) : formatText text color size =
      (asciiBytes text).bind fun t => .ok (cells (BitVec.ofNat 8 (16 * color.toNat + size.toNat)) t) := by
  rw [formatText, if_neg (by omega), if_neg (by omega), colourSizeByte_eq h7 hz]

end Sys2Proof.Machine
end

section
/-! SUPPORT. The statements about the command encoder (40_commands.md): each row's clauses from the checks and formats above, and
the rows that record a result and change nothing else. -/

namespace Sys2Proof.Machine

variable {s : State}

/-! ## Rows that record a result only -/

/-- A next state that `r` answers differs from `s` in the recorded result at most. -/
def RecordsOnly (s : State) (r : Step) : Prop := ∀ t, r = .next t → t = { s with result := t.result }

theorem RecordsOnly.deliver (r : Result FnValue) : RecordsOnly s (.next (s.deliver r)) := by
  rintro t ⟨⟩
  rfl

theorem RecordsOnly.guarded {P : Prop} [Decidable P] {r : Step} (e : Refusal) (h : RecordsOnly s r) :
    RecordsOnly s (if P then r else .refused e) := by
  split
  · exact h
  · rintro t ⟨⟩

/-- Settles O54: a row of these encoding spaces, or a function but `load_packet`, records its result, some behind a guard that
refuses; the other rows stand in no such space. -/
theorem pureRowsChangeTheResultOnly : Obligations.PureRowsChangeTheResultOnly := by
  intro i s t ht hpure
  refine (?_ : RecordsOnly s (exec i s)) t ht
  cases i with
  | division | encodeCmd | makeFrame | execSummary => exact .guarded _ (.deliver _)
  | scrollingText | image | staticText | clock | exit | save | reset | raw => exact .deliver _
  | reserved8 | reserved9 | reserved10 | reserved11 | ftCell | header | checksumField => exact .deliver _
  | formatText | asciiBytes | checkLen | rgbOfColor | buildHeader => exact .deliver _
  | checksum | checksumBytes | escape | frame | unescape => exact .deliver _
  | loadPacket u c p i k =>
    simp only [encode, reduceCtorEq, false_or] at hpure
    obtain ⟨-, hne⟩ := hpure
    exact absurd rfl (hne u c p i k)
  | sof | eof | escAA | escAE | escA5 | literal => simp [encode, Instr.isFunction] at hpure
  | beginQueue | enqueue | flush | send => simp [encode, Instr.isFunction] at hpure
  | stepSof | stepHdr | stepPay | stepEsc2 | stepCkl | stepCkh | stepEnd => simp [encode, Instr.isFunction] at hpure

/-! ## Commands -/

/-- Settles O1: at most 255 windows always fit a payload. -/
theorem divisionPayloadIsBigEndian : Obligations.DivisionPayloadIsBigEndian := by
  intro ws s hws
  have hlen : (layoutDivision ws).length ≤ 65535 := Laws.EncodedLength.division ws (wellFormed_division.2 hws)
  calc exec (.division ws) s = delivers (checkLen (layoutDivision ws)) s := if_pos hws
    _ = .next (s.withBytes (layoutDivision ws)) := delivers_checkLen_of_le hlen
    _ = _ := by rw [layoutDivision, funext windowBytes_eq]

/-- Settles O2, from the window check, the length check and format SCR. -/
theorem scrollingTextPayload : Obligations.ScrollingTextPayload := by
  intro a s
  have hlen := length_layoutScrolling a
  refine ⟨delivers_checkWindow_of_lt, fun hw hl => ?_, fun hw hl => ?_⟩
  · rw [exec, execScrollingText, encodeScrolling, checkWindow_of_le hw, delivers_checkLen_of_lt (by omega), hlen]
  · rw [exec, execScrollingText, encodeScrolling, checkWindow_of_le hw, delivers_checkLen_of_le (by omega), layoutScrolling_eq]

/-- Settles O3, from the window check, the length check and format IMG. -/
theorem imagePayload : Obligations.ImagePayload := by
  intro a s
  have hlen := length_layoutImage a
  refine ⟨delivers_checkWindow_of_lt, fun hw hl => ?_, fun hw hl => ?_⟩
  · rw [exec, execImage, encodeImage, checkWindow_of_le hw, delivers_checkLen_of_lt (by omega), hlen]
  · rw [exec, execImage, encodeImage, checkWindow_of_le hw, delivers_checkLen_of_le (by omega), layoutImage_eq]

theorem encodeStatic_of_window {a : StaticArgs} (hw : a.window.toNat ≤ 7) :
    encodeStatic a = (asciiBytes a.text).bind fun t => checkLen (layoutStatic a t) :=
  checkWindow_of_le hw

/-- Settles O4: past the window check the text decides, past the text the length of format STA. -/
theorem staticTextPayload : Obligations.StaticTextPayload := by
  intro a s
  have hlen : (layoutStatic a (textBytes a.text)).length = 16 + a.text.length := by
    rw [length_layoutStatic, length_textBytes]
  have hrow (hw : a.window.toNat ≤ 7) (ht : firstBad a.text = none) :
      exec (.staticText a) s = delivers (checkLen (layoutStatic a (textBytes a.text))) s := by
    rw [exec, execStaticText, encodeStatic_of_window hw, asciiBytes_of_firstBad_none ht, Result.ok_bind]
  refine ⟨delivers_checkWindow_of_lt, fun c hw ht => ?_, fun hw ht hl => ?_, fun hw ht hl => ?_⟩
  · rw [exec, execStaticText, encodeStatic_of_window hw, asciiBytes_of_firstBad ht, Result.err_bind, delivers_errWith]
  · rw [hrow hw ht, delivers_checkLen_of_lt (by omega), hlen]
  · rw [hrow hw ht, delivers_checkLen_of_le (by omega), layoutStatic_eq, textBytes]

theorem encodeClock_of_window {a : ClockArgs} (hw : a.window.toNat ≤ 7) : encodeClock a =
    if 7 < a.fontSize.toNat then .err (errWith .invalidFontSize a.fontSize.toNat)
    else (asciiBytes a.text).bind fun t => checkLen (layoutClock a t) :=
  checkWindow_of_le hw

theorem encodeClock_of_fields {a : ClockArgs} (hw : a.window.toNat ≤ 7) (hz : a.fontSize.toNat ≤ 7) :
    encodeClock a = (asciiBytes a.text).bind fun t => checkLen (layoutClock a t) := by
  rw [encodeClock_of_window hw, if_neg (Nat.not_lt.2 hz)]

/-- Settles O5: window, font size, text and length decide in this order; the flag bytes are those of format CLK. -/
theorem clockPayload : Obligations.ClockPayload := by
  intro a s
  have hlen : (layoutClock a (textBytes a.text)).length = 11 + a.text.length := by
    rw [length_layoutClock, length_textBytes]
  have hrow (hw : a.window.toNat ≤ 7) (hz : a.fontSize.toNat ≤ 7) (ht : firstBad a.text = none) :
      exec (.clock a) s = delivers (checkLen (layoutClock a (textBytes a.text))) s := by
    rw [exec, execClock, encodeClock_of_fields hw hz, asciiBytes_of_firstBad_none ht, Result.ok_bind]
  refine ⟨delivers_checkWindow_of_lt, fun hw hz => ?_, fun c hw hz ht => ?_, fun hw hz ht hl => ?_,
    fun hw hz ht hl => ⟨formatByte a.format, contentByte a.content, ?_, ?_, ?_, contentByte_bits a.content⟩⟩
  · rw [exec, execClock, encodeClock_of_window hw, if_pos hz, delivers_errWith]
  · rw [exec, execClock, encodeClock_of_fields hw hz, asciiBytes_of_firstBad ht, Result.err_bind, delivers_errWith]
  · rw [hrow hw hz ht, delivers_checkLen_of_lt (by omega), hlen]
  · rw [hrow hw hz ht, delivers_checkLen_of_le (by omega), layoutClock_eq, textBytes]
  · intro h24 year4 multiline hf
    rw [hf]
    exact formatByte_flags h24 year4 multiline
  · intro b hb
    rw [hb, formatByte]

/-- Settles O6, by evaluating the three rows. -/
theorem exitSaveResetPayloads : Obligations.ExitSaveResetPayloads :=
  fun _ => ⟨rfl, rfl, rfl⟩

/-- Settles O7: the reserved rows are RAW with the opcode in front, one byte longer. -/
theorem rawAndReservedPayloads : Obligations.RawAndReservedPayloads := by
  intro bs s
  have hfits (op : Byte) (hl : bs.length ≤ 65534) : exec (.raw (op :: bs)) s = .next (s.withBytes (op :: bs)) :=
    delivers_checkLen_of_le (Nat.succ_le_succ hl)
  have hlong (op : Byte) (hl : 65534 < bs.length) :
      exec (.raw (op :: bs)) s = .next (s.withError .payloadTooLarge (bs.length + 1)) :=
    exec_raw_tooLarge (by rw [List.length_cons]; omega) s
  exact ⟨delivers_checkLen_of_le, fun hl => exec_raw_tooLarge hl s,
    fun hl => ⟨hfits _ hl, hfits _ hl, hfits _ hl, hfits _ hl⟩,
    fun hl => ⟨hlong _ hl, hlong _ hl, hlong _ hl, hlong _ hl⟩⟩

/-! ## Functions -/

/-- FT_CELL is `format_text` of its one character, whose code is always ASCII (log entry 9). -/
theorem exec_ftCell (c : BitVec 3) (z : BitVec 4) (a : BitVec 7) (s : State) :
    exec (.ftCell c z a) s = exec (.formatText [a.toNat] (c.setWidth 8) (z.setWidth 8)) s := rfl

theorem exec_formatText_of_ascii {text : List Nat} {color size : Byte} (h1 : 1 ≤ color.toNat) (h7 : color.toNat ≤ 7)
    (hz : size.toNat ≤ 15) (ht : firstBad text = none) : exec (.formatText text color size) s =
      .next (s.withBytes (cells (BitVec.ofNat 8 (16 * color.toNat + size.toNat)) (textBytes text))) := by
  rw [exec, execFormatText, formatText_of_valid h1 h7 hz, asciiBytes_of_firstBad_none ht, Result.ok_bind, delivers_ok]

theorem exec_ftCell_of_colour {c : BitVec 3} (hc : c ≠ 0) (z : BitVec 4) (a : BitVec 7) : exec (.ftCell c z a) s =
    .next (s.withBytes [BitVec.ofNat 8 (16 * c.toNat + z.toNat), 0x00#8, BitVec.ofNat 8 a.toNat]) := by
  have hcolour : (c.setWidth 8).toNat = c.toNat := BitVec.toNat_setWidth_of_le (by decide)
  have hsize : (z.setWidth 8).toNat = z.toNat := BitVec.toNat_setWidth_of_le (by decide)
  have hpos : c.toNat ≠ 0 := fun h => hc (BitVec.eq_of_toNat_eq h)
  have hchar : firstBad [a.toNat] = none := by
    have := a.isLt
    simp [firstBad]
    omega
  rw [exec_ftCell, exec_formatText_of_ascii (by omega) (by omega) (by omega) hchar, hcolour, hsize]
  rfl

/-- Settles O8: colour, size and text decide in this order; a cell is three bytes, and FT_CELL the cell of one character. -/
theorem formatTextCells : Obligations.FormatTextCells := by
  refine ⟨fun c z a s => ⟨fun hc => exec_ftCell_of_colour hc z a, ?_⟩, fun text color size s =>
    ⟨delivers_formatText_of_bad_colour, delivers_formatText_of_bad_size, fun c h1 h7 hz ht => ?_, fun h1 h7 hz ht =>
      ⟨_, exec_formatText_of_ascii h1 h7 hz ht, ?_, cells_textBytes _ text⟩⟩⟩
  · rintro rfl
    exact delivers_formatText_of_bad_colour (.inl (by decide))
  · rw [exec, execFormatText, formatText_of_valid h1 h7 hz, asciiBytes_of_firstBad ht, Result.err_bind, delivers_errWith]
  · rw [length_cells, length_textBytes]

/-- Settles O9, from the two outcomes of each function. -/
theorem asciiBytesAndCheckLen : Obligations.AsciiBytesAndCheckLen := by
  intro text bs s
  refine ⟨fun c ht => ?_, fun ht => ?_, delivers_checkLen_of_le, delivers_checkLen_of_lt⟩
  · rw [exec, execAsciiBytes, asciiBytes_of_firstBad ht, delivers_errWith]
  · rw [exec, execAsciiBytes, asciiBytes_of_firstBad_none ht, delivers_ok, textBytes]

theorem exec_encodeCmd_of_expressible {cmd : Command} (h : cmd.expressible = true) (s : State) :
    exec (.encodeCmd cmd) s = delivers (encodeCmd cmd) s :=
  if_pos h

/-- Settles O10: past the guard `encode_cmd` records what the variant's encoder gives, as the variant's row does. -/
theorem encodeCmdDispatches : Obligations.EncodeCmdDispatches := by
  intro s
  refine ⟨fun ws hws => ?_, fun a => rfl, fun a => rfl, fun a => rfl, fun a => rfl, rfl, rfl, rfl, fun bs => rfl,
    fun cmd hcmd => ⟨_, exec_encodeCmd_of_expressible hcmd s⟩⟩
  calc exec (.encodeCmd (.division ws)) s
      = delivers (encodeDivision ws) s :=
        exec_encodeCmd_of_expressible (cmd := .division ws) (decide_eq_true hws) s
    _ = exec (.division ws) s := (if_pos hws).symm

/-- Settles O11, from the two outcomes of `rgb_of_color`. -/
theorem rgbOfColorComponents : Obligations.RgbOfColorComponents := by
  intro c s
  refine ⟨fun h1 h7 => ?_, fun h => ?_⟩
  · rw [exec, execRgbOfColor, rgbOfColor, if_neg (by omega)]
    rfl
  · rw [exec, execRgbOfColor, rgbOfColor, if_pos h]
    rfl

end Sys2Proof.Machine
end

section
/-! SUPPORT. The packet codec's parts, said once: what one body byte becomes, the length and the bytes of an escaped sequence,
`unescape` as its inverse, the checksum as a sum, and the header in the spec's own spelling (41_framing.md, 30_encoding.md). -/

namespace Sys2Proof.Machine

variable {s : State} {b c : Byte} {bs p : Bytes}

/-! ## One body byte -/

theorem reserved_eq_false_iff : reserved b = false ↔ b ≠ 0xA5#8 ∧ b ≠ 0xAA#8 ∧ b ≠ 0xAE#8 := by
  simp [reserved, and_assoc]

theorem pairSecond_iff : pairSecond c = true ↔ c = 0x05#8 ∨ c = 0x0A#8 ∨ c = 0x0E#8 := by
  simp [pairSecond, or_assoc]

theorem reserved_of_pairSecond (hc : pairSecond c = true) : reserved c = false := by
  rcases pairSecond_iff.1 hc with rfl | rfl | rfl <;> rfl

/-- The pair of a second byte stands for the reserved byte with that low nibble (30_encoding.md rule R61). -/
theorem escapeByte_of_pairSecond (hc : pairSecond c = true) : escapeByte (0xA0#8 ||| c) = [0xAA#8, c] := by
  rcases pairSecond_iff.1 hc with rfl | rfl | rfl <;> rfl

/-- Every reserved byte is the one some pair stands for. -/
theorem exists_pairSecond_of_reserved (hb : reserved b = true) : ∃ c, pairSecond c = true ∧ 0xA0#8 ||| c = b := by
  simp only [reserved, Bool.or_eq_true, beq_iff_eq] at hb
  obtain (rfl | rfl) | rfl := hb
  · exact ⟨0x05#8, rfl, rfl⟩
  · exact ⟨0x0A#8, rfl, rfl⟩
  · exact ⟨0x0E#8, rfl, rfl⟩

/-- What one body byte becomes on the wire: itself, or the pair that stands for it. -/
theorem escapeByte_cases (b : Byte) : (reserved b = false ∧ escapeByte b = [b]) ∨
    ∃ c, pairSecond c = true ∧ reserved b = true ∧ 0xA0#8 ||| c = b ∧ escapeByte b = [0xAA#8, c] := by
  cases hb : reserved b with
  | false => exact .inl ⟨rfl, escapeByte_plain hb⟩
  | true =>
    obtain ⟨c, hc, rfl⟩ := exists_pairSecond_of_reserved hb
    exact .inr ⟨c, hc, rfl, rfl, escapeByte_of_pairSecond hc⟩

/-! ## Escaped sequences -/

@[simp] theorem escape_cons (b : Byte) (bs : Bytes) : escape (b :: bs) = escapeByte b ++ escape bs := rfl

theorem escape_eq_flatMap (bs : Bytes) : escape bs = bs.flatMap escapeByte := by
  induction bs with
  | nil => rfl
  | cons b bs ih => rw [escape_cons, List.flatMap_cons, ih]

theorem length_escapeByte (b : Byte) : (escapeByte b).length = 1 + if reserved b then 1 else 0 := by
  rcases escapeByte_cases b with ⟨hr, he⟩ | ⟨c, -, hr, -, he⟩ <;> simp [hr, he]

theorem length_escape (bs : Bytes) : (escape bs).length = bs.length + bs.countP reserved := by
  induction bs with
  | nil => rfl
  | cons b bs ih =>
    rw [escape_cons, List.length_append, length_escapeByte, ih, List.length_cons, List.countP_cons]
    omega

theorem eq_prefix_or_not_reserved_of_mem_escapeByte {x : Byte} (hx : x ∈ escapeByte b) :
    x = 0xAA#8 ∨ reserved x = false := by
  rcases escapeByte_cases b with ⟨hr, he⟩ | ⟨c, hc, -, -, he⟩ <;> rw [he] at hx
  · exact .inr (List.mem_singleton.1 hx ▸ hr)
  · rcases List.mem_pair.1 hx with rfl | rfl
    · exact .inl rfl
    · exact .inr (reserved_of_pairSecond hc)

/-- The only reserved byte an escaped sequence holds is `0xAA`. -/
theorem not_mem_escape {d : Byte} (hd : reserved d = true) (hne : d ≠ 0xAA#8) (bs : Bytes) : d ∉ escape bs := by
  intro hmem
  rw [escape_eq_flatMap] at hmem
  obtain ⟨b, -, hb⟩ := List.mem_flatMap.1 hmem
  rcases eq_prefix_or_not_reserved_of_mem_escapeByte hb with hpre | hbare
  · exact hne hpre
  · exact Bool.false_ne_true (hbare.symm.trans hd)

/-- A `0xAA` is the first of a pair, by induction on the input: it stands in the first byte's pair or further on. -/
theorem pairSecond_after_prefix {l r : Bytes} (h : escape p = l ++ 0xAA#8 :: r) :
    ∃ c r', r = c :: r' ∧ pairSecond c = true := by
  induction p generalizing l with
  | nil => simp [escape] at h
  | cons b p ih =>
    rw [escape_cons] at h
    rcases escapeByte_cases b with ⟨hr, he⟩ | ⟨c, hc, -, -, he⟩
    · rw [he, List.singleton_append, List.cons_eq_append_iff] at h
      obtain ⟨-, hcons⟩ | ⟨l', -, h'⟩ := h
      · obtain ⟨hb, -⟩ := List.cons.inj hcons
        subst hb
        contradiction
      · exact ih h'
    · rw [he] at h
      match l, h with
      | [], h => exact ⟨c, escape p, (List.cons.inj h).2.symm, hc⟩
      | [_], h =>
        obtain ⟨hsecond, -⟩ := List.cons.inj (List.cons.inj h).2
        subst hsecond
        contradiction
      | _ :: _ :: l', h => exact ih (List.cons.inj (List.cons.inj h).2).2

/-! ## `unescape` as the inverse of `escape` -/

theorem unescape_plain (hb : reserved b = false) (bs : Bytes) : unescape (b :: bs) = (unescape bs).map (b :: ·) := by
  obtain ⟨-, hne, -⟩ := reserved_eq_false_iff.1 hb
  cases bs with
  | nil => simp [unescape, hb]
  | cons c bs => simp [unescape, hb, hne]

theorem unescape_pair (hc : pairSecond c = true) (bs : Bytes) :
    unescape (0xAA#8 :: c :: bs) = (unescape bs).map ((0xA0#8 ||| c) :: ·) := by
  simp [unescape, hc]

theorem unescape_escape (p : Bytes) : unescape (escape p) = some p := by
  induction p with
  | nil => rfl
  | cons b p ih =>
    rw [escape_cons]
    rcases escapeByte_cases b with ⟨hr, he⟩ | ⟨c, hc, -, hb, he⟩
    · rw [he, List.singleton_append, unescape_plain hr, ih, Option.map_some]
    · rw [he, List.cons_append, List.singleton_append, unescape_pair hc, ih, Option.map_some, hb]

theorem escape_of_unescape (h : unescape bs = some p) : escape p = bs := by
  fun_induction unescape bs generalizing p with
  | case1 => exact Option.some.inj h ▸ rfl
  | case2 => cases h
  | case3 b hb =>
    obtain rfl := Option.some.inj h
    rw [escape_cons, escapeByte_plain (Bool.eq_false_of_not_eq_true hb)]
    rfl
  | case4 b c rest hpair ih =>
    obtain ⟨rfl, hc⟩ := hpair
    obtain ⟨q, hq, rfl⟩ := Option.map_eq_some_iff.1 h
    rw [escape_cons, escapeByte_of_pairSecond hc, ih hq]
    rfl
  | case5 => cases h
  | case6 b c rest _ hb ih =>
    obtain ⟨q, hq, rfl⟩ := Option.map_eq_some_iff.1 h
    rw [escape_cons, escapeByte_plain (Bool.eq_false_of_not_eq_true hb), ih hq]
    rfl

theorem unescape_eq_some_iff : unescape bs = some p ↔ escape p = bs :=
  ⟨escape_of_unescape, fun h => h ▸ unescape_escape p⟩

theorem escape_injective : Function.Injective escape := fun p q h =>
  Option.some.inj (by rw [← unescape_escape p, h, unescape_escape])

/-! ## The checksum -/

theorem sumOf_concat (bs : Bytes) (b : Byte) : sumOf (bs ++ [b]) = sumOf bs + b.toNat := by
  simp [sumOf]

/-- Reducing after every addition gives what reducing once at the end gives (rule R132). -/
theorem checksum_eq_ofNat_sumOf (bs : Bytes) : checksum bs = BitVec.ofNat 16 (sumOf bs) := by
  induction bs using List.reverseRecOn with
  | nil => rfl
  | append_singleton bs b ih =>
    rw [checksum_concat, sumOf_concat, ih, BitVec.ofNat_add, BitVec.ofNat_toNat]

theorem le16_ofNat (n : Nat) :
    le16 (BitVec.ofNat 16 n) = [BitVec.ofNat 8 (n % 256), BitVec.ofNat 8 (n / 256 % 256)] := by
  have hhigh : highOf (BitVec.ofNat 16 n) = BitVec.ofNat 8 (n / 256 % 256) := by
    rw [highOf, BitVec.toNat_ofNat, show (2 : Nat) ^ 16 = 256 * 256 from rfl, Nat.mod_mul_right_div_self]
  rw [le16_eq, ← lowByte_eq_lowOf, lowByte_ofNat, hhigh]

theorem checksumBytes_eq (bs : Bytes) :
    checksumBytes bs = [BitVec.ofNat 8 (sumOf bs % 256), BitVec.ofNat 8 (sumOf bs / 256 % 256)] := by
  rw [checksumBytes, checksum_eq_ofNat_sumOf, le16_ofNat]

/-! ## The header -/

theorem reserved_confByte (conf : Bool) : reserved (confByte conf) = false := by
  cases conf <;> rfl

theorem length_buildHeader (u : Byte) (conf : Bool) (len : Half) (i k : Byte) :
    (buildHeader u conf len i k).length = 9 := rfl

/-- Four header bytes are never reserved: the three fixed ones and the confirmation byte. -/
theorem countP_reserved_buildHeader_le (u : Byte) (conf : Bool) (len : Half) (i k : Byte) :
    (buildHeader u conf len i k).countP reserved ≤ 5 := by
  have hfixed : (buildHeader u conf len i k).countP reserved =
      [u, lowByte len, highByte len, i, k].countP reserved := by
    simp [buildHeader, layoutHeader, List.countP_cons, reserved_confByte,
      show reserved 0x68#8 = false from rfl, show reserved 0x32#8 = false from rfl, show reserved 0x7B#8 = false from rfl]
  rw [hfixed]
  exact List.countP_le_length

/-! ## Recording a result, and symbols that are not offered -/

@[simp] theorem gives_bytes (bs : Bytes) (s : State) : gives (.bytes bs) s = .next (s.withBytes bs) := rfl

theorem wireSymbol_of_not_offered {offered : Bool} {taken : State → Step} (h : offered = false) :
    wireSymbol bs offered taken s = .next (s.withBytes bs) := by
  subst h
  rfl

theorem State.atBody_eq_false (h : s.cur ≠ some b ∨ s.pc.esc = true) : s.atBody b = false := by
  refine decide_eq_false ?_
  rintro ⟨hesc, hcur⟩
  rcases h with hne | hset
  · exact hne hcur
  · exact Bool.false_ne_true (hesc.symm.trans hset)

end Sys2Proof.Machine
end

section
/-! SUPPORT. The statements about the packet codec (41_framing.md) and the wire symbols, from the codec's parts above. -/

namespace Sys2Proof.Machine

/-- Settles O12: the HEADER row joins the two length bytes again. -/
theorem headerHasNineBytes : Obligations.HeaderHasNineBytes := by
  intro u c len i k s
  have hrow : joinHalf (highOf len) (lowOf len) = len := by
    rw [← highByte_eq_highOf, ← lowByte_eq_lowOf, joinHalf_highByte_lowByte]
  constructor
  · rw [exec, execBuildHeader, gives_bytes, buildHeader, lowByte_eq_lowOf, highByte_eq_highOf]
    rfl
  · rw [exec, execHeader, hrow]
    rfl

/-- Settles O13: the checksum is the sum in 16 bits. -/
theorem checksumIsTheSumModulo65536 : Obligations.ChecksumIsTheSumModulo65536 := by
  intro bs s
  have hnumber : checksum bs = BitVec.ofNat 16 (sumOf bs % 65536) := by
    apply BitVec.eq_of_toNat_eq
    rw [checksum_eq_ofNat_sumOf, BitVec.toNat_ofNat, BitVec.toNat_ofNat, Nat.mod_mod]
  refine ⟨?_, ?_, fun lo hi => ?_⟩
  · rw [exec, execChecksum, hnumber]
    rfl
  · rw [exec, execChecksumBytes, checksumBytes_eq, gives_bytes]
  · rw [exec, execChecksumField, le16, lowByte_joinHalf, highByte_joinHalf, gives_bytes]

/-- Settles O14: `escape` maps each byte to its wire bytes. -/
theorem escapeSubstitutesEachByte : Obligations.EscapeSubstitutesEachByte := by
  intro bs s
  rw [exec, execEscape, gives_bytes, escape_eq_flatMap]
  rfl

/-- Settles O15; the injectivity is that `unescape` undoes `escape`. -/
theorem escapeProperties : Obligations.EscapeProperties := by
  refine ⟨length_escape, escape_append, fun p => ⟨not_mem_escape rfl (by decide) p, not_mem_escape rfl (by decide) p⟩,
    fun p l r h => ?_, fun p q h => escape_injective h⟩
  obtain ⟨c, r', hr, hc⟩ := pairSecond_after_prefix h
  exact ⟨c, r', hr, pairSecond_iff.1 hc⟩

/-- Settles O16: `unescape` gives a value on the outputs of `escape` alone. -/
theorem unescapeInvertsEscape : Obligations.UnescapeInvertsEscape := by
  intro bs s
  refine ⟨?_, fun hout => ?_, fun p => unescape_eq_some_iff⟩
  · rw [exec, execUnescape, unescape_escape, Option.getD_some, gives_bytes]
  · have hnone : unescape bs = none :=
      Option.eq_none_iff_forall_ne_some.2 fun p hp => hout p (unescape_eq_some_iff.1 hp)
    rw [exec, execUnescape, hnone, Option.getD_none, gives_bytes]

/-- Settles O17, from the bytes of the header's length field and of the checksum. -/
theorem frameAndMakeFrame : Obligations.FrameAndMakeFrame := by
  intro u c p i k s
  refine ⟨rfl, fun hlen => ?_⟩
  intro h
  have hheader : buildHeader u c (BitVec.ofNat 16 p.length) i k = h := by
    rw [buildHeader, lowByte_ofNat, highByte_ofNat hlen]
    rfl
  calc exec (.makeFrame u c p i k) s
      = gives (.bytes (makeFrame u c p i k)) s := if_pos hlen
    _ = .next (s.withBytes (frame (h ++ p ++ checksumBytes (h ++ p)))) := by rw [gives_bytes, makeFrame, hheader]; rfl
    _ = _ := by rw [checksumBytes_eq]; rfl

/-- Settles O18: the delimiters around an escaped body, which holds neither; the body has 11 bytes beside the payload, of which
four of the header are never reserved. -/
theorem frameShape : Obligations.FrameShape := by
  intro u c p i k _ h body
  have hframe : makeFrame u c p i k = 0xA5#8 :: (escape body ++ [0xAE#8]) := rfl
  have hbody : body.length = p.length + 11 := by
    simp [body, h, length_buildHeader, le16]
    omega
  have hheader : h.countP reserved ≤ 5 := countP_reserved_buildHeader_le ..
  have hpayload : p.countP reserved ≤ p.length := List.countP_le_length
  have hchecksum : (le16 (checksum (h ++ p))).countP reserved ≤ 2 := List.countP_le_length
  refine ⟨⟨escape body, hframe, not_mem_escape rfl (by decide) body, not_mem_escape rfl (by decide) body⟩, ?_, ?_⟩
  · rw [hframe, List.length_cons, List.length_append, length_escape, hbody, List.length_singleton]
    omega
  · rw [List.countP_append, List.countP_append]
    omega

/-- Settles O37: a symbol that is not offered only records its bytes. -/
theorem wireSymbolsGiveTheirBytes : Obligations.WireSymbolsGiveTheirBytes := by
  intro s
  refine ⟨fun h => wireSymbol_of_not_offered (decide_eq_false h), fun h => wireSymbol_of_not_offered (decide_eq_false h),
    fun h => wireSymbol_of_not_offered (State.atBody_eq_false h), fun h => wireSymbol_of_not_offered (State.atBody_eq_false h),
    fun h => wireSymbol_of_not_offered (State.atBody_eq_false h), fun b h5 hA hE h => ?_⟩
  have hb : reserved b = false := reserved_eq_false_iff.2 ⟨h5, hA, hE⟩
  calc exec (.literal b) s
      = wireSymbol (escapeByte b) (s.atBody b) (sequencerStep .accept) s := if_neg (by simp [hb])
    _ = .next (s.withBytes [b]) := by rw [escapeByte_plain hb, wireSymbol_of_not_offered (State.atBody_eq_false h)]

end Sys2Proof.Machine
end

section
/-! SUPPORT. The bytes a busy block still owes the wire, as a function of its state: each accepted byte is the first of them, so a
run of the sequencer sends them in order and ends when none is left (43_sequencer.md rules R171 to R180, R186). -/

namespace Sys2Proof.Machine

variable {s t u : State}

/-! ## The body of the packet in flight -/

/-- The nine header registers, in the order the sequencer reads them. -/
def State.header (s : State) : Bytes :=
  [0x68, 0x32, s.xUnit, 0x7B, s.xConf, s.xLenLo, s.xLenHi, s.xPidx, s.xPtot]

theorem State.readX_eq_header (s : State) (i : Nat) : s.readX i = s.header[i]? := by
  match i with
  | 0 | 1 | 2 | 3 | 4 | 5 | 6 | 7 | 8 => rfl
  | n + 9 => simp [State.readX, State.header]

/-- The bytes the checksum is taken of. -/
def State.summedBytes (s : State) : Bytes := s.header ++ s.packet

theorem State.length_summedBytes (s : State) : s.summedBytes.length = 9 + s.packet.length := by
  simp [State.summedBytes, State.header]
  omega

/-- How many body bytes of the packet have left whole; a pair that has begun does not count. -/
def State.bodyPos (s : State) : Nat :=
  match s.pc.phase with
  | .idle | .sof => 0
  | .hdr => s.pc.idx.toNat
  | .pay => 9 + s.pc.idx.toNat
  | .ckl => 9 + s.packet.length
  | .ckh => 10 + s.packet.length
  | .fin => 11 + s.packet.length

/-- `v` with the summed bytes from number `n` on added. -/
def State.sumFrom (s : State) (v : Half) (n : Nat) : Half :=
  (s.summedBytes.drop n).foldl (fun a b => a + b.setWidth 16) v

/-- The checksum the packet will carry: `acc` with the bytes it does not yet count. Of a pair, the first byte counts it. -/
def State.finalSum (s : State) : Half := s.sumFrom s.acc (s.bodyPos + s.pc.esc.toNat)

/-- The unescaped body of the packet in flight. -/
def State.body (s : State) : Bytes := s.summedBytes ++ le16 s.finalSum

theorem State.length_body (s : State) : s.body.length = 11 + s.packet.length := by
  simp [State.body, State.length_summedBytes, le16]
  omega

theorem State.Inv.length_packet (hs : s.Inv) (hb : s.pc.phase.isBody = true) : s.packet.length = s.plen.toNat := by
  refine (hs.loaded ?_).length.symm
  intro hp
  rw [hp] at hb
  cases hb

theorem Phase.isBody_iff {p : Phase} : p.isBody = true ↔ p = .hdr ∨ p = .pay ∨ p = .ckl ∨ p = .ckh := by
  cases p <;> simp [Phase.isBody]

/-- A body phase stands before a summed byte exactly in `HDR` and `PAY`. -/
theorem State.Inv.bodyPos_lt_iff (hs : s.Inv) (hb : s.pc.phase.isBody = true) :
    s.bodyPos < s.summedBytes.length ↔ s.pc.phase = .hdr ∨ s.pc.phase = .pay := by
  have hpos := hs.position
  have hlen := hs.length_packet hb
  rw [State.length_summedBytes]
  rcases Phase.isBody_iff.1 hb with hp | hp | hp | hp
  · have h8 : s.pc.idx.toNat ≤ 8 := by simpa [State.positionOk, hp] using hpos
    simp [State.bodyPos, hp]
    omega
  · have hidx : s.pc.idx.toNat < s.plen.toNat := by simpa [State.positionOk, hp] using hpos
    simp [State.bodyPos, hp]
    omega
  · simp [State.bodyPos, hp]
  · simp [State.bodyPos, hp]

/-- Past the summed bytes there is nothing to add. -/
theorem State.sumFrom_of_le {v : Half} {n : Nat} (h : s.summedBytes.length ≤ n) : s.sumFrom v n = v := by
  simp [State.sumFrom, List.drop_eq_nil_of_le h]

/-- The current byte is the body byte at the position. -/
theorem State.Inv.cur_eq_body (hs : s.Inv) (hb : s.pc.phase.isBody = true) : s.cur = s.body[s.bodyPos]? := by
  have hlt := hs.bodyPos_lt_iff hb
  have summed (h : s.bodyPos < s.summedBytes.length) : s.body[s.bodyPos]? = s.summedBytes[s.bodyPos]? :=
    List.getElem?_append_left h
  have checked (h : ¬ s.bodyPos < s.summedBytes.length) :
      s.body[s.bodyPos]? = (le16 s.acc)[s.bodyPos - s.summedBytes.length]? := by
    rw [State.body, List.getElem?_append_right (Nat.not_lt.1 h), State.finalSum,
      State.sumFrom_of_le (Nat.le_add_right_of_le (Nat.not_lt.1 h))]
  have hlen := s.length_summedBytes
  have hpos := hs.position
  rcases Phase.isBody_iff.1 hb with hp | hp | hp | hp
  · have h8 : s.pc.idx.toNat < s.header.length := by
      simp only [State.positionOk, hp, decide_eq_true_eq] at hpos
      exact Nat.lt_succ_of_le hpos
    rw [summed (hlt.2 (.inl hp))]
    simp only [State.cur, State.bodyPos, hp]
    rw [s.readX_eq_header, State.summedBytes, List.getElem?_append_left h8]
  · have hidx : s.pc.idx.toNat < s.plen.toNat := by simpa [State.positionOk, hp] using hpos
    rw [summed (hlt.2 (.inr hp))]
    simp only [State.cur, State.bodyPos, hp]
    rw [State.memRead, if_pos hidx, (hs.loaded (by simp [hp])).buffer _ hidx, State.summedBytes,
      List.getElem?_append_right (by simp [State.header]), show s.header.length = 9 from rfl, Nat.add_sub_cancel_left]
  · have h0 : s.bodyPos - s.summedBytes.length = 0 := by simp [State.bodyPos, hp, hlen]
    rw [checked (mt hlt.1 (by simp [hp])), h0]
    simp [State.cur, hp, le16]
  · have h1 : s.bodyPos - s.summedBytes.length = 1 := by simp [State.bodyPos, hp, hlen]; omega
    rw [checked (mt hlt.1 (by simp [hp])), h1]
    simp [State.cur, hp, le16]

/-- The body from the position on begins with the current byte. -/
theorem State.Inv.drop_body (hs : s.Inv) (hb : s.pc.phase.isBody = true) {b : Byte} (hc : s.cur = some b) :
    s.body.drop s.bodyPos = b :: s.body.drop (s.bodyPos + 1) := by
  obtain ⟨hlt, hget⟩ := List.getElem?_eq_some_iff.1 ((hs.cur_eq_body hb).symm.trans hc)
  rw [List.drop_eq_getElem_cons hlt, hget]

/-- Counting the current byte into `acc` where it is summed leaves the sum of the packet. -/
theorem State.Inv.sumFrom_succ (hs : s.Inv) (hb : s.pc.phase.isBody = true) {b : Byte} (hc : s.cur = some b) (v : Half) :
    s.sumFrom (if s.pc.phase = .hdr ∨ s.pc.phase = .pay then v + b.setWidth 16 else v) (s.bodyPos + 1) =
      s.sumFrom v s.bodyPos := by
  have hlt := hs.bodyPos_lt_iff hb
  by_cases hsum : s.pc.phase = .hdr ∨ s.pc.phase = .pay
  · have hget : s.summedBytes[s.bodyPos]? = some b := by
      rw [← hc, hs.cur_eq_body hb, State.body, List.getElem?_append_left (hlt.2 hsum)]
    obtain ⟨hpos, hget⟩ := List.getElem?_eq_some_iff.1 hget
    rw [if_pos hsum, State.sumFrom, State.sumFrom, List.drop_eq_getElem_cons hpos, hget, List.foldl_cons]
  · have hle : s.summedBytes.length ≤ s.bodyPos := Nat.not_lt.1 (mt hlt.1 hsum)
    rw [if_neg hsum, State.sumFrom_of_le hle, State.sumFrom_of_le (Nat.le_succ_of_le hle)]

/-- The successor position is one body byte further, inside the packet or at its end delimiter. -/
theorem State.Inv.bodyPos_of_nextPos (hs : s.Inv) (hb : s.pc.phase.isBody = true) (hpk : t.packet = s.packet)
    (hn : nextPos s.plen.toNat s.pc = some t.pc) : t.bodyPos = s.bodyPos + 1 ∧ t.pc.phase ≠ .sof := by
  have hlen := hs.length_packet hb
  unfold State.bodyPos
  rw [hpk, hlen]
  unfold nextPos at hn
  generalize t.pc = q at hn
  cases hp : s.pc.phase <;> simp only [hp] at hn ⊢
  case hdr =>
    split at hn
    · cases hn
      simp [BitVec.toNat_add]
      omega
    · split at hn
      · split at hn <;> cases hn <;> simp <;> omega
      · cases hn
  case pay =>
    split at hn
    · cases hn
      simp [BitVec.toNat_add]
      omega
    · split at hn <;> cases hn
      simp
      omega
  case ckl | ckh => cases hn; simp; omega
  all_goals cases hn

/-! ## What is left of the packet and of the group -/

/-- The wire bytes of the packet in flight that have not left. -/
def State.packetLeft (s : State) : Bytes :=
  match s.pc.phase with
  | .idle => []
  | .sof => frame (s.summedBytes ++ le16 (checksum s.summedBytes))
  | .hdr | .pay | .ckl | .ckh | .fin => (escape (s.body.drop s.bodyPos)).drop s.pc.esc.toNat ++ [0xAE]

/-- The frames of the group from number `n` on. -/
def State.framesLeft (s : State) (n : Nat) : List Bytes :=
  framesFrom s.fUnit s.fConf (totalLessOne s.batch) n (s.batch.drop n)

/-- The wire bytes of the operation in flight that have not left: none at `IDLE`. -/
def State.groupLeft (s : State) : Bytes := s.packetLeft ++ (s.framesLeft (s.bpos.toNat + 1)).flatten

theorem State.packetLeft_inside (h0 : s.pc.phase ≠ .idle) (h1 : s.pc.phase ≠ .sof) :
    s.packetLeft = (escape (s.body.drop s.bodyPos)).drop s.pc.esc.toNat ++ [0xAE] := by
  unfold State.packetLeft
  cases hp : s.pc.phase <;> simp_all

theorem State.packetLeft_sof (hp : s.pc.phase = .sof) :
    s.packetLeft = frame (s.summedBytes ++ le16 (checksum s.summedBytes)) := by
  simp [State.packetLeft, hp]

theorem State.packetLeft_fin (hp : s.pc.phase = .fin) (he : s.pc.esc = false) : s.packetLeft = [0xAE] := by
  have hend : s.body.drop s.bodyPos = [] := List.drop_eq_nil_of_le (by simp [s.length_body, State.bodyPos, hp])
  rw [State.packetLeft_inside (by simp [hp]) (by simp [hp]), hend, he]
  rfl

theorem State.framesLeft_of_getElem? {n : Nat} {p : Bytes} (h : s.batch[n]? = some p) :
    s.framesLeft n = makeFrame s.fUnit s.fConf p (BitVec.ofNat 8 n) (totalLessOne s.batch) :: s.framesLeft (n + 1) := by
  obtain ⟨hlt, hget⟩ := List.getElem?_eq_some_iff.1 h
  rw [State.framesLeft, List.drop_eq_getElem_cons hlt, hget, framesFrom]
  rfl

theorem State.framesLeft_of_le {n : Nat} (h : s.batch.length ≤ n) : s.framesLeft n = [] := by
  rw [State.framesLeft, List.drop_eq_nil_of_le h, framesFrom]

/-- Just after a packet is loaded the operation owes its frame and those of the packets after it (rule R186). -/
theorem State.AtPacket.groupLeft {p : Bytes} (h : s.AtPacket p) :
    (s.startPacket p (BitVec.ofNat 8 s.bpos.toNat)).groupLeft = (s.framesLeft s.bpos.toNat).flatten := by
  have hpacket : (s.startPacket p (BitVec.ofNat 8 s.bpos.toNat)).packet = p := by
    simp [State.packet, State.startPacket, List.getD_eq_getElem?_getD, h.packet]
  rw [State.framesLeft_of_getElem? h.packet, State.groupLeft, State.packetLeft_sof rfl, State.summedBytes, hpacket]
  rfl

/-- A body byte whose last wire byte leaves is off what is owed; `v` is the checksum accumulator after it. -/
theorem State.Inv.packetLeft_of_moved (hs : s.Inv) (hb : s.pc.phase.isBody = true) {b w : Byte} {v : Half} {q : Pc}
    (hc : s.cur = some b) (hn : nextPos s.plen.toNat s.pc = some q)
    (hsum : s.sumFrom v (s.bodyPos + 1) = s.finalSum) :
    s.packetLeft = (escapeByte b).drop s.pc.esc.toNat ++ (((s.setAcc v).emit w).setPc q).packetLeft := by
  obtain ⟨hpos, hsof⟩ := hs.bodyPos_of_nextPos (t := ((s.setAcc v).emit w).setPc q) hb rfl hn
  obtain ⟨hidle, hesc, -⟩ := nextPos_ok (t := ((s.setAcc v).emit w).setPc q) hn
  have hbody : (((s.setAcc v).emit w).setPc q).body = s.body := by
    rw [State.body, State.body, State.finalSum, hpos, hesc, ← hsum]
    rfl
  have hlen : s.pc.esc.toNat ≤ (escapeByte b).length := by
    have := s.pc.esc.toNat_le
    rw [length_escapeByte]
    omega
  have hbusy : s.pc.phase ≠ .idle ∧ s.pc.phase ≠ .sof := by
    rcases Phase.isBody_iff.1 hb with hp | hp | hp | hp <;> simp [hp]
  rw [State.packetLeft_inside hbusy.1 hbusy.2, State.packetLeft_inside hidle hsof, hbody, hpos, hesc,
    hs.drop_body hb hc, escape_cons, List.drop_append_of_le_length hlen, List.append_assoc]
  rfl

/-- The first byte of a pair is the first wire byte of its body byte, and the rest is still owed. -/
theorem State.Inv.packetLeft_of_first (hs : s.Inv) (hb : s.pc.phase.isBody = true) {b : Byte} {v : Half}
    (hc : s.cur = some b) (hr : reserved b = true) (he : s.pc.esc = false)
    (hsum : s.sumFrom v (s.bodyPos + 1) = s.finalSum) :
    s.packetLeft = 0xAA :: (((s.setAcc v).emit 0xAA).setPc { s.pc with esc := true }).packetLeft := by
  have hbody : (((s.setAcc v).emit 0xAA).setPc { s.pc with esc := true }).body = s.body := by
    rw [State.body, State.body, ← hsum]
    rfl
  have hbusy : s.pc.phase ≠ .idle ∧ s.pc.phase ≠ .sof := by
    rcases Phase.isBody_iff.1 hb with hp | hp | hp | hp <;> simp [hp]
  rw [State.packetLeft_inside hbusy.1 hbusy.2, State.packetLeft_inside (by exact hbusy.1) (by exact hbusy.2), hbody, he]
  show _ = 0xAA :: ((escape (s.body.drop s.bodyPos)).drop 1 ++ [0xAE])
  rw [hs.drop_body hb hc, escape_cons, escapeByte_reserved hr]
  rfl

/-! ## One accepted byte -/

theorem addToAcc_ite {P : Prop} [Decidable P] {b : Byte} :
    (if P then s.addToAcc b else s) = s.setAcc (if P then s.acc + b.setWidth 16 else s.acc) := by
  split <;> rfl

/-- An accepted byte is the first one owed. -/
theorem AcceptCase.groupLeft (h : AcceptCase s t) (hs : s.Inv) :
    ∃ b, t.wire = s.wire ++ [b] ∧ s.groupLeft = b :: t.groupLeft := by
  cases h with
  | start hp he ht =>
    subst ht
    refine ⟨0xA5, rfl, ?_⟩
    rw [State.groupLeft, State.packetLeft_sof hp]
    rfl
  | plain b q hb he hc hr hn ht =>
    have hsum := hs.sumFrom_succ hb hc s.acc
    rw [addToAcc_ite] at ht
    subst ht
    refine ⟨b, rfl, ?_⟩
    rw [State.groupLeft, hs.packetLeft_of_moved (w := b) hb hc hn (hsum.trans (by rw [State.finalSum, he]; rfl)), he,
      escapeByte_plain hr]
    rfl
  | first b hb he hc hr ht =>
    have hsum := hs.sumFrom_succ hb hc s.acc
    rw [addToAcc_ite] at ht
    subst ht
    refine ⟨0xAA, rfl, ?_⟩
    rw [State.groupLeft, hs.packetLeft_of_first hb hc hr he (hsum.trans (by rw [State.finalSum, he]; rfl))]
    rfl
  | second b q hb he hc hr hn ht =>
    subst ht
    refine ⟨b &&& 0x0F, rfl, ?_⟩
    rw [State.groupLeft, hs.packetLeft_of_moved (w := b &&& 0x0F) (v := s.acc) hb hc hn (by rw [State.finalSum, he]; rfl), he,
      escapeByte_reserved hr]
    rfl
  | more p hp he hb hl ht =>
    subst ht
    refine ⟨0xAE, rfl, ?_⟩
    have hd := hs.batchDepth.trans Config.qdepth_le
    have hlt := (List.getElem?_eq_some_iff.1 hb).1
    have hpos : (s.bpos + 1).toNat = s.bpos.toNat + 1 := by
      simp [BitVec.toNat_add]
      omega
    have hat : State.AtPacket { s.emit 0xAE with bpos := s.bpos + 1 } p :=
      ⟨⟨hs.pendingLengths, hs.pendingDepth, hs.buffer⟩, hs.batchLengths, hs.batchDepth, hpos ▸ hb⟩
    have hleft := hat.groupLeft
    rw [hpos] at hleft
    rw [State.groupLeft, State.packetLeft_fin hp he]
    exact congrArg (0xAE :: ·) hleft.symm
  | last hp he hb ht =>
    subst ht
    refine ⟨0xAE, rfl, ?_⟩
    rw [State.groupLeft, State.packetLeft_fin hp he, State.framesLeft_of_le (Nat.not_lt.1 hb)]
    rfl

/-- What an accepted byte leaves alone, and the result it completes the operation with when it is the last. -/
structure Accepted (s t : State) : Prop where
  pending : t.pending = s.pending
  queueEnabled : t.queueEnabled = s.queueEnabled
  port : t.port = s.port
  inputs : t.inputs = s.inputs
  result : t.pc.phase ≠ .idle ∧ t.resp = s.resp ∧ t.errCode = s.errCode ∨
    t.pc.phase = .idle ∧ t.resp = s.resp ++ [Response.ok] ∧ t.errCode = 0

theorem Accepted.moved (v : Half) (w : Byte) {q : Pc} (hq : q.phase ≠ .idle) :
    Accepted s (((s.setAcc v).emit w).setPc q) :=
  ⟨rfl, rfl, rfl, rfl, .inl ⟨hq, rfl, rfl⟩⟩

theorem AcceptCase.accepted (h : AcceptCase s t) (hb : s.pc.phase ≠ .idle) : Accepted s t := by
  cases h with
  | start _ _ ht => exact ht ▸ .moved 0 0xA5 (by simp)
  | plain b q _ _ _ _ hn ht =>
    rw [addToAcc_ite] at ht
    exact ht ▸ .moved _ b (nextPos_ok (t := s.setPc q) hn).1
  | first b _ _ _ _ ht =>
    rw [addToAcc_ite] at ht
    exact ht ▸ .moved _ 0xAA hb
  | second b q _ _ _ _ hn ht => exact ht ▸ .moved s.acc _ (nextPos_ok (t := s.setPc q) hn).1
  | more p _ _ _ _ ht =>
    subst ht
    exact ⟨by simp, by simp, by simp, by simp, .inl (by simp)⟩
  | last _ _ _ ht =>
    subst ht
    exact ⟨rfl, rfl, rfl, rfl, .inr ⟨rfl, rfl, rfl⟩⟩

/-! ## A run of the sequencer -/

/-- Of the bytes `s` owes, the first `n` have left, or all of them: `t` owes the rest. The operation has ended with `Ok` in
between, or the block is busy, or at rest, as it was. -/
structure Sends (s t : State) (n : Nat) : Prop where
  inv : t.Inv
  wire : t.wire = s.wire ++ s.groupLeft.take n
  left : t.groupLeft = s.groupLeft.drop n
  pending : t.pending = s.pending
  queueEnabled : t.queueEnabled = s.queueEnabled
  port : t.port = s.port
  result : (s.pc.phase ≠ .idle ∧ t.pc.phase = .idle ∧ t.resp = s.resp ++ [Response.ok] ∧ t.errCode = 0) ∨
    ((t.pc.phase = .idle ↔ s.pc.phase = .idle) ∧ t.resp = s.resp ∧ t.errCode = s.errCode)

theorem Sends.refl (hs : s.Inv) : Sends s s 0 :=
  ⟨hs, by simp, by simp, rfl, rfl, rfl, .inr ⟨.rfl, rfl, rfl⟩⟩

theorem Sends.trans {m n : Nat} (h : Sends s t m) (ht : Sends t u n) : Sends s u (m + n) where
  inv := ht.inv
  wire := by rw [ht.wire, h.wire, h.left, List.append_assoc, ← List.take_add]
  left := by rw [ht.left, h.left, List.drop_drop]
  pending := ht.pending.trans h.pending
  queueEnabled := ht.queueEnabled.trans h.queueEnabled
  port := ht.port.trans h.port
  result := by
    rcases h.result with ⟨hs, htp, hresp, hcode⟩ | ⟨hp, hresp, hcode⟩ <;>
      rcases ht.result with ⟨hb, hup, hresp', hcode'⟩ | ⟨hp', hresp', hcode'⟩
    · exact absurd htp hb
    · exact .inl ⟨hs, hp'.2 htp, hresp'.trans hresp, hcode'.trans hcode⟩
    · exact .inl ⟨mt hp.2 hb, hup, hresp ▸ hresp', hcode'⟩
    · exact .inr ⟨hp'.trans hp, hresp'.trans hresp, hcode'.trans hcode⟩

theorem State.Inv.groupLeft_of_idle (hs : s.Inv) (hp : s.pc.phase = .idle) : s.groupLeft = [] := by
  simp [State.groupLeft, State.packetLeft, hp, State.framesLeft, hs.idleBatch.1 hp, framesFrom]

/-- A block is at rest exactly when nothing is owed. -/
theorem State.Inv.groupLeft_eq_nil (hs : s.Inv) : s.groupLeft = [] ↔ s.pc.phase = .idle := by
  refine ⟨fun h => ?_, hs.groupLeft_of_idle⟩
  by_contra hb
  obtain ⟨t, -, hcase⟩ := accept_cases hs hb
  obtain ⟨b, -, hleft⟩ := hcase.groupLeft hs
  simp [h] at hleft

/-- A block at rest owes nothing, however many bytes the sink would take. -/
theorem Sends.idle (hs : s.Inv) (hp : s.pc.phase = .idle) (n : Nat) : Sends s s n := by
  have hnil := hs.groupLeft_of_idle hp
  exact { Sends.refl hs with wire := by simp [hnil], left := by simp [hnil] }

theorem AcceptCase.sends (h : AcceptCase s t) (hs : s.Inv) (hb : s.pc.phase ≠ .idle) : Sends s t 1 := by
  obtain ⟨b, hwire, hleft⟩ := h.groupLeft hs
  have ha := h.accepted hb
  refine ⟨h.inv hs, by rw [hwire, hleft]; rfl, by rw [hleft]; rfl, ha.pending, ha.queueEnabled, ha.port, ?_⟩
  rcases ha.result with ⟨hp, hresp⟩ | hend
  · exact .inr ⟨iff_of_false hp hb, hresp⟩
  · exact .inl ⟨hb, hend⟩

/-- A step of the sequencer that does not fail sends a byte when the sink takes it (rule R182). -/
theorem sequencerStep_sends (a : Answer) (hs : s.Inv) (hn : ∀ e, a ≠ .fail e) :
    ∃ t, sequencerStep a s = .next t ∧ Sends s t (accepts [a]) ∧ t.inputs = s.inputs := by
  by_cases hp : s.pc.phase = .idle
  · exact ⟨s, sequencerStep_idle a hp, .idle hs hp _, rfl⟩
  · rw [sequencerStep_answered a hp]
    cases a with
    | accept =>
      obtain ⟨t, ht, hcase⟩ := accept_cases hs hp
      exact ⟨t, ht, hcase.sends hs hp, (hcase.accepted hp).inputs⟩
    | stall => exact ⟨s, rfl, .refl hs, rfl⟩
    | fail e => exact absurd rfl (hn e)

theorem accepts_cons (a : Answer) (answers : List Answer) : accepts (a :: answers) = accepts [a] + accepts answers := by
  rw [accepts, accepts, accepts, ← List.count_append, List.singleton_append]

theorem noFailure_cons {a : Answer} {answers : List Answer} :
    noFailure (a :: answers) ↔ (∀ e, a ≠ .fail e) ∧ noFailure answers := by
  simp [noFailure, forall_and, eq_comm]

/-- A run of the sequencer that never fails sends as many of the bytes owed as the sink takes (rule R186). -/
theorem runAnswers_sends (answers : List Answer) (hs : s.Inv) (hn : noFailure answers) :
    ∃ t, runAnswers answers s = .next t ∧ Sends s t (accepts answers) := by
  induction answers generalizing s with
  | nil => exact ⟨s, rfl, .refl hs⟩
  | cons a answers ih =>
    obtain ⟨ha, hrest⟩ := noFailure_cons.1 hn
    obtain ⟨t, ht, hst, -⟩ := sequencerStep_sends a hs ha
    obtain ⟨u, hu, htu⟩ := ih hst.inv hrest
    rw [runAnswers, ht, andThen_next, accepts_cons]
    exact ⟨u, hu, hst.trans htu⟩

end Sys2Proof.Machine
end

section
/-! SUPPORT. What a step runs, by the kind of its next input, said once (42_queue_ops.md rule R150; 43_sequencer.md rule R170). -/

namespace Sys2Proof.Machine

variable {s t : State} {more : List Input}

theorem step_of_run {i : Instr} (h : fetch s = .run i t) : step s = exec i t := by
  rw [step, h]

theorem step_of_quiet (h : fetch s = .quiet t) : step s = .next t := by
  rw [step, h]

theorem step_of_reject {e : DecodeError} (h : fetch s = .reject e) : step s = .refused (.undecodable e) := by
  rw [step, h]

theorem step_of_issue {op : HostOp} (h : s.inputs = .issue op :: more) :
    step s = .next { s with inputs := more, port := s.port ++ [op] } := by
  simp [step, fetch, State.nextInput, State.dropInput, h]

theorem step_of_host {op : HostOp} {rest : List HostOp} (h : s.inputs = .host :: more) (hp : s.port = op :: rest) :
    step s = exec (toInstr op) { s with inputs := more, port := rest } := by
  simp [step, fetch, State.nextInput, State.dropInput, h, fetchHost, hp]

theorem step_of_host_of_empty (h : s.inputs = .host :: more) (hp : s.port = []) :
    step s = .next { s with inputs := more } := by
  simp [step, fetch, State.nextInput, State.dropInput, h, fetchHost, hp]

/-- A clock edge without reset is the sequencer's step on the answer of the pins. -/
theorem step_of_clock {p : Pins} (h : s.inputs = .clock p :: more) (hr : p.rst = false) :
    step s = sequencerStep (answerOfPins p) { s with inputs := more } := by
  rw [sequencerStep_eq]
  simp only [step, fetch, State.nextInput, State.dropInput, h, fetchClock, hr, Bool.false_eq_true, if_false]
  cases sequencerInstr (answerOfPins p) s.pc <;> rfl

theorem fetch_of_word {ch : Channel} {bs : Bytes} (h : s.inputs = .word ch bs :: more) :
    fetch s = fetchWord ch bs { s with inputs := more } := by
  simp [fetch, State.nextInput, State.dropInput, h]

/-- A word that stands for no host operation runs; so does a host operation at an empty port. -/
theorem fetchWord_run {ch : Channel} {bs : Bytes} {i : Instr} (hd : decode ch bs = .ok i)
    (h : hostOpOf i = none ∨ s.port = []) : fetchWord ch bs s = .run i s := by
  rcases h with h | h <;> simp [fetchWord, hd, h]

/-- A host operation presented as a word is issued behind what waits (log entry 12). -/
theorem fetchWord_issue {ch : Channel} {bs : Bytes} {i : Instr} {op : HostOp} (hd : decode ch bs = .ok i)
    (ho : hostOpOf i = some op) (hp : s.port ≠ []) : fetchWord ch bs s = .quiet { s with port := s.port ++ [op] } := by
  obtain ⟨first, rest, hport⟩ := List.exists_cons_of_ne_nil hp
  simp [fetchWord, hd, ho, hport]

theorem fetchWord_reject {ch : Channel} {bs : Bytes} {e : DecodeError} (hd : decode ch bs = .error e)
    (h : idleWord ch bs = false ∨ s.busy = true) : fetchWord ch bs s = .reject e := by
  rcases h with h | h <;> simp [fetchWord, hd, h]

theorem idleWord_iff {ch : Channel} {bs : Bytes} :
    idleWord ch bs = true ↔ ∃ a code, ch = .seqStep a ∧ bs = [code] ∧ code.toNat < 2 := by
  unfold idleWord
  split
  · simp
  · rename_i h
    simp only [Bool.false_eq_true, false_iff]
    rintro ⟨a, code, rfl, rfl, -⟩
    exact h a code rfl rfl

/-- The sequencer has no step at `IDLE`, with or without `esc` (10_state.md rule R33 g). -/
theorem decode_idleWord {a : Answer} {code : Byte} (h : code.toNat < 2) :
    decode (.seqStep a) [code] = .error .notAStep := by
  have hp : code.toNat / 2 = 0 := by omega
  simp only [decode, decodeSeq, hp, phaseOfCode]
  split <;> rfl

/-- At `IDLE` the word of that phase changes nothing. -/
theorem fetchWord_idle {a : Answer} {code : Byte} (h : code.toNat < 2) (hp : s.pc.phase = .idle) :
    fetchWord (.seqStep a) [code] s = .quiet s := by
  simp [fetchWord, decode_idleWord h, idleWord, h, State.busy, hp]

/-- Settles O57, from what each kind of input selects. -/
theorem stepRunsTheDecodedInstruction : Obligations.StepRunsTheDecodedInstruction := by
  refine ⟨fun op rest more s => ⟨step_of_issue, step_of_host, step_of_host_of_empty⟩, fun ch bs more s h => ?_⟩
  have hfetch := fetch_of_word h
  refine ⟨fun i hd => ⟨fun hi => ?_, fun op ho hp => ?_⟩, ?_, fun e hd he => ?_⟩
  · exact step_of_run (hfetch.trans (fetchWord_run hd hi))
  · exact step_of_quiet (hfetch.trans (fetchWord_issue hd ho hp))
  · rintro a code rfl rfl hlt hp
    exact step_of_quiet (hfetch.trans (fetchWord_idle hlt hp))
  · refine step_of_reject (hfetch.trans (fetchWord_reject hd (he.symm.imp (fun hcode => ?_) State.busy_iff.2)))
    rw [Bool.eq_false_iff]
    intro hidle
    obtain ⟨a, code, hch, hbs, hlt⟩ := idleWord_iff.1 hidle
    exact absurd (hcode a code hch hbs) (by omega)

end Sys2Proof.Machine
end

section
/-! SUPPORT. What the block does with a host operation, at `IDLE` and while it is busy (42_queue_ops.md rules R151 to R157). -/

namespace Sys2Proof.Machine

variable {s t : State}

/-! ## The encoder's errors -/

/-- The kinds of error an encoder raises, with their codes (60_exceptions.md rule R200). -/
def ErrInfo.OfEncoder (e : ErrInfo) (code : BitVec 4) : Prop :=
  (e.kind = .invalidWindow ∧ code = 1) ∨ (e.kind = .invalidFontSize ∧ code = 4) ∨
    (e.kind = .encodingError ∧ code = 5) ∨ (e.kind = .payloadTooLarge ∧ code = 6)

theorem checkLen_err {p : Bytes} {e : ErrInfo} (h : checkLen p = .err e) : e.kind = .payloadTooLarge := by
  unfold checkLen at h
  split at h <;> cases h
  rfl

theorem checkWindow_err {α : Type} {w : Byte} {k : Result α} {e : ErrInfo} (h : checkWindow w k = .err e) :
    e.kind = .invalidWindow ∨ k = .err e := by
  unfold checkWindow at h
  split at h
  · cases h
    exact .inl rfl
  · exact .inr h

theorem bind_err {α β : Type} {r : Result α} {f : α → Result β} {e : ErrInfo} (h : r.bind f = .err e) :
    r = .err e ∨ ∃ a, f a = .err e := by
  cases r with
  | ok a => exact .inr ⟨a, h⟩
  | err d => exact .inl (by simpa [Result.bind] using h)

theorem asciiBytes_err {text : List Nat} {e : ErrInfo} (h : asciiBytes text = .err e) : e.kind = .encodingError := by
  cases hbad : firstBad text with
  | some c =>
    rw [asciiBytes_of_firstBad hbad] at h
    cases h
    rfl
  | none => simp [asciiBytes_of_firstBad_none hbad] at h

/-- Text fields are checked before the length. -/
theorem checkedText_err {text : List Nat} {f : Bytes → Bytes} {e : ErrInfo}
    (h : ((asciiBytes text).bind fun t => checkLen (f t)) = .err e) :
    e.kind = .encodingError ∨ e.kind = .payloadTooLarge := by
  rcases bind_err h with h | ⟨t, h⟩
  · exact .inl (asciiBytes_err h)
  · exact .inr (checkLen_err h)

theorem encodeCmd_err_kind {cmd : Command} {e : ErrInfo} (h : encodeCmd cmd = .err e) :
    e.kind = .invalidWindow ∨ e.kind = .invalidFontSize ∨ e.kind = .encodingError ∨ e.kind = .payloadTooLarge := by
  cases cmd with
  | exit | persistence => cases h
  | division | raw => exact .inr (.inr (.inr (checkLen_err h)))
  | scrollingText | image =>
    rcases checkWindow_err h with h | h
    · exact .inl h
    · exact .inr (.inr (.inr (checkLen_err h)))
  | staticText a =>
    rcases checkWindow_err h with h | h
    · exact .inl h
    · exact .inr (.inr (checkedText_err h))
  | clock a =>
    rcases checkWindow_err h with h | h
    · exact .inl h
    · split at h
      · cases h
        exact .inr (.inl rfl)
      · exact .inr (.inr (checkedText_err h))

/-- An encoder's error completes with the code of its kind and `ERR.INFO` 0 (rule R210). -/
theorem complete_of_encoder_error {cmd : Command} {e : ErrInfo} (h : encodeCmd cmd = .err e) :
    e.OfEncoder e.kind.code ∧
    s.complete (.err e) = { s with resp := s.resp ++ [Response.err e], errCode := e.kind.code, errInfo := 0x00#8 } := by
  obtain ⟨kind, info⟩ := e
  rcases encodeCmd_err_kind h with rfl | rfl | rfl | rfl
  · exact ⟨.inl ⟨rfl, rfl⟩, rfl⟩
  · exact ⟨.inr (.inl ⟨rfl, rfl⟩), rfl⟩
  · exact ⟨.inr (.inr (.inl ⟨rfl, rfl⟩)), rfl⟩
  · exact ⟨.inr (.inr (.inr ⟨rfl, rfl⟩)), rfl⟩

/-! ## Operations with a command -/

theorem withPayload_of_err {cmd : Command} {k : Bytes → Step} {e : ErrInfo} (hx : cmd.expressible = true)
    (he : encodeCmd cmd = .err e) : withPayload cmd s k = .next (s.complete (.err e)) := by
  simp [withPayload, hx, he, raise]

theorem withPayload_of_ok {cmd : Command} {k : Bytes → Step} {p : Bytes} (hx : cmd.expressible = true)
    (hp : encodeCmd cmd = .ok p) : withPayload cmd s k = k p := by
  simp [withPayload, hx, hp]

theorem appendPending_of_full {depth : Nat} {p : Bytes} (h : depth ≤ s.pending.length) :
    appendPending depth p s = .next (s.complete (.err ⟨.queueOverflow, none⟩)) :=
  if_pos h

theorem appendPending_of_lt {depth : Nat} {p : Bytes} (h : s.pending.length < depth) :
    appendPending depth p s = .next ((s.pushPending p).complete .ok) :=
  if_neg (Nat.not_le.2 h)

theorem execEnqueue_of_misuse {cmd : Command} {p : Bytes} (hx : cmd.expressible = true) (hp : encodeCmd cmd = .ok p)
    (hq : s.queueEnabled = false) : execEnqueue cmd s = .next (s.complete (.err ⟨.queueMisuse, none⟩)) := by
  simp [execEnqueue, withPayload_of_ok hx hp, hq, raise]

theorem execEnqueue_of_ok {cmd : Command} {p : Bytes} (hx : cmd.expressible = true) (hp : encodeCmd cmd = .ok p)
    (hq : s.queueEnabled = true) : execEnqueue cmd s = appendPending Config.qdepth p s := by
  simp [execEnqueue, withPayload_of_ok hx hp, hq]

/-- In queue mode a SEND is an ENQUEUE of its command (rule R156). -/
theorem execSend_of_queueMode {u : Byte} {c : Bool} {cmd : Command} (hq : s.queueEnabled = true) :
    execSend u c cmd s = execEnqueue cmd s := by
  simp [execSend, execEnqueue, hq]

/-- A group taken at `IDLE`. -/
def State.withGroup (s : State) (ps : List Bytes) (u : Byte) (c : Bool) : State :=
  { s with batch := ps, bpos := 0, fUnit := u, fConf := c }

theorem startOperation_eq {p : Bytes} {rest : List Bytes} {u : Byte} {c : Bool} (hl : p.length ≤ 65535) :
    startOperation p rest u c s = .next ((s.withGroup (p :: rest) u c).startPacket p 0) :=
  startOperation_of_fits hl

theorem execSend_idle {u : Byte} {c : Bool} {cmd : Command} (hq : s.queueEnabled = false) (hp : s.pc.phase = .idle) :
    execSend u c cmd s = withPayload cmd s fun p => startOperation p [] u c s := by
  simp [execSend, hq, State.busy, hp]

theorem execFlush_idle {u : Byte} {c : Bool} (hp : s.pc.phase = .idle) : execFlush u c s = acceptFlush u c s := by
  simp [execFlush, State.busy, hp]

theorem acceptFlush_of_misuse {u : Byte} {c : Bool} (hq : s.queueEnabled = false) :
    acceptFlush u c s = .next (s.complete (.err ⟨.queueMisuse, none⟩)) := by
  simp [acceptFlush, hq, raise]

theorem acceptFlush_of_empty {u : Byte} {c : Bool} (hq : s.queueEnabled = true) (hp : s.pending = []) :
    acceptFlush u c s = .next (s.complete .ok) := by
  simp [acceptFlush, hq, hp]

theorem acceptFlush_of_cons {u : Byte} {c : Bool} {p : Bytes} {rest : List Bytes} (hq : s.queueEnabled = true)
    (hp : s.pending = p :: rest) : acceptFlush u c s = startOperation p rest u c { s with pending := [] } := by
  simp [acceptFlush, hq, hp]

/-- While the sequencer is busy a direct SEND and a FLUSH go back to the head of the port (rule R157). -/
theorem exec_waits {op : HostOp} (hb : s.pc.phase ≠ .idle)
    (hop : (∃ u c, op = .flush u c) ∨ (s.queueEnabled = false ∧ ∃ u c cmd, op = .send u c cmd)) :
    exec (toInstr op) s = .next { s with port := op :: s.port } := by
  have hbusy := State.busy_iff.2 hb
  rcases hop with ⟨u, c, rfl⟩ | ⟨hq, u, c, cmd, rfl⟩
  · simp [toInstr, exec, execFlush, hbusy, waits]
  · simp [toInstr, exec, execSend, hq, hbusy, waits]

/-! ## The payload buffer after a load -/

theorem Memory.read_load_inside (m : Memory) (p : Bytes) (a : Nat) (h : a < p.length) :
    (m.writeBlock 0 p).read a = p[a]? := by
  simpa using m.read_writeBlock_inside p 0 a h

theorem Memory.read_load_outside (m : Memory) (p : Bytes) (a : Nat) (h : p.length ≤ a) :
    (m.writeBlock 0 p).read a = m.read a :=
  m.read_writeBlock_outside p 0 a (.inr (by simpa using h))

/-! ## The statements -/

/-- Settles O22, by the definition of BEGIN_QUEUE. -/
theorem beginQueueSetsAndEmpties : Obligations.BeginQueueSetsAndEmpties :=
  ⟨fun _ => rfl, fun _ => rfl⟩

/-- Settles O23, by the order of the checks. -/
theorem enqueueAppendsOrFails : Obligations.EnqueueAppendsOrFails := by
  refine ⟨fun _ => rfl, fun u c cmd s hq => execSend_of_queueMode hq, ?_,
    fun cmd s hx => ⟨fun e he => ?_, fun p hp => ⟨?_, ?_, ?_⟩⟩⟩
  · exact ⟨fun _ _ => rfl, fun _ _ => rfl, fun _ _ => rfl, fun _ _ => rfl, fun _ _ => rfl, fun _ _ => rfl, fun _ _ => rfl,
      fun _ _ => rfl⟩
  · obtain ⟨hkind, hcomplete⟩ := complete_of_encoder_error (s := s) he
    exact ⟨e.kind.code, (withPayload_of_err hx he).trans (congrArg _ hcomplete), hkind⟩
  · exact execEnqueue_of_misuse hx hp
  · exact fun hq hd => (execEnqueue_of_ok hx hp hq).trans (appendPending_of_full hd.ge)
  · exact fun hq hd => (execEnqueue_of_ok hx hp hq).trans (appendPending_of_lt hd)

/-- Settles O24: the batch of one payload begins. -/
theorem directSendLoadsOnePacket : Obligations.DirectSendLoadsOnePacket := by
  intro u c cmd s hx hq hidle
  have hsend : exec (.send u c cmd) s = _ := execSend_idle hq hidle
  refine ⟨fun e he => ?_, fun p hp => ?_⟩
  · obtain ⟨hkind, hcomplete⟩ := complete_of_encoder_error (s := s) he
    exact ⟨e.kind.code, hsend.trans ((withPayload_of_err hx he).trans (congrArg _ hcomplete)), hkind⟩
  · have hl := encodeCmd_length hp
    have hstart := hsend.trans ((withPayload_of_ok hx hp).trans (startOperation_eq hl))
    refine ⟨(s.withGroup [p] u c).startPacket p 0, hstart, rfl, rfl, rfl, rfl, rfl, rfl, rfl,
      lowByte_ofNat _, highByte_ofNat hl, rfl, rfl, plen_toNat_ofNat hl,
      s.pbuf.read_load_inside p, s.pbuf.read_load_outside p, rfl⟩

/-- Settles O25: the snapshot of the queue begins. -/
theorem flushSnapshotsPending : Obligations.FlushSnapshotsPending := by
  intro u c s hidle
  have hflush : exec (.flush u c) s = _ := execFlush_idle hidle
  refine ⟨fun hq => hflush.trans (acceptFlush_of_misuse hq), fun hq hp => hflush.trans (acceptFlush_of_empty hq hp),
    fun p rest hq hp hl hd => ?_⟩
  have htotal : (totalLessOne s.pending).toNat = s.pending.length - 1 := by
    have := totalLessOne_toNat (ps := s.pending) (by simp [hp]) hd
    omega
  have hstart := hflush.trans ((acceptFlush_of_cons hq hp).trans (startOperation_eq hl))
  refine ⟨(State.withGroup { s with pending := [] } (p :: rest) u c).startPacket p 0, hstart, hp.symm, rfl, rfl, rfl, rfl, rfl,
    rfl, rfl, lowByte_ofNat _, highByte_ofNat hl, rfl, hp ▸ htotal, plen_toNat_ofNat hl,
    s.pbuf.read_load_inside p, s.pbuf.read_load_outside p, rfl⟩

/-- Settles O26: the operation looked at goes back to where it was taken. -/
theorem directSendAndFlushWaitWhileBusy : Obligations.DirectSendAndFlushWaitWhileBusy := by
  intro op rest more s hb hport hinputs hop
  rw [step_of_host hinputs hport, exec_waits (by exact hb) (by exact hop), ← hport]

/-! ## Operations in flight -/

/-- What an operation accepted in flight may change (rule R155). -/
def LeavesGroup (s : State) (r : Step) : Prop := ∀ t, r = .next t → t = { s with
  queueEnabled := t.queueEnabled, pending := t.pending, resp := t.resp, errCode := t.errCode, errInfo := t.errInfo,
  port := t.port }

theorem LeavesGroup.complete (r : Response) : LeavesGroup s (.next (s.complete r)) := by
  rintro t ⟨⟩
  rfl

theorem leavesGroup_appendPending (depth : Nat) (p : Bytes) : LeavesGroup s (appendPending depth p s) := by
  rcases appendPending_cases depth p s with ⟨-, hr⟩ | ⟨-, hr⟩ <;> rw [hr]
  · exact .complete _
  · rintro t ⟨⟩
    rfl

theorem leavesGroup_execEnqueue (cmd : Command) : LeavesGroup s (execEnqueue cmd s) := by
  rcases withPayload_cases cmd s _ with ⟨-, hr⟩ | ⟨e, -, -, hr⟩ | ⟨p, -, -, hr⟩ <;> rw [execEnqueue, hr]
  · exact fun t h => nomatch h
  · exact .complete _
  · cases s.queueEnabled
    · exact .complete (.err ⟨.queueMisuse, none⟩)
    · exact leavesGroup_appendPending _ p

/-- Settles O27: while the sequencer is busy an operation queues, completes or waits. -/
theorem operationsInFlightLeaveTheGroup : Obligations.OperationsInFlightLeaveTheGroup := by
  intro op s t hb
  suffices h : LeavesGroup s (exec (toInstr op) s) from h t
  have waiting (h : exec (toInstr op) s = .next { s with port := op :: s.port }) : LeavesGroup s (exec (toInstr op) s) := by
    rw [h]
    rintro t ⟨⟩
    rfl
  cases op with
  | beginQueue =>
    rintro t ⟨⟩
    rfl
  | enqueue cmd => exact leavesGroup_execEnqueue cmd
  | flush u c => exact waiting (exec_waits hb (.inl ⟨u, c, rfl⟩))
  | send u c cmd =>
    cases hq : s.queueEnabled with
    | true =>
      rw [toInstr, exec, execSend_of_queueMode hq]
      exact leavesGroup_execEnqueue cmd
    | false => exact waiting (exec_waits hb (.inr ⟨hq, u, c, cmd, rfl⟩))

end Sys2Proof.Machine
end

section
/-! SUPPORT. Whole operations of an idle block: issued, accepted, and run by the clock until the group has left (42_queue_ops.md
rules R151, R154). -/

namespace Sys2Proof.Machine

variable {s t : State}

/-! ## Runs of the machine -/

/-- The state with other inputs placed. -/
def State.withInputs (s : State) (l : List Input) : State := { s with inputs := l }

/-- What is placed to arrive is no part of the invariant. -/
theorem State.Inv.withInputs (hs : s.Inv) (l : List Input) : (s.withInputs l).Inv := SameBlock.inv (s := s) rfl hs

theorem runSteps_add (m n : Nat) (s : State) : runSteps (m + n) s = andThen (runSteps m s) (runSteps n) := by
  induction m generalizing s with
  | zero => rw [Nat.zero_add, runSteps, andThen_next]
  | succ m ih =>
    rw [Nat.succ_add, runSteps, runSteps]
    cases step s with
    | next t => exact ih t
    | fault | refused => rfl

/-- An operation issued at an empty port is accepted by the next look at the port. -/
theorem runSteps_operation {op : HostOp} {more : List Input} (hp : s.port = [])
    (hin : s.inputs = .issue op :: .host :: more) (n : Nat) :
    runSteps (2 + n) s = andThen (exec (toInstr op) (s.withInputs more)) (runSteps n) := by
  have htaken : ({ s with inputs := more, port := [] } : State) = s.withInputs more := by rw [← hp]; rfl
  have htwo : runSteps 2 s = exec (toInstr op) (s.withInputs more) := by
    rw [runSteps, step_of_issue hin, andThen_next, runSteps, step_of_host (op := op) (rest := []) rfl (by simp [hp]), ← htaken]
    cases exec (toInstr op) _ <;> rfl
  rw [runSteps_add, htwo]

theorem answerOfPins_pinsOfAnswer (a : Answer) : answerOfPins (pinsOfAnswer a) = a := by
  cases a <;> rfl

theorem Sends.of_withInputs {l : List Input} {n : Nat} (h : Sends (s.withInputs l) t n) : Sends s t n :=
  ⟨h.inv, h.wire, h.left, h.pending, h.queueEnabled, h.port, h.result⟩

/-- Clock edges that never fail send as many of the bytes owed as the sink takes. -/
theorem runSteps_sends (answers : List Answer) {more : List Input} (hs : s.Inv)
    (hin : s.inputs = clocks answers ++ more) (hn : noFailure answers) :
    ∃ t, runSteps answers.length s = .next t ∧ Sends s t (accepts answers) ∧ t.inputs = more := by
  induction answers generalizing s with
  | nil => exact ⟨s, rfl, .refl hs, hin⟩
  | cons a answers ih =>
    obtain ⟨ha, hrest⟩ := noFailure_cons.1 hn
    have hstep : step s = sequencerStep a (s.withInputs (clocks answers ++ more)) := by
      rw [step_of_clock hin (by cases a <;> rfl), answerOfPins_pinsOfAnswer]
      rfl
    obtain ⟨t, ht, hst, hinputs⟩ := sequencerStep_sends a (hs.withInputs _) ha
    obtain ⟨u, hu, htu, hmore⟩ := ih hst.inv hinputs hrest
    rw [List.length_cons, runSteps, hstep, ht, andThen_next, accepts_cons]
    exact ⟨u, hu, (hst.trans htu).of_withInputs, hmore⟩

/-! ## A group from its start to its end -/

/-- `t` is `s` after an operation that sent the bytes `w` and completed `Ok`. -/
structure Completed (s t : State) (w : Bytes) : Prop where
  wire : t.wire = s.wire ++ w
  resp : t.resp = s.resp ++ [Response.ok]
  errCode : t.errCode = 0
  pc : t.pc = Pc.idle
  batch : t.batch = []
  pending : t.pending = s.pending
  queueEnabled : t.queueEnabled = s.queueEnabled
  port : t.port = s.port

theorem Completed.of_withInputs {l : List Input} {w : Bytes} (h : Completed (s.withInputs l) t w) : Completed s t w :=
  ⟨h.wire, h.resp, h.errCode, h.pc, h.batch, h.pending, h.queueEnabled, h.port⟩

/-- A run that sends all that is owed ends the operation. -/
theorem Sends.completed {n : Nat} (h : Sends s t n) (hb : s.pc.phase ≠ .idle) (hn : n = s.groupLeft.length) :
    Completed s t s.groupLeft := by
  have hidle : t.pc.phase = .idle := h.inv.groupLeft_eq_nil.1 (by rw [h.left, hn, List.drop_length])
  obtain ⟨-, -, hresp, hcode⟩ := h.result.resolve_right fun hr => hb (hr.1.1 hidle)
  exact ⟨by rw [h.wire, hn, List.take_length], hresp, hcode, h.inv.pc_idle hidle, h.inv.idleBatch.1 hidle, h.pending,
    h.queueEnabled, h.port⟩

/-- A group taken at `IDLE` and run by clock edges that take its bytes is sent whole, in index order (rule R154). -/
theorem startOperation_completes {p : Bytes} {rest : List Bytes} {u : Byte} {c : Bool} {answers : List Answer}
    (hs : s.Stored) (hl : ∀ q ∈ p :: rest, q.length ≤ 65535) (hd : (p :: rest).length ≤ Config.qdepth)
    (hin : s.inputs = clocks answers) (hn : noFailure answers)
    (ha : accepts answers = (groupFrames u c (p :: rest)).flatten.length) :
    ∃ t, andThen (startOperation p rest u c s) (runSteps answers.length) = .next t ∧
      Completed s t (groupFrames u c (p :: rest)).flatten := by
  have hat : (s.withGroup (p :: rest) u c).AtPacket p := ⟨⟨hs.pendingLengths, hs.pendingDepth, hs.buffer⟩, hl, hd, rfl⟩
  have howes : ((s.withGroup (p :: rest) u c).startPacket p 0).groupLeft = (groupFrames u c (p :: rest)).flatten :=
    hat.groupLeft
  have hinputs : s.inputs = clocks answers ++ [] := hin.trans (List.append_nil _).symm
  obtain ⟨t, ht, hsends, -⟩ := runSteps_sends answers (hat.inv (i := 0) rfl) hinputs hn
  have hdone := hsends.completed nofun (by rw [howes, ha])
  rw [startOperation_eq (hl p List.mem_cons_self), andThen_next, ← howes]
  exact ⟨t, ht, hdone.wire, hdone.resp, hdone.errCode, hdone.pc, hdone.batch, hdone.pending, hdone.queueEnabled, hdone.port⟩

theorem exec_send_idle {u : Byte} {c : Bool} {cmd : Command} {p : Bytes} (hx : cmd.expressible = true)
    (he : encodeCmd cmd = .ok p) (hq : s.queueEnabled = false) (hidle : s.pc.phase = .idle) :
    exec (toInstr (.send u c cmd)) s = startOperation p [] u c s :=
  (execSend_idle hq hidle).trans (withPayload_of_ok hx he)

theorem exec_flush_idle {u : Byte} {c : Bool} {p : Bytes} {rest : List Bytes} (hq : s.queueEnabled = true)
    (hidle : s.pc.phase = .idle) (hp : s.pending = p :: rest) :
    exec (toInstr (.flush u c)) s = startOperation p rest u c { s with pending := [] } :=
  (execFlush_idle hidle).trans (acceptFlush_of_cons hq hp)

/-- A direct SEND, issued at an idle block and run by the clock (rule R151). -/
theorem directSend_completes {u : Byte} {c : Bool} {cmd : Command} {p : Bytes} {answers : List Answer} (hs : s.Inv)
    (hx : cmd.expressible = true) (he : encodeCmd cmd = .ok p) (hq : s.queueEnabled = false) (hidle : s.pc.phase = .idle)
    (hport : s.port = []) (hin : s.inputs = .issue (.send u c cmd) :: .host :: clocks answers) (hn : noFailure answers)
    (ha : accepts answers = (makeFrame u c p 0 0).length) :
    ∃ t, runSteps (2 + answers.length) s = .next t ∧ Completed s t (makeFrame u c p 0 0) := by
  have hframes : (groupFrames u c [p]).flatten = makeFrame u c p 0 0 := List.append_nil _
  have hl : ∀ q ∈ [p], q.length ≤ 65535 := by simpa using encodeCmd_length he
  obtain ⟨t, ht, hdone⟩ := startOperation_completes (hs.withInputs (clocks answers)).stored hl Config.qdepth_pos rfl hn
    (ha.trans (congrArg _ hframes.symm))
  rw [runSteps_operation hport hin, exec_send_idle hx he (by exact hq) (by exact hidle)]
  exact ⟨t, ht, hframes ▸ hdone.of_withInputs⟩

/-- A FLUSH of a queue that is not empty, issued at an idle block and run by the clock (rule R154). -/
theorem flush_completes {u : Byte} {c : Bool} {answers : List Answer} (hs : s.Inv) (hq : s.queueEnabled = true)
    (hidle : s.pc.phase = .idle) (hpending : s.pending ≠ []) (hport : s.port = [])
    (hin : s.inputs = .issue (.flush u c) :: .host :: clocks answers) (hn : noFailure answers)
    (ha : accepts answers = (groupFrames u c s.pending).flatten.length) :
    ∃ t, runSteps (2 + answers.length) s = .next t ∧
      Completed { s with pending := [] } t (groupFrames u c s.pending).flatten := by
  obtain ⟨p, rest, hp⟩ := List.exists_cons_of_ne_nil hpending
  have hstored : State.Stored { s.withInputs (clocks answers) with pending := [] } := ⟨by simp, Nat.zero_le _, hs.buffer⟩
  obtain ⟨t, ht, hdone⟩ :=
    startOperation_completes hstored (hp ▸ hs.pendingLengths) (hp ▸ hs.pendingDepth) rfl hn (hp ▸ ha)
  rw [runSteps_operation hport hin, exec_flush_idle (by exact hq) (by exact hidle) (by exact hp), hp]
  exact ⟨t, ht, Completed.of_withInputs (s := { s with pending := [] }) hdone⟩

/-- Frame `i` of a group has index `i` and total `count - 1`. -/
theorem groupFrames_eq_mapIdx (u : Byte) (c : Bool) (ps : List Bytes) : groupFrames u c ps =
    ps.mapIdx fun i p => makeFrame u c p (BitVec.ofNat 8 i) (BitVec.ofNat 8 (ps.length - 1)) := by
  have hfrom (k : Byte) (i : Nat) : framesFrom u c k i ps = ps.mapIdx fun j p => makeFrame u c p (BitVec.ofNat 8 (i + j)) k := by
    induction ps generalizing i with
    | nil => rfl
    | cons p ps ih =>
      rw [framesFrom, ih, List.mapIdx_cons]
      simp only [Nat.add_zero, Nat.add_assoc, Nat.add_comm 1]
  rw [groupFrames, hfrom, totalLessOne]
  simp only [Nat.zero_add]

/-- Settles O40: the group of the one payload is sent whole. -/
theorem directSendEndToEnd : Obligations.DirectSendEndToEnd := by
  intro u c cmd p answers s hs hx he hq hidle hport hin hn ha
  obtain ⟨t, ht, hdone⟩ := directSend_completes hs hx he hq hidle hport hin hn ha
  exact ⟨t, ht, hdone.wire, hdone.resp, hdone.errCode, hdone.pc, hdone.batch, hdone.pending, hdone.queueEnabled.trans hq⟩

/-- Settles O41: the snapshot of the queue is sent whole, as the group it is. -/
theorem flushSendsTheGroupInOrder : Obligations.FlushSendsTheGroupInOrder := by
  intro u c answers s hs hq hidle hpending hport hin hn frames ha
  have hframes : groupFrames u c s.pending = frames := groupFrames_eq_mapIdx u c s.pending
  obtain ⟨t, ht, hdone⟩ := flush_completes hs hq hidle hpending hport hin hn (by rw [ha, hframes])
  rw [hframes] at hdone
  exact ⟨t, ht, hdone.wire, hdone.resp, hdone.errCode, hdone.pc, hdone.batch, hdone.pending, hdone.queueEnabled.trans hq⟩

end Sys2Proof.Machine
end

section
/-! SUPPORT. The function-level summary `exec`: its arms, and its agreement with the machine (42_queue_ops.md rule R159). -/

namespace Sys2Proof.Machine

variable {s t : State}

/-! ## The arms of the summary -/

theorem exec_execSummary {op : HostOp} {q : Bool} {P : List Bytes} {k : Option (Nat × Byte)} {v : FnValue}
    (hx : op.expressible = true) (hv : summary Config.qdepth op q P k = v) :
    exec (.execSummary op q P k) s = .next { s with result := some (.ok v) } :=
  hv ▸ if_pos hx

section Arms

variable {depth : Nat} {q : Bool} {P : List Bytes} {k : Option (Nat × Byte)} {u : Byte} {c : Bool} {cmd : Command} {p : Bytes}
  {e : ErrInfo}

theorem summary_enqueue_of_err (he : encodeCmd cmd = .err e) : summary depth (.enqueue cmd) q P k = .summary q P (.err e) [] := by
  simp [summary, he]

theorem summary_enqueue_of_misuse (hp : encodeCmd cmd = .ok p) :
    summary depth (.enqueue cmd) false P k = .summary false P (.err ⟨.queueMisuse, none⟩) [] := by
  simp [summary, hp]

theorem summary_enqueue_of_full (hp : encodeCmd cmd = .ok p) (hd : depth ≤ P.length) :
    summary depth (.enqueue cmd) true P k = .summary true P (.err ⟨.queueOverflow, none⟩) [] := by
  simp [summary, hp, summaryAppend, hd]

theorem summary_enqueue_of_lt (hp : encodeCmd cmd = .ok p) (hd : P.length < depth) :
    summary depth (.enqueue cmd) true P k = .summary true (P ++ [p]) .ok [] := by
  simp [summary, hp, summaryAppend, Nat.not_le.2 hd]

/-- In queue mode a SEND is summed up as the ENQUEUE of its command (rule R156). -/
theorem summary_send_of_queueMode : summary depth (.send u c cmd) true P k = summary depth (.enqueue cmd) true P k := by
  simp [summary]

theorem summary_send_of_err (he : encodeCmd cmd = .err e) :
    summary depth (.send u c cmd) q P k = .summary q P (.err e) [] := by
  simp [summary, he]

theorem summary_send_direct (hp : encodeCmd cmd = .ok p) : summary depth (.send u c cmd) false P k =
    .summary false P (offered k [makeFrame u c p 0 0]).1 (offered k [makeFrame u c p 0 0]).2 := by
  simp [summary, hp]

theorem summary_flush_of_misuse :
    summary depth (.flush u c) false P k = .summary false P (.err ⟨.queueMisuse, none⟩) [] := rfl

theorem summary_flush : summary depth (.flush u c) true P k =
    .summary true [] (offered k (groupFrames u c P)).1 (offered k (groupFrames u c P)).2 := rfl

theorem summary_flush_of_empty : summary depth (.flush u c) true [] none = .summary true [] .ok [] := rfl

end Arms

/-- The sink fails at one of the frames: that one is the last offered. -/
theorem offered_of_lt {n : Nat} {e : Byte} {fs : List Bytes} (h : n < fs.length) :
    offered (some (n, e)) fs = (.err (transportError e), fs.take (n + 1)) :=
  if_pos h

theorem offered_of_le {k : Option (Nat × Byte)} {fs : List Bytes} (h : ∀ n e, k = some (n, e) → fs.length ≤ n) :
    offered k fs = (.ok, fs) := by
  cases k with
  | none => rfl
  | some f => exact if_neg (Nat.not_lt.2 (h f.1 f.2 rfl))

theorem length_groupFrames (u : Byte) (c : Bool) (ps : List Bytes) : (groupFrames u c ps).length = ps.length := by
  rw [groupFrames_eq_mapIdx, List.length_mapIdx]

/-- Settles O20, arm by arm. -/
theorem summaryArms : Obligations.SummaryArms := by
  intro q P k s gives
  refine ⟨exec_execSummary rfl rfl, fun cmd hx => ⟨fun e he => ?_, fun p hp => ⟨?_, ?_, ?_⟩⟩,
    fun u c cmd hx => ⟨?_, ?_, ?_⟩, fun u c => ⟨?_, ?_⟩⟩
  · exact exec_execSummary hx (summary_enqueue_of_err he)
  · rintro rfl
    exact exec_execSummary hx (summary_enqueue_of_misuse hp)
  · rintro rfl hd
    exact exec_execSummary hx (summary_enqueue_of_full hp hd.ge)
  · rintro rfl hd
    exact exec_execSummary hx (summary_enqueue_of_lt hp hd)
  · rintro rfl
    exact (exec_execSummary (op := .send u c cmd) hx summary_send_of_queueMode).trans
      (exec_execSummary (op := .enqueue cmd) hx rfl).symm
  · rintro rfl e he
    exact exec_execSummary hx (summary_send_of_err he)
  · rintro rfl p hp
    refine ⟨?_, fun hk => ?_⟩
    · rintro e rfl
      exact exec_execSummary hx ((summary_send_direct hp).trans (by rw [offered_of_lt Nat.one_pos]; rfl))
    · have hoffered : offered k [makeFrame u c p 0 0] = (.ok, [makeFrame u c p 0 0]) :=
        offered_of_le fun n e hn => Nat.pos_of_ne_zero fun h0 => hk e (h0 ▸ hn)
      exact exec_execSummary hx ((summary_send_direct hp).trans (by rw [hoffered]))
  · rintro rfl
    exact exec_execSummary rfl summary_flush_of_misuse
  · rintro rfl F
    have hframes : groupFrames u c P = F := groupFrames_eq_mapIdx u c P
    have hlen := length_groupFrames u c P
    refine ⟨?_, fun hk => ?_⟩
    · rintro n e rfl hn
      exact exec_execSummary rfl (summary_flush.trans (by rw [offered_of_lt (hlen ▸ hn), hframes]; rfl))
    · exact exec_execSummary rfl (summary_flush.trans (by rw [offered_of_le (hlen ▸ hk), hframes]))

/-! ## The summary and the machine -/

/-- The operation, issued at `s` and run by a sink that takes every byte, ends as the summary says. -/
def AgreesWithSummary (op : HostOp) (s : State) : Prop :=
  ∃ (n : Nat) (t : State) (r : Response) (F : List Bytes),
    runSteps (2 + n) (s.withInputs (.issue op :: .host :: clocks (List.replicate n .accept))) = .next t ∧
    summary Config.qdepth op s.queueEnabled s.pending none = .summary t.queueEnabled t.pending r F ∧
    t.resp = s.resp ++ [r] ∧ t.wire = s.wire ++ F.flatten ∧ t.pc.phase = .idle ∧ t.port = []

/-- The operation completes when it is accepted, sends nothing, and leaves the result and the queue state of the summary. -/
def CompletesAsSummed (op : HostOp) (s : State) : Prop :=
  ∃ (t : State) (r : Response), exec (toInstr op) s = .next t ∧
    summary Config.qdepth op s.queueEnabled s.pending none = .summary t.queueEnabled t.pending r [] ∧
    t.resp = s.resp ++ [r] ∧ t.wire = s.wire ∧ t.pc = s.pc ∧ t.port = s.port

theorem CompletesAsSummed.agrees {op : HostOp} (h : CompletesAsSummed op (s.withInputs [])) (hidle : s.pc.phase = .idle)
    (hport : s.port = []) : AgreesWithSummary op s := by
  obtain ⟨t, r, hexec, hsum, hresp, hwire, hpc, hkept⟩ := h
  have hrun := runSteps_operation (s := s.withInputs (.issue op :: .host :: clocks (List.replicate 0 .accept))) hport rfl 0
  exact ⟨0, t, r, [], hrun.trans (congrArg (andThen · (runSteps 0)) hexec), hsum, hresp,
    hwire.trans (List.append_nil _).symm, hpc ▸ hidle, hkept.trans hport⟩

theorem accepts_replicate (n : Nat) : accepts (List.replicate n .accept) = n := List.count_replicate_self

theorem noFailure_replicate (n : Nat) : noFailure (List.replicate n .accept) := fun e h => by
  cases List.eq_of_mem_replicate h

/-- An operation that sends the frames `F` and completes `Ok`. -/
theorem agreesWithSummary_of_sends {op : HostOp} {P : List Bytes} {F : List Bytes} (hport : s.port = [])
    (hrun : ∀ answers, noFailure answers → accepts answers = F.flatten.length →
      ∃ t, runSteps (2 + answers.length) (s.withInputs (.issue op :: .host :: clocks answers)) = .next t ∧
        Completed { s with pending := P } t F.flatten)
    (hsum : summary Config.qdepth op s.queueEnabled s.pending none = .summary s.queueEnabled P .ok F) :
    AgreesWithSummary op s := by
  obtain ⟨t, ht, hdone⟩ := hrun _ (noFailure_replicate _) (accepts_replicate _)
  rw [List.length_replicate] at ht
  refine ⟨_, t, .ok, F, ht, ?_, hdone.resp, hdone.wire, by rw [hdone.pc], hdone.port.trans hport⟩
  rw [hsum, hdone.queueEnabled, hdone.pending]

theorem completesAsSummed_enqueue {cmd : Command} (hx : cmd.expressible = true) (s : State) :
    CompletesAsSummed (.enqueue cmd) s := by
  cases hp : encodeCmd cmd with
  | err e => exact ⟨_, _, withPayload_of_err hx hp, summary_enqueue_of_err hp, rfl, rfl, rfl, rfl⟩
  | ok p =>
    cases hq : s.queueEnabled with
    | false => exact ⟨_, _, execEnqueue_of_misuse hx hp hq, hq ▸ summary_enqueue_of_misuse hp, rfl, rfl, rfl, rfl⟩
    | true =>
      have hexec := execEnqueue_of_ok hx hp hq
      by_cases hd : s.pending.length < Config.qdepth
      · exact ⟨_, _, hexec.trans (appendPending_of_lt hd), hq ▸ summary_enqueue_of_lt hp hd, rfl, rfl, rfl, rfl⟩
      · have hfull := Nat.not_lt.1 hd
        exact ⟨_, _, hexec.trans (appendPending_of_full hfull), hq ▸ summary_enqueue_of_full hp hfull, rfl, rfl, rfl, rfl⟩

/-- In queue mode a SEND is the ENQUEUE of its command, in the machine as in the summary (rule R156). -/
theorem completesAsSummed_send {u : Byte} {c : Bool} {cmd : Command} (hx : cmd.expressible = true)
    (hq : s.queueEnabled = true) : CompletesAsSummed (.send u c cmd) s := by
  obtain ⟨t, r, hexec, hsum, hrest⟩ := completesAsSummed_enqueue hx s
  refine ⟨t, r, (execSend_of_queueMode hq).trans hexec, ?_, hrest⟩
  rw [hq] at hsum ⊢
  exact summary_send_of_queueMode.trans hsum

theorem completesAsSummed_send_of_err {u : Byte} {c : Bool} {cmd : Command} {e : ErrInfo} (hx : cmd.expressible = true)
    (he : encodeCmd cmd = .err e) (hq : s.queueEnabled = false) (hidle : s.pc.phase = .idle) :
    CompletesAsSummed (.send u c cmd) s :=
  ⟨_, _, (execSend_idle hq hidle).trans (withPayload_of_err hx he), summary_send_of_err he, rfl, rfl, rfl, rfl⟩

/-- A FLUSH with nothing to send (rule R154). -/
theorem completesAsSummed_flush {u : Byte} {c : Bool} (hidle : s.pc.phase = .idle)
    (h : s.queueEnabled = false ∨ s.pending = []) : CompletesAsSummed (.flush u c) s := by
  have hexec : exec (toInstr (.flush u c)) s = acceptFlush u c s := execFlush_idle hidle
  cases hq : s.queueEnabled with
  | false => exact ⟨_, _, hexec.trans (acceptFlush_of_misuse hq), hq ▸ summary_flush_of_misuse, rfl, rfl, rfl, rfl⟩
  | true =>
    have hp : s.pending = [] := h.resolve_left (by simp [hq])
    exact ⟨_, _, hexec.trans (acceptFlush_of_empty hq hp), by simp [hq, hp, summary_flush_of_empty], rfl, rfl, rfl, rfl⟩

theorem agreesWithSummary_send {u : Byte} {c : Bool} {cmd : Command} (hs : s.Inv) (hx : cmd.expressible = true)
    (hidle : s.pc.phase = .idle) (hport : s.port = []) : AgreesWithSummary (.send u c cmd) s := by
  cases hq : s.queueEnabled with
  | true => exact (completesAsSummed_send hx (by exact hq)).agrees hidle hport
  | false =>
    cases hp : encodeCmd cmd with
    | err e => exact (completesAsSummed_send_of_err hx hp (by exact hq) (by exact hidle)).agrees hidle hport
    | ok p =>
      have hframes : [makeFrame u c p 0 0].flatten = makeFrame u c p 0 0 := List.append_nil _
      refine agreesWithSummary_of_sends (P := s.pending) (F := [makeFrame u c p 0 0]) hport (fun answers hn ha => ?_)
        (hq ▸ summary_send_direct hp)
      obtain ⟨t, ht, hdone⟩ := directSend_completes (hs.withInputs (.issue (.send u c cmd) :: .host :: clocks answers))
        hx hp hq hidle hport rfl hn (ha.trans (congrArg _ hframes))
      exact ⟨t, ht, hframes.symm ▸ hdone.of_withInputs⟩

theorem agreesWithSummary_flush {u : Byte} {c : Bool} (hs : s.Inv) (hidle : s.pc.phase = .idle) (hport : s.port = []) :
    AgreesWithSummary (.flush u c) s := by
  by_cases h : s.queueEnabled = false ∨ s.pending = []
  · exact (completesAsSummed_flush (by exact hidle) (by exact h)).agrees hidle hport
  · obtain ⟨hq, hpending⟩ := not_or.1 h
    have hq := Bool.eq_true_of_not_eq_false hq
    refine agreesWithSummary_of_sends (P := []) (F := groupFrames u c s.pending) hport (fun answers hn ha => ?_)
      (hq ▸ summary_flush)
    obtain ⟨t, ht, hdone⟩ := flush_completes (hs.withInputs (.issue (.flush u c) :: .host :: clocks answers))
      hq hidle hpending hport rfl hn ha
    exact ⟨t, ht, Completed.of_withInputs (s := { s with pending := [] }) hdone⟩

/-- Settles O43: BEGIN_QUEUE and ENQUEUE complete at once, a direct SEND and a FLUSH when their frames have left. -/
theorem summaryAgreesWithTheMachine : Obligations.SummaryAgreesWithTheMachine := by
  intro op s hs hx hidle hport
  suffices h : AgreesWithSummary op s from h
  cases op with
  | beginQueue => exact CompletesAsSummed.agrees ⟨_, .ok, rfl, rfl, rfl, rfl, rfl, rfl⟩ hidle hport
  | enqueue cmd => exact (completesAsSummed_enqueue hx _).agrees hidle hport
  | flush u c => exact agreesWithSummary_flush hs hidle hport
  | send u c cmd => exact agreesWithSummary_send hs hx hidle hport

end Sys2Proof.Machine
end

section
/-! SUPPORT. One packet is one frame of the codec, and an operation ends within the bound of its packets (43_sequencer.md rules R186,
R187). -/

namespace Sys2Proof.Machine

variable {s t : State}

/-! ## The frame of the packet in flight -/

/-- `PBUF` holds the packet being sent. -/
theorem State.Loaded.payload_eq (hl : s.Loaded) : s.payload = s.packet := by
  have hread : ∀ a ∈ List.range s.plen.toNat, s.memRead a = some (s.packet.getD a 0) := by
    intro a ha
    have hlt := List.mem_range.1 ha
    rw [State.memRead, if_pos hlt, hl.buffer a hlt, List.getD_eq_getElem?_getD,
      List.getElem?_eq_getElem (hl.length ▸ hlt), Option.getD_some]
  rw [State.payload, List.filterMap_congr hread, List.filterMap_eq_map']
  exact List.ext_getElem (by simp [hl.length]) fun a _ hlt => by simp [List.getElem?_eq_getElem hlt]

/-- The two length registers hold the bytes of the packet's length. -/
theorem State.Loaded.lengthRegisters (hl : s.Loaded) :
    lowByte (BitVec.ofNat 16 s.packet.length) = s.xLenLo ∧ highByte (BitVec.ofNat 16 s.packet.length) = s.xLenHi := by
  have hbytes := hl.lengthBytes
  have hlen := hl.length
  have hlo := s.xLenLo.isLt
  have hhi := s.xLenHi.isLt
  constructor <;> apply BitVec.eq_of_toNat_eq
  · rw [lowByte_toNat, BitVec.toNat_ofNat]
    omega
  · rw [highByte_toNat, BitVec.toNat_ofNat]
    omega

theorem State.Inv.confByte_eq (hs : s.Inv) : confByte (s.xConf == 0x01#8) = s.xConf := by
  rcases hs.conf with h | h <;> rw [h] <;> rfl

/-- The header registers are the header of the packet being sent (41_framing.md rule R131). -/
theorem State.Inv.header_eq (hs : s.Inv) (hb : s.pc.phase ≠ .idle) : s.header =
    buildHeader s.xUnit (s.xConf == 0x01#8) (BitVec.ofNat 16 s.packet.length) s.xPidx s.xPtot := by
  obtain ⟨hlo, hhi⟩ := (hs.loaded hb).lengthRegisters
  rw [buildHeader, hlo, hhi, layoutHeader, hs.confByte_eq]
  rfl

/-- Before its start delimiter a packet owes its whole frame. -/
theorem State.Inv.packetLeft_eq_makeFrame (hs : s.Inv) (hp : s.pc.phase = .sof) :
    s.packetLeft = makeFrame s.xUnit (s.xConf == 0x01#8) s.payload s.xPidx s.xPtot := by
  have hb : s.pc.phase ≠ .idle := by simp [hp]
  rw [State.packetLeft_sof hp, State.summedBytes, hs.header_eq hb, (hs.loaded hb).payload_eq]
  rfl

/-- Settles O39: the first bytes a packet's group owes are its frame, and a run sends what is owed in order. -/
theorem onePacketIsMakeFrame : Obligations.OnePacketIsMakeFrame := by
  intro s answers hs hpc hn ha
  obtain ⟨t, ht, hsends⟩ := runAnswers_sends answers hs hn
  have hframe := hs.packetLeft_eq_makeFrame (by rw [hpc])
  refine ⟨t, ht, ?_⟩
  rw [hsends.wire, ha, ← hframe, State.groupLeft, List.take_left]

/-! ## The measure -/

theorem State.measure_lt_iff : t.measure < s.measure ↔
    t.batch.length - t.bpos.toNat < s.batch.length - s.bpos.toNat ∨
      t.batch.length - t.bpos.toNat = s.batch.length - s.bpos.toNat ∧
        (t.positionsLeft < s.positionsLeft ∨
          t.positionsLeft = s.positionsLeft ∧ 1 - t.pc.esc.toNat < 1 - s.pc.esc.toNat) := by
  simp [State.measure, Prod.Lex.toLex_lt_toLex]

/-- Inside a packet the positions left are the body bytes that have not left whole, and the end delimiter. -/
theorem State.positionsLeft_inside (hlen : s.packet.length = s.plen.toNat) (h0 : s.pc.phase ≠ .idle)
    (h1 : s.pc.phase ≠ .sof) : s.positionsLeft = s.packet.length + 12 - s.bodyPos := by
  unfold State.positionsLeft State.bodyPos
  cases hp : s.pc.phase with
  | idle => exact absurd hp h0
  | sof => exact absurd hp h1
  | hdr => simp only [hlen]
  | pay | ckl | ckh | fin => simp only [hlen]; omega

theorem Phase.inside_of_isBody {p : Phase} (hb : p.isBody = true) : p ≠ .idle ∧ p ≠ .sof := by
  rcases Phase.isBody_iff.1 hb with rfl | rfl | rfl | rfl <;> simp

/-- The successor position is one nearer to the end. -/
theorem State.Inv.positionsLeft_lt_of_nextPos (hs : s.Inv) (hb : s.pc.phase.isBody = true) (hpk : t.packet = s.packet)
    (hplen : t.plen = s.plen) (hn : nextPos s.plen.toNat s.pc = some t.pc) : t.positionsLeft < s.positionsLeft := by
  have hlen := hs.length_packet hb
  obtain ⟨b, hc⟩ := hs.cur_some hb
  obtain ⟨hlt, -⟩ := List.getElem?_eq_some_iff.1 ((hs.cur_eq_body hb).symm.trans hc)
  obtain ⟨hidle_s, hsof_s⟩ := Phase.inside_of_isBody hb
  obtain ⟨hpos, hsof⟩ := hs.bodyPos_of_nextPos hb hpk hn
  obtain ⟨hidle, -, -⟩ := nextPos_ok (hplen ▸ hn)
  rw [s.length_body] at hlt
  rw [State.positionsLeft_inside hlen hidle_s hsof_s,
    State.positionsLeft_inside (by rw [hpk, hplen, hlen]) hidle hsof, hpk, hpos]
  omega

theorem State.bpos_succ_toNat (hlt : s.bpos.toNat + 1 < s.batch.length) (hd : s.batch.length ≤ 256) :
    (s.bpos + 1).toNat = s.bpos.toNat + 1 := by
  simp [BitVec.toNat_add]
  omega

/-- An accepted byte lowers the measure (rule R187): a pair's first byte by `1 - esc`, a whole body byte and the start delimiter by
the positions, the end delimiter by the packets. -/
theorem AcceptCase.measure_lt (h : AcceptCase s t) (hs : s.Inv) : t.measure < s.measure := by
  rw [State.measure_lt_iff]
  cases h with
  | start hp he ht =>
    subst ht
    exact .inr ⟨rfl, .inl (by simp [State.positionsLeft, hp])⟩
  | plain b q hb he hc hr hn ht =>
    rw [addToAcc_ite] at ht
    subst ht
    exact .inr ⟨rfl, .inl (hs.positionsLeft_lt_of_nextPos hb rfl rfl hn)⟩
  | first b hb he hc hr ht =>
    rw [addToAcc_ite] at ht
    subst ht
    exact .inr ⟨rfl, .inr ⟨rfl, by simp [he]⟩⟩
  | second b q hb he hc hr hn ht =>
    subst ht
    exact .inr ⟨rfl, .inl (hs.positionsLeft_lt_of_nextPos hb rfl rfl hn)⟩
  | more p hp he hb hl ht =>
    subst ht
    obtain ⟨hlt, -⟩ := List.getElem?_eq_some_iff.1 hb
    left
    simp only [State.setPc_batch, State.withPacket_batch, State.setPc_bpos, State.withPacket_bpos, State.emit_batch,
      State.bpos_succ_toNat hlt (hs.batchDepth.trans Config.qdepth_le)]
    omega
  | last hp he hb ht =>
    subst ht
    exact .inl (Nat.sub_pos_of_lt (hs.loaded (by simp [hp])).inBatch)

/-! ## The bound -/

/-- Four bytes of a body are never reserved: of the other `n + 7`, each leaves as at most two. -/
theorem length_escape_body_le (u : Byte) (c : Bool) (len : Half) (i k : Byte) (p : Bytes) (v : Half) :
    (escape (buildHeader u c len i k ++ p ++ le16 v)).length ≤ 2 * p.length + 18 := by
  have hheader := countP_reserved_buildHeader_le u c len i k
  have hpayload : p.countP reserved ≤ p.length := List.countP_le_length
  have hchecksum : (le16 v).countP reserved ≤ 2 := List.countP_le_length
  rw [length_escape, List.countP_append, List.countP_append, List.length_append, List.length_append, length_buildHeader]
  have : (le16 v).length = 2 := rfl
  omega

theorem length_frame (body : Bytes) : (frame body).length = (escape body).length + 2 := by
  simp [frame]

theorem length_makeFrame_le (u : Byte) (c : Bool) (p : Bytes) (i k : Byte) :
    (makeFrame u c p i k).length ≤ 2 * p.length + 20 := by
  rw [makeFrame, length_frame]
  exact Nat.add_le_add_right (length_escape_body_le ..) 2

theorem length_framesFrom_le (u : Byte) (c : Bool) (k : Byte) (i : Nat) (ps : List Bytes) :
    (framesFrom u c k i ps).flatten.length ≤ (ps.map fun p => 2 * p.length + 20).sum := by
  induction ps generalizing i with
  | nil => exact Nat.le_refl 0
  | cons p ps ih =>
    rw [framesFrom, List.flatten_cons, List.length_append, List.map_cons, List.sum_cons]
    exact Nat.add_le_add (length_makeFrame_le ..) (ih (i + 1))

theorem length_escape_drop_le (bs : Bytes) (n : Nat) : (escape (bs.drop n)).length ≤ (escape bs).length := by
  rw [length_escape, length_escape]
  have hsub := List.drop_sublist n bs
  exact Nat.add_le_add hsub.length_le hsub.countP_le

/-- Wherever a packet stands, it owes at most the bound of a whole frame. -/
theorem State.Inv.length_packetLeft_le (hs : s.Inv) (hb : s.pc.phase ≠ .idle) :
    s.packetLeft.length ≤ 2 * s.packet.length + 20 := by
  have hbody (v : Half) : (escape (s.summedBytes ++ le16 v)).length ≤ 2 * s.packet.length + 18 := by
    rw [State.summedBytes, hs.header_eq hb]
    exact length_escape_body_le ..
  by_cases hp : s.pc.phase = .sof
  · rw [State.packetLeft_sof hp, length_frame]
    exact Nat.add_le_add_right (hbody _) 2
  · have hleft := (length_escape_drop_le s.body s.bodyPos).trans (hbody s.finalSum)
    rw [State.packetLeft_inside hb hp, List.length_append, List.length_drop, List.length_singleton]
    omega

/-- With the first packet in flight, the group owes at most the sum of the bounds of its packets. -/
theorem State.Inv.length_groupLeft_le (hs : s.Inv) (hb : s.pc.phase ≠ .idle) (h0 : s.bpos = 0) :
    s.groupLeft.length ≤ (s.batch.map fun p => 2 * p.length + 20).sum := by
  have hbatch : s.batch = s.packet :: s.batch.drop 1 := by
    have hlt := (hs.loaded hb).inBatch
    rw [State.packet, h0]
    rw [h0] at hlt
    cases hbatch : s.batch with
    | nil => simp [hbatch] at hlt
    | cons p ps => rfl
  rw [State.groupLeft, List.length_append, hbatch, List.map_cons, List.sum_cons, h0]
  exact Nat.add_le_add (hs.length_packetLeft_le hb) (length_framesFrom_le ..)

/-- A run whose sink takes at least what is owed sends all of it. -/
theorem Sends.all {n : Nat} (h : Sends s t n) (hn : s.groupLeft.length ≤ n) : Sends s t s.groupLeft.length :=
  { h with
    wire := by rw [h.wire, List.take_length, List.take_of_length_le hn]
    left := by rw [h.left, List.drop_length, List.drop_eq_nil_of_le hn] }

/-- Settles O44: the measure falls in each kind of step; the bytes owed are no more than the bound, and a run sends them all. -/
theorem operationCompletesWithinTheBound : Obligations.OperationCompletesWithinTheBound := by
  refine ⟨fun s hs hb => ?_, fun s answers hs hb h0 hn ha => ?_⟩
  · obtain ⟨t, ht, hcase⟩ := accept_cases hs hb
    exact ⟨t, ht, hcase.measure_lt hs⟩
  · obtain ⟨t, ht, hsends⟩ := runAnswers_sends answers hs hn
    have hdone := (hsends.all ((hs.length_groupLeft_le hb h0).trans ha)).completed hb rfl
    exact ⟨t, ht, hdone.pc, hdone.resp⟩

end Sys2Proof.Machine
end

section
/-! SUPPORT. The sequencer's steps, answer by answer (43_sequencer.md rules R170 to R182): a STEP row at its own position is the
answered step, each accepted step is one of the kinds above, and a stall or a failure is the same in every position. -/

namespace Sys2Proof.Machine

variable {s t : State}

/-! ## Rows at their own position -/

theorem atPhase_of_phase {p : Phase} {r : Step} (hp : s.pc.phase = p) : atPhase p s r = r :=
  if_pos hp

theorem atPosition_of_position {p : Phase} {e : Bool} {r : Step} (hp : s.pc.phase = p) (he : s.pc.esc = e) :
    atPosition p e s r = r :=
  if_pos ⟨hp, he⟩

/-! ## Bytes in the spec's spelling -/

theorem reserved_iff {b : Byte} : reserved b = true ↔ b = 0xA5#8 ∨ b = 0xAA#8 ∨ b = 0xAE#8 := by
  simp [reserved, or_assoc]

theorem lowNibble_eq (b : Byte) : b &&& 0x0F#8 = BitVec.ofNat 8 (b.toNat % 16) := by
  decide +revert

/-- Adding one byte to `acc`, as numbers (10_state.md rule R22). -/
theorem addToAcc_toNat (s : State) (b : Byte) : (s.addToAcc b).acc.toNat = (s.acc.toNat + b.toNat) % 65536 := by
  rw [State.addToAcc_acc, BitVec.toNat_add, BitVec.toNat_setWidth_of_le (by decide)]

/-! ## The successor position -/

theorem nextPos_hdr {n : Nat} {p : Pc} (hp : p.phase = .hdr) (h8 : p.idx.toNat ≤ 8) :
    nextPos n p = some (if p.idx.toNat < 8 then ⟨.hdr, p.idx + 1, false⟩
      else if n = 0 then ⟨.ckl, 0, false⟩ else ⟨.pay, 0, false⟩) := by
  simp only [nextPos, hp]
  by_cases hlt : p.idx.toNat < 8
  · rw [if_pos hlt, if_pos hlt]
  · rw [if_neg hlt, if_neg hlt, if_pos (by omega), apply_ite some]

theorem nextPos_pay {n : Nat} {p : Pc} (hp : p.phase = .pay) (hn : p.idx.toNat < n) :
    nextPos n p = some (if p.idx.toNat + 1 < n then ⟨.pay, p.idx + 1, false⟩ else ⟨.ckl, 0, false⟩) := by
  simp only [nextPos, hp]
  by_cases hlt : p.idx.toNat + 1 < n
  · rw [if_pos hlt, if_pos hlt]
  · rw [if_neg hlt, if_neg hlt, if_pos (by omega)]

theorem nextPos_ckl {n : Nat} {p : Pc} (hp : p.phase = .ckl) : nextPos n p = some ⟨.ckh, 0, false⟩ := by
  simp [nextPos, hp]

theorem nextPos_ckh {n : Nat} {p : Pc} (hp : p.phase = .ckh) : nextPos n p = some ⟨.fin, 0, false⟩ := by
  simp [nextPos, hp]

/-! ## Accepted body bytes -/

/-- `t` is `s` after the accepted first, or only, wire byte of the summed byte `b`, whose successor position is `q`. -/
def SummedStep (s t : State) (b : Byte) (q : Pc) : Prop :=
  t.acc.toNat = (s.acc.toNat + b.toNat) % 65536 ∧
    (b = 0xA5#8 ∨ b = 0xAA#8 ∨ b = 0xAE#8 → t.wire = s.wire ++ [0xAA#8] ∧ t.pc = ⟨s.pc.phase, s.pc.idx, true⟩) ∧
    (b ≠ 0xA5#8 → b ≠ 0xAA#8 → b ≠ 0xAE#8 → t.wire = s.wire ++ [b] ∧ t.pc = q) ∧
    t = { s with wire := t.wire, acc := t.acc, pc := t.pc }

theorem acceptSummed_step {b : Byte} {q : Pc} (hc : s.cur = some b) (hn : nextPos s.plen.toNat s.pc = some q) :
    ∃ t, acceptSummed s = .next t ∧ SummedStep s t b q := by
  cases hr : reserved b with
  | false =>
    obtain ⟨h5, hA, hE⟩ := reserved_eq_false_iff.1 hr
    exact ⟨_, acceptSummed_plain hc hr hn, addToAcc_toNat s b, fun h => by simp [h5, hA, hE] at h,
      fun _ _ _ => ⟨rfl, rfl⟩, rfl⟩
  | true =>
    have hb := reserved_iff.1 hr
    exact ⟨_, acceptSummed_reserved hc hr, addToAcc_toNat s b, fun _ => ⟨rfl, rfl⟩,
      fun h5 hA hE => by simp [h5, hA, hE] at hb, rfl⟩

theorem acceptChecksum_eq {b : Byte} {q : Pc} (hc : s.cur = some b) (hn : nextPos s.plen.toNat s.pc = some q) :
    acceptChecksum s = .next (if b = 0xA5#8 ∨ b = 0xAA#8 ∨ b = 0xAE#8
      then { s with wire := s.wire ++ [0xAA#8], pc := ⟨s.pc.phase, s.pc.idx, true⟩ }
      else { s with wire := s.wire ++ [b], pc := q }) := by
  by_cases hb : b = 0xA5#8 ∨ b = 0xAA#8 ∨ b = 0xAE#8
  · rw [acceptChecksum_reserved hc (reserved_iff.2 hb), if_pos hb]
    rfl
  · rw [acceptChecksum_plain hc (Bool.eq_false_iff.2 (mt reserved_iff.1 hb)) hn, if_neg hb]
    rfl

/-- Settles O28, by the step at the start delimiter. -/
theorem stepSofOnAccept : Obligations.StepSofOnAccept :=
  fun _ hp => atPhase_of_phase hp

/-- Settles O29: a header byte is a summed byte. -/
theorem stepHdrOnAccept : Obligations.StepHdrOnAccept := by
  intro s b hp he hx
  have hc : s.cur = some b := by rw [← hx, State.cur, hp]
  have h8 : s.pc.idx.toNat ≤ 8 := (s.readX_isSome _).1 (by rw [hx]; rfl)
  have hzero : s.plen.toNat = 0 ↔ s.plen = 0 := (BitVec.toNat_eq (y := 0)).symm
  have hn := nextPos_hdr (n := s.plen.toNat) hp h8
  simp only [hzero] at hn
  obtain ⟨t, ht, hstep⟩ := acceptSummed_step hc hn
  rw [SummedStep, hp] at hstep
  exact ⟨t, (atPosition_of_position hp he).trans ht, hstep⟩

/-- Settles O30: a payload byte is a summed byte. -/
theorem stepPayOnAccept : Obligations.StepPayOnAccept := by
  intro s b hp he hlt hread
  have hc : s.cur = some b := by rw [← hread, State.cur, hp]; exact if_pos hlt
  obtain ⟨t, ht, hstep⟩ := acceptSummed_step hc (nextPos_pay hp hlt)
  rw [SummedStep, hp] at hstep
  exact ⟨t, (atPosition_of_position hp he).trans ht, hstep⟩

/-- Settles O31: the pair has a reserved byte, which the invariant places in a body phase. -/
theorem stepEsc2OnAccept : Obligations.StepEsc2OnAccept := by
  intro s b hs he hc
  obtain ⟨q, hn⟩ := hs.nextPos_some (hs.esc_body he)
  obtain ⟨-, hesc, -⟩ := nextPos_ok (t := s.setPc q) hn
  exact ⟨_, (atPosition_of_position rfl he).trans (acceptPair_next hc hn), congrArg (s.wire ++ [·]) (lowNibble_eq b), hesc, hn,
    rfl⟩

/-- Settles O32: each checksum byte is a body byte that is not summed. -/
theorem checksumStepsOnAccept : Obligations.ChecksumStepsOnAccept := by
  refine fun s he => ⟨fun hp => ?_, fun hp => ?_⟩
  · have hc : s.cur = some (lowOf s.acc) := by rw [← lowByte_eq_lowOf, State.cur, hp]
    exact (atPosition_of_position hp he).trans (hp ▸ acceptChecksum_eq hc (nextPos_ckl hp))
  · have hc : s.cur = some (highOf s.acc) := by rw [← highByte_eq_highOf, State.cur, hp]
    exact (atPosition_of_position hp he).trans (hp ▸ acceptChecksum_eq hc (nextPos_ckh hp))

/-- Settles O33, from the two ways the end delimiter leaves and the numbers a packet load writes. -/
theorem stepEndOnAccept : Obligations.StepEndOnAccept := by
  refine fun s hp => ⟨fun hlast => ?_, fun p hget hl hd => ?_⟩
  · exact (atPhase_of_phase hp).trans (acceptEnd_last (Nat.not_lt.2 hlast))
  · obtain ⟨hlt, -⟩ := List.getElem?_eq_some_iff.1 hget
    have hindex : (BitVec.ofNat 8 (s.bpos.toNat + 1)).toNat = s.bpos.toNat + 1 := by
      rw [BitVec.toNat_ofNat]
      omega
    have htotal : (totalLessOne s.batch).toNat = s.batch.length - 1 := by
      have := totalLessOne_toNat (ps := s.batch) (by omega) hd
      omega
    exact ⟨_, (atPhase_of_phase hp).trans (acceptEnd_more hget hl), rfl, rfl, State.bpos_succ_toNat hlt hd, rfl, rfl,
      lowByte_ofNat _, highByte_ofNat hl, hindex, htotal, plen_toNat_ofNat hl, s.pbuf.read_load_inside p, s.pbuf.read_load_outside p, rfl⟩

/-! ## Stall and failure -/

theorem sequencerStep_stall (s : State) : sequencerStep .stall s = .next s := by
  by_cases hp : s.pc.phase = .idle
  · exact sequencerStep_idle .stall hp
  · exact sequencerStep_answered .stall hp

theorem sequencerStep_fail (e : Byte) (hp : s.pc.phase ≠ .idle) : sequencerStep (.fail e) s = .next (s.abort e) :=
  sequencerStep_answered (.fail e) hp

/-- Settles O34, by induction on the number of stalls. -/
theorem stallChangesNothing : Obligations.StallChangesNothing := by
  refine ⟨fun s n => ?_, fun s p hp => ⟨fun h => ?_, fun h => ?_,
    fun he => ⟨fun h => ?_, fun h => ?_, fun h => ?_, fun h => ?_⟩, fun he => atPosition_of_position hp he⟩⟩
  · induction n with
    | zero => rfl
    | succ n ih => rw [List.replicate_succ, runAnswers, sequencerStep_stall, andThen_next, ih]
  · exact atPhase_of_phase (hp.trans h)
  · exact atPhase_of_phase (hp.trans h)
  all_goals exact atPosition_of_position (hp.trans h) he

/-- Settles O35, by the abort every position answers a failure with. -/
theorem failureAbortsTheOperation : Obligations.FailureAbortsTheOperation := by
  intro e s hp
  have hinfo : (s.abort e).errInfo = e := by rw [State.abort_errInfo, BitVec.ofNat_toNat, BitVec.setWidth_eq]
  calc sequencerStep (.fail e) s
      = .next { s.abort e with errInfo := (s.abort e).errInfo } := sequencerStep_fail e hp
    _ = _ := by rw [hinfo]; rfl

theorem answerOfPins_eq_accept {p : Pins} : answerOfPins p = .accept ↔ p.txErr = false ∧ p.txReady = true := by
  unfold answerOfPins
  cases p.txErr <;> cases p.txReady <;> simp

/-- Settles O56: an accepted byte needs the invariant, the other answers do not. -/
theorem clockEdgeIsASequencerStep : Obligations.ClockEdgeIsASequencerStep := by
  intro p more s hr hin
  have hstep := step_of_clock hin hr
  refine ⟨hstep, fun h => ?_, fun hp => hstep.trans (sequencerStep_idle _ hp)⟩
  rw [hstep]
  by_cases hp : s.pc.phase = .idle
  · exact ⟨_, sequencerStep_idle _ hp⟩
  · rw [sequencerStep_answered _ (by exact hp)]
    cases ha : answerOfPins p with
    | stall | fail => exact ⟨_, rfl⟩
    | accept =>
      obtain ⟨herr, hready⟩ := answerOfPins_eq_accept.1 ha
      have hs : s.Inv := h.resolve_right (by simp [herr, hready])
      obtain ⟨t, ht, -⟩ := accept_cases (hs.withInputs more) hp
      exact ⟨t, ht⟩

/-! ## The offered byte -/

theorem offerOf_eq (e : Bool) (b : Byte) : offerOf e b = if e then BitVec.ofNat 8 (b.toNat % 16)
    else if b = 0xA5#8 ∨ b = 0xAA#8 ∨ b = 0xAE#8 then 0xAA#8 else b := by
  simp only [offerOf, reserved_iff, ← lowNibble_eq]
  rfl

/-- There is a current byte in body phases only. -/
theorem State.isBody_of_cur {b : Byte} (hc : s.cur = some b) : s.pc.phase.isBody = true := by
  cases hp : s.pc.phase with
  | hdr | pay | ckl | ckh => rfl
  | idle | sof | fin => simp [State.cur, hp] at hc

theorem State.offer_of_cur {b : Byte} (hc : s.cur = some b) : s.offer = some (offerOf s.pc.esc b) := by
  rcases Phase.isBody_iff.1 (State.isBody_of_cur hc) with hp | hp | hp | hp <;> simp [State.offer, hp, hc]

theorem State.offer_sof (hp : s.pc.phase = .sof) : s.offer = some 0xA5 := by
  simp [State.offer, hp]

theorem State.offer_fin (hp : s.pc.phase = .fin) : s.offer = some 0xAE := by
  simp [State.offer, hp]

/-- An accepted byte is the offered one. -/
theorem AcceptCase.wire_eq (h : AcceptCase s t) : t.wire = s.wire ++ s.offer.toList := by
  cases h with
  | start hp he ht => rw [ht, State.offer_sof hp]; rfl
  | plain b q hb he hc hr hn ht =>
    rw [addToAcc_ite] at ht
    rw [ht, State.offer_of_cur hc, he, offerOf, hr]
    rfl
  | first b hb he hc hr ht =>
    rw [addToAcc_ite] at ht
    rw [ht, State.offer_of_cur hc, he, offerOf, hr]
    rfl
  | second b q hb he hc hr hn ht =>
    rw [ht, State.offer_of_cur hc, he]
    rfl
  | more p hp he hb hl ht => rw [ht, State.offer_fin hp]; rfl
  | last hp he hb ht => rw [ht, State.offer_fin hp]; rfl

/-- Settles O36: positions by the invariant, the offer by its cases, the wire by the kinds of accepted steps. -/
theorem offeredByte : Obligations.OfferedByte := by
  intro s hs
  have hpos := hs.position
  refine ⟨fun hp => ⟨by simp [State.cur, hp], by simpa [State.positionOk, hp] using hpos⟩, fun hp => ?_, fun hp => ?_,
    fun hp => ?_, ⟨State.offer_idle, fun ho => ?_⟩, State.offer_sof, State.offer_fin, fun b hc => ?_, fun t ht => ?_⟩
  · have hlt : s.pc.idx.toNat < s.plen.toNat := by simpa [State.positionOk, hp] using hpos
    exact ⟨by simp [State.cur, hp, State.memRead, hlt], hlt⟩
  · simp [State.cur, hp, lowByte_eq_lowOf, lowOf]
  · simp [State.cur, hp, highByte_eq_highOf, highOf]
  · by_contra hb
    simpa [ho] using hs.offer_isSome hb
  · rw [State.offer_of_cur hc, offerOf_eq]
  · by_cases hp : s.pc.phase = .idle
    · rw [sequencerStep_idle .accept hp] at ht
      cases ht
      simp [State.offer_idle hp]
    · obtain ⟨u, hu, hcase⟩ := accept_cases hs hp
      cases hu.symm.trans ht
      exact hcase.wire_eq

end Sys2Proof.Machine
end

section
/-! SUPPORT. The wire symbols where the sequencer offers them: one accepted step, or two for a pair (43_sequencer.md rule R185; log
entry 11). -/

namespace Sys2Proof.Machine

variable {s : State} {b : Byte} {q : Pc}

/-! ## Accepted steps at a body byte -/

/-- `acc` after the body byte `b`: it counts in `HDR` and `PAY` only (rules R174, R175, R177). -/
def State.counted (s : State) (b : Byte) : Half :=
  if s.pc.phase = .hdr ∨ s.pc.phase = .pay then s.acc + b.setWidth 16 else s.acc

/-- `s` after the whole body byte `b` has left, with the successor position `q`. -/
def State.afterByte (s : State) (b : Byte) (q : Pc) : State :=
  { s with wire := s.wire ++ escapeByte b, pc := q, acc := s.counted b }

/-- `s` after the first wire byte of the reserved body byte `b`. -/
def State.afterPrefix (s : State) (b : Byte) : State :=
  ((s.setAcc (s.counted b)).emit 0xAA).setPc { s.pc with esc := true }

/-- The second byte of a pair leaves where `esc` is set; else a byte is summed in `HDR` and `PAY`, and a checksum byte elsewhere. -/
theorem sequencerStep_body (hb : s.pc.phase.isBody = true) : sequencerStep .accept s =
    if s.pc.esc then acceptPair s
    else if s.pc.phase = .hdr ∨ s.pc.phase = .pay then acceptSummed s else acceptChecksum s := by
  rw [sequencerStep_eq, sequencerInstr]
  rcases Phase.isBody_iff.1 hb with hp | hp | hp | hp <;> cases he : s.pc.esc <;> rw [hp] <;>
    exact atPosition_of_position hp he

theorem sequencerStep_of_plain (hc : s.cur = some b) (he : s.pc.esc = false) (hn : nextPos s.plen.toNat s.pc = some q)
    (hr : reserved b = false) : sequencerStep .accept s = .next (s.afterByte b q) := by
  rw [sequencerStep_body (State.isBody_of_cur hc), he, acceptSummed_plain hc hr hn, acceptChecksum_plain hc hr hn,
    if_neg Bool.false_ne_true, State.afterByte, State.counted, escapeByte_plain hr]
  split <;> rfl

theorem sequencerStep_of_reserved (hc : s.cur = some b) (he : s.pc.esc = false) (hr : reserved b = true) :
    sequencerStep .accept s = .next (s.afterPrefix b) := by
  rw [sequencerStep_body (State.isBody_of_cur hc), he, acceptSummed_reserved hc hr, acceptChecksum_reserved hc hr,
    if_neg Bool.false_ne_true, State.afterPrefix, State.counted]
  split <;> rfl

/-- The byte of a pair is the same at both its steps (rule R176). -/
theorem State.cur_afterPrefix (s : State) (b : Byte) : (s.afterPrefix b).cur = s.cur := by
  rw [State.afterPrefix, State.counted, ← addToAcc_ite, cur_of_summed]

/-- A reserved byte leaves in two accepted steps, and moves the position at the second. -/
theorem takePair_of_reserved (hc : s.cur = some b) (he : s.pc.esc = false) (hn : nextPos s.plen.toNat s.pc = some q)
    (hr : reserved b = true) : takePair s = .next (s.afterByte b q) := by
  have hsecond : (s.afterPrefix b).cur = some b := (s.cur_afterPrefix b).trans hc
  have hwire : s.wire ++ [0xAA] ++ [b &&& 0x0F] = s.wire ++ escapeByte b := by
    rw [escapeByte_reserved hr, List.append_assoc]
    rfl
  calc takePair s
      = sequencerStep .accept (s.afterPrefix b) := by rw [takePair, sequencerStep_of_reserved hc he hr, andThen_next]
    _ = acceptPair (s.afterPrefix b) := sequencerStep_body (State.isBody_of_cur hsecond)
    _ = .next (((s.afterPrefix b).emit (b &&& 0x0F)).setPc q) := acceptPair_next hsecond hn
    _ = .next (s.afterByte b q) := by rw [State.afterByte, ← hwire]; rfl

/-! ## Symbols -/

theorem wireSymbol_of_offered {bs : Bytes} {offered : Bool} {taken : State → Step} (h : offered = true) :
    wireSymbol bs offered taken s = taken (s.withBytes bs) := by
  subst h
  rfl

theorem State.atBody_eq_true (hc : s.cur = some b) (he : s.pc.esc = false) : s.atBody b = true :=
  decide_eq_true ⟨he, hc⟩

/-- `i` is the wire symbol of the body byte `b`, and `w` its wire bytes (30_encoding.md rule R61). -/
def IsSymbol (b : Byte) (i : Instr) (w : Bytes) : Prop :=
  (b = 0xAA#8 ∧ i = .escAA ∧ w = [0xAA#8, 0x0A#8]) ∨ (b = 0xAE#8 ∧ i = .escAE ∧ w = [0xAA#8, 0x0E#8]) ∨
    (b = 0xA5#8 ∧ i = .escA5 ∧ w = [0xAA#8, 0x05#8]) ∨
    (b ≠ 0xAA#8 ∧ b ≠ 0xAE#8 ∧ b ≠ 0xA5#8 ∧ i = .literal b ∧ w = [b])

/-- Every body byte has a symbol, which is taken in two steps when the byte is reserved and in one when it is not. -/
theorem exists_symbol (b : Byte) : ∃ i, IsSymbol b i (escapeByte b) ∧ ∀ s, exec i s =
    wireSymbol (escapeByte b) (s.atBody b) (if reserved b then takePair else sequencerStep .accept) s := by
  cases hr : reserved b with
  | false =>
    obtain ⟨h5, hA, hE⟩ := reserved_eq_false_iff.1 hr
    refine ⟨.literal b, .inr (.inr (.inr ⟨hA, hE, h5, rfl, escapeByte_plain hr⟩)), fun s => ?_⟩
    exact if_neg (by simp [hr])
  | true =>
    rcases reserved_iff.1 hr with rfl | rfl | rfl
    · exact ⟨.escA5, .inr (.inr (.inl ⟨rfl, rfl, rfl⟩)), fun s => rfl⟩
    · exact ⟨.escAA, .inl ⟨rfl, rfl, rfl⟩, fun s => rfl⟩
    · exact ⟨.escAE, .inr (.inl ⟨rfl, rfl, rfl⟩), fun s => rfl⟩

/-- The symbol of the current body byte takes it whole. -/
theorem exists_symbol_taken (hc : s.cur = some b) (he : s.pc.esc = false) (hn : nextPos s.plen.toNat s.pc = some q) :
    ∃ i, IsSymbol b i (escapeByte b) ∧ exec i s = .next ((s.withBytes (escapeByte b)).afterByte b q) := by
  obtain ⟨i, hi, hexec⟩ := exists_symbol b
  refine ⟨i, hi, (hexec s).trans ((wireSymbol_of_offered (State.atBody_eq_true hc he)).trans ?_)⟩
  cases hr : reserved b with
  | false => exact sequencerStep_of_plain (by exact hc) he hn hr
  | true => exact takePair_of_reserved (by exact hc) he hn hr

theorem sequencerStep_sof (a : Answer) (hp : s.pc.phase = .sof) : sequencerStep a s = exec (.stepSof a) s := by
  simp [sequencerStep_eq, sequencerInstr, hp]

theorem sequencerStep_fin (a : Answer) (hp : s.pc.phase = .fin) : sequencerStep a s = exec (.stepEnd a) s := by
  simp [sequencerStep_eq, sequencerInstr, hp]

theorem exec_sof_offered (hp : s.pc.phase = .sof) : exec .sof s = exec (.stepSof .accept) (s.withBytes [0xA5#8]) :=
  (wireSymbol_of_offered (decide_eq_true hp)).trans (sequencerStep_sof .accept hp)

theorem exec_eof_offered (hp : s.pc.phase = .fin) : exec .eof s = exec (.stepEnd .accept) (s.withBytes [0xAE#8]) :=
  (wireSymbol_of_offered (decide_eq_true hp)).trans (sequencerStep_fin .accept hp)

/-- Settles O38, from the accepted steps at the state with the symbol's bytes recorded; that a wire row takes them is log
entry 11. -/
theorem wireSymbolsAreAcceptedSteps : Obligations.WireSymbolsAreAcceptedSteps := by
  refine ⟨fun s hp => ?_, fun s hp => ?_, fun s b hs he hc => ?_⟩
  · have hsof := exec_sof_offered hp
    exact ⟨hsof, hsof.trans (stepSofOnAccept (s.withBytes _) hp)⟩
  · have heof := exec_eof_offered hp
    obtain ⟨hlast, hmore⟩ := stepEndOnAccept (s.withBytes [0xAE#8]) hp
    exact ⟨heof, fun h => heof.trans (hlast h), fun p hget hl hd => heof ▸ hmore p hget hl hd⟩
  · obtain ⟨q, hn⟩ := hs.nextPos_some (State.isBody_of_cur hc)
    obtain ⟨i, hi, hexec⟩ := exists_symbol_taken hc he hn
    exact ⟨i, _, escapeByte b, q, hexec, hn, hi, rfl⟩

end Sys2Proof.Machine
end

section
/-! SUPPORT. A group whose sink fails: the bytes taken before stay on the wire, the rest of the group is dropped (43_sequencer.md
rule R181, 60_exceptions.md rule R213). -/

namespace Sys2Proof.Machine

variable {s t : State} {answers : List Answer} {e : Byte}

/-- `t` is `s` after an operation that sent the bytes `w` and ended by the sink's answer `fail(e)`. -/
structure Aborted (s t : State) (w : Bytes) (e : Byte) : Prop where
  wire : t.wire = s.wire ++ w
  resp : t.resp = s.resp ++ [.err (transportError e)]
  errCode : t.errCode = 8
  errInfo : t.errInfo = e
  pc : t.pc = Pc.idle
  batch : t.batch = []
  bpos : t.bpos = 0
  pending : t.pending = s.pending
  queueEnabled : t.queueEnabled = s.queueEnabled

/-- While bytes are owed the block is busy and nothing has completed. -/
theorem Sends.unfinished {n : Nat} (h : Sends s t n) (hn : n < s.groupLeft.length) :
    t.pc.phase ≠ .idle ∧ t.resp = s.resp := by
  have hbusy : t.pc.phase ≠ .idle := by
    rw [Ne, ← h.inv.groupLeft_eq_nil, h.left, List.drop_eq_nil_iff]
    exact Nat.not_le.2 hn
  obtain ⟨-, hresp, -⟩ := h.result.resolve_left fun ⟨_, hidle, _⟩ => hbusy hidle
  exact ⟨hbusy, hresp⟩

/-- A failure after `n` of the bytes owed keeps those `n` on the wire and nothing else of the group. -/
theorem Sends.aborted {n : Nat} (h : Sends s t n) (hn : n < s.groupLeft.length) (e : Byte) :
    Aborted s (t.abort e) (s.groupLeft.take n) e where
  wire := h.wire
  resp := by rw [State.abort_resp, (h.unfinished hn).2]
  errCode := rfl
  errInfo := by simp
  pc := rfl
  batch := rfl
  bpos := rfl
  pending := h.pending
  queueEnabled := h.queueEnabled

theorem step_of_fail (hin : s.inputs = clocks [.fail e]) (hb : s.pc.phase ≠ .idle) :
    step s = .next ((s.withInputs []).abort e) := by
  rw [step_of_clock hin rfl, answerOfPins_pinsOfAnswer]
  exact sequencerStep_fail e hb

/-- Clock edges that take fewer bytes than are owed, then one that fails, abort the operation after those bytes. -/
theorem runSteps_aborts (hs : s.Inv) (hin : s.inputs = clocks (answers ++ [.fail e])) (hn : noFailure answers)
    (ha : accepts answers < s.groupLeft.length) :
    ∃ t, runSteps (answers.length + 1) s = .next t ∧ Aborted s t (s.groupLeft.take (accepts answers)) e := by
  obtain ⟨t, ht, hsends, hinputs⟩ := runSteps_sends answers hs (hin.trans List.map_append) hn
  obtain ⟨hbusy, -⟩ := hsends.unfinished ha
  refine ⟨(t.withInputs []).abort e, ?_, { hsends.aborted ha e with }⟩
  rw [runSteps_add, ht, andThen_next, runSteps, step_of_fail hinputs hbusy, andThen_next, runSteps]

theorem State.Stored.atPacket_withGroup {p : Bytes} {rest : List Bytes} (hs : s.Stored)
    (hl : ∀ q ∈ p :: rest, q.length ≤ 65535) (hd : (p :: rest).length ≤ Config.qdepth) (u : Byte) (c : Bool) :
    (s.withGroup (p :: rest) u c).AtPacket p :=
  ⟨⟨hs.pendingLengths, hs.pendingDepth, hs.buffer⟩, hl, hd, rfl⟩

/-- A FLUSH issued at an idle block whose sink fails inside the group. -/
theorem flush_aborts {u : Byte} {c : Bool} (hs : s.Inv) (hq : s.queueEnabled = true) (hidle : s.pc.phase = .idle)
    (hpending : s.pending ≠ []) (hport : s.port = [])
    (hin : s.inputs = .issue (.flush u c) :: .host :: clocks (answers ++ [.fail e])) (hn : noFailure answers)
    (ha : accepts answers < (groupFrames u c s.pending).flatten.length) :
    ∃ t, runSteps (2 + (answers.length + 1)) s = .next t ∧
      Aborted { s with pending := [] } t ((groupFrames u c s.pending).flatten.take (accepts answers)) e := by
  obtain ⟨p, rest, hp⟩ := List.exists_cons_of_ne_nil hpending
  have hlengths := hp ▸ hs.pendingLengths
  have hstored : State.Stored { s.withInputs (clocks (answers ++ [.fail e])) with pending := [] } :=
    ⟨by simp, Nat.zero_le _, hs.buffer⟩
  have hat := hstored.atPacket_withGroup hlengths (hp ▸ hs.pendingDepth) u c
  have hinv := hat.inv (i := 0) rfl
  have howes : State.groupLeft (State.startPacket _ p 0) = (groupFrames u c (p :: rest)).flatten := hat.groupLeft
  rw [hp, ← howes] at ha ⊢
  obtain ⟨t, ht, haborted⟩ := runSteps_aborts hinv rfl hn ha
  refine ⟨t, ?_, { haborted with }⟩
  rw [runSteps_operation hport hin, exec_flush_idle (by exact hq) (by exact hidle) (by exact hp),
    startOperation_eq (hlengths p List.mem_cons_self), andThen_next]
  exact ht

/-- Settles O42: before the failure the run has sent a proper prefix of the group, and the abort keeps the wire. -/
theorem failedFlushLeavesAProperPrefix : Obligations.FailedFlushLeavesAProperPrefix := by
  intro u c answers e s hs hq hidle hpending hport hin hn frames ha
  have hframes : groupFrames u c s.pending = frames := groupFrames_eq_mapIdx u c s.pending
  obtain ⟨t, ht, haborted⟩ := flush_aborts hs hq hidle hpending hport hin hn (hframes ▸ ha)
  rw [hframes] at haborted
  have hsteps : 3 + answers.length = 2 + (answers.length + 1) := by omega
  exact ⟨t, hsteps ▸ ht, haborted.wire, haborted.resp, haborted.errCode, haborted.errInfo, haborted.pc, haborted.batch,
    haborted.bpos, haborted.pending, haborted.queueEnabled.trans hq⟩

/-- A block in queue mode with one command waiting, a FLUSH issued, and a sink that takes two bytes and then fails with 7. -/
def State.failingFlush : State :=
  { State.reset with
    queueEnabled := true, pending := [[0x06]],
    inputs := .issue (.flush 1 false) :: .host :: clocks ([.accept, .stall, .accept] ++ [.fail 7]) }

theorem State.failingFlush_inv : State.failingFlush.Inv :=
  .of_idle rfl rfl rfl (.inl rfl) ⟨by simp [State.failingFlush], Config.qdepth_pos, rfl⟩

/-- The statement at `State.failingFlush`: of the frame, its start delimiter and the first header byte are on the wire. -/
theorem failingFlush_leaves_two_bytes :
    ∃ t, runSteps 6 State.failingFlush = .next t ∧ t.wire = [0xA5, 0x68] ∧
      t.resp = [.err ⟨.transport, some 7⟩] ∧ t.batch = [] ∧ t.queueEnabled = true := by
  obtain ⟨t, ht, hwire, hresp, -, -, -, hbatch, -, -, hqueue⟩ := failedFlushLeavesAProperPrefix 1 false
    [.accept, .stall, .accept] 7 State.failingFlush State.failingFlush_inv rfl rfl (by simp [State.failingFlush]) rfl rfl
    (by simp [noFailure]) (by decide)
  exact ⟨t, ht, hwire, hresp, hbatch, hqueue⟩

end Sys2Proof.Machine
end

section
/-! SUPPORT. The reset edge (70_reset_and_hazards.md rule R240). -/

namespace Sys2Proof.Machine

variable {s : State} {more : List Input}

/-- A clock edge with reset takes the input and resets the block, whatever the other pins and the position are. -/
theorem step_of_resetEdge {p : Pins} (h : s.inputs = .clock p :: more) (hr : p.rst = true) :
    step s = .next (State.resetEdge { s with inputs := more }) := by
  simp [step, fetch, State.nextInput, State.dropInput, h, fetchClock, hr]

/-- Settles O46: `State.resetEdge` keeps the buffer, the logs and the model's own fields, and nothing else. -/
theorem resetEdgeClearsTheBlock : Obligations.ResetEdgeClearsTheBlock := by
  intro p more s hr hinputs
  rw [step_of_resetEdge hinputs hr, State.resetEdge]

/-- A block that owes the second byte of a pair, with a queued command and an operation at its port, when an edge comes with
`rst`, an accepting sink and a sink failure at once. -/
def State.resetInPair : State :=
  { State.reset with
    xUnit := 1, xLenLo := 1, plen := 1, pbuf := [(0, 0x8E)], batch := [[0x8E]], fUnit := 1, acc := 0x01A5,
    pc := ⟨.ckl, 0, true⟩, queueEnabled := true, pending := [[0x06]], port := [.flush 1 false], wire := [0xA5],
    resp := [.ok], inputs := [.clock ⟨true, true, true, 9⟩, .host] }

/-- The statement at `State.resetInPair`: the flush at the port and the queue are forgotten, no completion is given. -/
theorem resetInPair_forgets_operations :
    step State.resetInPair =
      .next { State.reset with pbuf := [(0, 0x8E)], wire := [0xA5], resp := [.ok], inputs := [.host] } :=
  resetEdgeClearsTheBlock ⟨true, true, true, 9⟩ [.host] State.resetInPair rfl rfl

end Sys2Proof.Machine
end
